-- ==== Sys2Proof/Word.lean ====
section
/-! DEFINITION. The word types of the AMSIM core: port bytes and words, and the two IEEE 754 formats the
spec computes in, each as its encoding (00_scope.md rules R13 to R16).  Arithmetic on them is in
Machine/Float.lean. -/

namespace Sys2Proof

/-- One byte of a port message (20_memory.md rule R85). -/
abbrev Byte := BitVec 8

/-- One 32-bit word of a port message (30_encoding.md rule R112); also the `u32` of the noise generator. -/
abbrev Word := BitVec 32

/-- Two consecutive words, low word first (20_memory.md rule R85). -/
abbrev Word64 := BitVec 64

/-- A binary64 number, held as its encoding: `bits` is the spec's `bits64(x)` and `F64.mk` its `f64(w)`
(00_scope.md rule R16).  A structure, so that the integer arithmetic of `BitVec` cannot be applied to a number. -/
structure F64 where
  bits : BitVec 64
  deriving DecidableEq, Repr, Inhabited

/-- A binary32 audio sample, held as its encoding: `bits32` and `f32` of 00_scope.md rule R16. -/
structure F32 where
  bits : BitVec 32
  deriving DecidableEq, Repr, Inhabited

end Sys2Proof
end

