-- ==== Sys2Proof/Syntax.lean ====
section
/-! DEFINITION. The AMSIM transaction set as terms: the Config record an updateConfig carries, the four ports,
and one constructor of `Instr` per row of the opcode table (30_encoding.md rules R110, R116 to R122). -/

namespace Sys2Proof

/-- The Config of 10_state.md rule R31: 17 fields in slot order (30_encoding.md rule R116).  Every field holds the
bit pattern that was written (rule R32); `noiseEnabled` is the Boolean of slot 15 (30_encoding.md rule R117). -/
structure ConfigRecord where
  /-- slot 0, `carrier.freqRatio` -/
  freqRatio : F64
  /-- slot 1, `carrier.modulationIndex` -/
  modulationIndex : F64
  /-- slot 2, `lpf.cutoff` -/
  cutoff : F64
  /-- slot 3, `lpf.q` -/
  q : F64
  /-- slot 4, `lpf.stages` -/
  stages : F64
  /-- slot 5, `detector.attackTime` -/
  attackTime : F64
  /-- slot 6, `detector.releaseTime` -/
  releaseTime : F64
  /-- slot 7, `compressor.threshold` -/
  threshold : F64
  /-- slot 8, `compressor.ratio` -/
  ratio : F64
  /-- slot 9, `compressor.releaseTime` -/
  compReleaseTime : F64
  /-- slot 10, `compressor.makeupGain` -/
  makeupGain : F64
  /-- slot 11, `diode.drop` -/
  drop : F64
  /-- slot 12, `diode.vt` -/
  vt : F64
  /-- slot 13, `diode.gain` -/
  diodeGain : F64
  /-- slot 14, `diode.blend` -/
  blend : F64
  /-- slot 15, `noise.enabled` -/
  noiseEnabled : Bool
  /-- slot 16, `noise.level` -/
  noiseLevel : F64
  deriving DecidableEq, Repr

/-- The four ports of 30_encoding.md rule R111. -/
inductive Port where
  | ctrlIn
  | audioIn
  | audioOut
  | eventOut
  deriving DecidableEq, Repr

/-- The ports on which the host's messages arrive (30_encoding.md rule R111). -/
def Port.isInput : Port → Bool
  | .ctrlIn => true
  | .audioIn => true
  | .audioOut => false
  | .eventOut => false

/-- The six message kinds of 30_encoding.md rule R110. -/
inductive Kind where
  | updateConfig
  | startSpectrum
  | stopSpectrum
  | processBlock
  | blockOut
  | spectrum
  deriving DecidableEq, Repr

/-- The port of each kind (30_encoding.md rule R110). -/
def Kind.port : Kind → Port
  | .updateConfig => .ctrlIn
  | .startSpectrum => .ctrlIn
  | .stopSpectrum => .ctrlIn
  | .processBlock => .audioIn
  | .blockOut => .audioOut
  | .spectrum => .eventOut

/-- The messages of the transaction set, one constructor per row of the opcode table.  Samples are channel-major
(30_encoding.md rules R120, R121): sample `i` of channel `c` stands at index `c * BLOCK_LEN + i`. -/
inductive Instr where
  /-- `updateConfig(config)`, rules R116, R283 -/
  | updateConfig (config : ConfigRecord)
  /-- `startSpectrum(fftSize)`, the size an `i32`, rules R118, R286 -/
  | startSpectrum (fftSize : BitVec 32)
  /-- `stopSpectrum()`, rules R119, R288 -/
  | stopSpectrum
  /-- `processBlock`, the channel count and the input samples, rules R120, R282 -/
  | processBlock (channels : Nat) (samples : List F32)
  /-- `blockOut`, the channel count and the output samples, rules R121, R281 -/
  | blockOut (channels : Nat) (samples : List F32)
  /-- `spectrum(magnitudes)`, rules R122, R289 -/
  | spectrum (magnitudes : List F64)
  deriving DecidableEq, Repr

/-- The kind of a message. -/
def Instr.kind : Instr → Kind
  | .updateConfig _ => .updateConfig
  | .startSpectrum _ => .startSpectrum
  | .stopSpectrum => .stopSpectrum
  | .processBlock _ _ => .processBlock
  | .blockOut _ _ => .blockOut
  | .spectrum _ => .spectrum

end Sys2Proof
end

