-- ==== Sys2Proof/Config.lean ====
section
/-! DEFINITION. The parameters of 00_scope.md rule R10, each fixed for the lifetime of one machine.  A parameter to
which the spec gives this hardware's value is that value.  One it leaves OPEN is an opaque constant without a
body, so that nothing can be proved of the value itself; Machine/Functions.lean brings each into the range the
spec does state. -/

namespace Sys2Proof

/-- `BLOCK_LEN`, samples per channel per block (rule R10). -/
def Config.blockLen : Nat := 128

/-- `MAX_CHANNELS` (rule R10). -/
def Config.maxChannels : Nat := 32

/-- `MAX_STAGES` (rule R10). -/
def Config.maxStages : Nat := 64

/-- `MAX_FFT_SIZE` (rule R10). -/
def Config.maxFftSize : Nat := 32768

/-- `SPECTRUM_INTERVAL` (rule R10). -/
def Config.spectrumInterval : Nat := 4

/-- `FREQ_EPS`, the binary64 nearest to 1e-6 (rule R10). -/
def Config.freqEps : F64 := ⟨0x3EB0C6F7A0B5ED8D⟩

/-- `NOISE_SEED` (rule R10). -/
def Config.noiseSeed : BitVec 32 := 1

/-- `DEFAULT_CONFIG`: this hardware's value, the table of 10_state.md rule R49. -/
def Config.defaultConfig : ConfigRecord where
  freqRatio := ⟨0x3FD0000000000000⟩
  modulationIndex := ⟨0x3FE999999999999A⟩
  cutoff := ⟨0x40AF400000000000⟩
  q := ⟨0x3FE69FBE76C8B439⟩
  stages := ⟨0x4010000000000000⟩
  attackTime := ⟨0x3FF0000000000000⟩
  releaseTime := ⟨0x4034000000000000⟩
  threshold := ⟨0x3FE0000000000000⟩
  ratio := ⟨0x4010000000000000⟩
  compReleaseTime := ⟨0x3FB999999999999A⟩
  makeupGain := ⟨0x3FF0000000000000⟩
  drop := ⟨0x3FC999999999999A⟩
  vt := ⟨0x3FE0000000000000⟩
  diodeGain := ⟨0x3FB999999999999A⟩
  blend := ⟨0x0000000000000000⟩
  noiseEnabled := false
  noiseLevel := ⟨0x3F847AE147AE147B⟩

/-- FREE VALUE: the instance's `SAMPLE_RATE` before it is brought into the legal range (rules R10, R11). -/
opaque Config.sampleRateRaw : F64

/-- FREE VALUE: `NAN_OUT` before it is brought into [-1, 1] (rule R10). -/
opaque Config.nanOutRaw : F64

/-- FREE VALUE: `COS` where rule R22 gives no special value. -/
opaque Config.cosRaw : F64 → F64

/-- FREE VALUE: `SIN` where rule R22 gives no special value. -/
opaque Config.sinRaw : F64 → F64

/-- FREE VALUE: `EXP` where rule R22 gives no special value. -/
opaque Config.expRaw : F64 → F64

/-- FREE VALUE: `LOG10` where rule R22 gives no special value. -/
opaque Config.log10Raw : F64 → F64

/-- FREE VALUE: `POW10` where rule R22 gives no special value. -/
opaque Config.pow10Raw : F64 → F64

/-- The places at which the spec says "NaN" without saying which of the NaN bit patterns. -/
inductive NanSource where
  | add
  | sub
  | mul
  | div
  | sqrt
  | fmod
  | widen
  | cos
  | sin
  | exp
  | log10
  | pow10
  | max0
  | literal
  | stage
  deriving DecidableEq, Repr

/-- FREE VALUE: the bit pattern of a NaN result, by operation and operands (rule R13 says only "NaN"). -/
opaque Config.nanRaw : NanSource → F64 → F64 → F64

/-- FREE VALUE: the bit pattern a NaN narrows to.  No output sample is a NaN (60_exceptions.md rule R331). -/
opaque Config.narrowNanRaw : F64 → F32

end Sys2Proof
end

