-- ==== Sys2Proof/Machine/Float.lean ====
section
/-! DEFINITION. IEEE 754 binary64 and binary32 as 00_scope.md rules R13 to R18 use them: every operation is computed
exactly on integers and rounded once, to nearest, ties to even, with subnormals, infinities and signed zeros.
A finite number is its sign and a whole number of units of 2^-1074 (binary64) or 2^-149 (binary32).  The
operations are irreducible so that a proof about the pipeline never computes one by accident; the lemmas of
Laws/Float.lean say what each can answer, and the kernel evaluates them all the same. -/

namespace Sys2Proof

/-- The number of binary64 units (2^-1074) in 1. -/
@[irreducible] def unitsPerOne : Nat := 2 ^ 1074

/-- The number of binary64 units in one binary32 unit (2^-149). -/
@[irreducible] def unitsPerUnit32 : Nat := 2 ^ 925

/-- `num / den` rounded to the nearest integer, ties to even. -/
def roundNearestEven (num den : Nat) : Nat :=
  let quo := num / den
  let rem := num % den
  if 2 * rem < den then quo
  else if den < 2 * rem then quo + 1
  else quo + quo % 2

/-- The magnitude field (exponent and fraction together, sign apart) of `num / den` units rounded to a format with
`fracBits` fraction bits.  `shift` binades above the subnormal spacing the spacing is `2 ^ shift` units; a carry
out of the fraction lands in the exponent as it should. -/
def roundMagnitude (fracBits num den : Nat) : Nat :=
  let shift := Nat.log2 (num / den) - fracBits
  shift * 2 ^ fracBits + roundNearestEven num (den * 2 ^ shift)

/-- The number of units a magnitude field stands for: the fraction alone in the lowest binade, with the implied bit
above it. -/
def unitsOfMagnitude (fracBits magnitude : Nat) : Nat :=
  let expo := magnitude / 2 ^ fracBits
  let frac := magnitude % 2 ^ fracBits
  if expo = 0 then frac else (2 ^ fracBits + frac) * 2 ^ (expo - 1)

/-! ### binary64 -/

/-- The sign bit. -/
def F64.sign (x : F64) : Bool := x.bits.msb

/-- The 63 bits below the sign: exponent and fraction. -/
def F64.magnitude (x : F64) : Nat := x.bits.toNat % 2 ^ 63

/-- The magnitude field of the infinities: exponent all ones, fraction 0. -/
def infMagnitude : Nat := 0x7FF0000000000000

/-- A number from its sign and its magnitude field. -/
def F64.ofParts (neg : Bool) (magnitude : Nat) : F64 :=
  ⟨BitVec.ofNat 64 ((if neg then 2 ^ 63 else 0) + magnitude)⟩

/-- `isNaN` of rule R17. -/
def F64.isNaN (x : F64) : Bool := infMagnitude < x.magnitude

/-- Neither an infinity nor a NaN. -/
def F64.isFinite (x : F64) : Bool := x.magnitude < infMagnitude

/-- The magnitude in units of 2^-1074.  For an infinity this reads 2^2098, above every finite magnitude, so that
comparisons need no case for infinities. -/
def F64.unitsAbs (x : F64) : Nat := unitsOfMagnitude 52 x.magnitude

/-- The value in units of 2^-1074. -/
def F64.units (x : F64) : Int := if x.sign then -(x.unitsAbs : Int) else x.unitsAbs

/-- What IEEE arithmetic distinguishes in an operand. -/
inductive F64View where
  | nan
  | inf (neg : Bool)
  | fin (neg : Bool) (units : Nat)
  deriving DecidableEq, Repr

/-- An operand's class, sign and magnitude. -/
def F64.view (x : F64) : F64View :=
  if x.isNaN then .nan
  else if x.isFinite then .fin x.sign x.unitsAbs
  else .inf x.sign

/-- An infinity. -/
def F64.inf (neg : Bool) : F64 := F64.ofParts neg infMagnitude

/-- A zero. -/
def F64.zero (neg : Bool) : F64 := F64.ofParts neg 0

/-- `num / den` units with the given sign, rounded to binary64; a magnitude beyond the format is an infinity. -/
def F64.round (neg : Bool) (num den : Nat) : F64 :=
  F64.ofParts neg (min (roundMagnitude 52 num den) infMagnitude)

/-- A NaN of which the spec says no more than that it is one (rule R13): its bits are free. -/
def F64.nanOf (src : NanSource) (a b : F64) : F64 :=
  let r := Config.nanRaw src a b
  if r.isNaN then r else ⟨0x7FF8000000000000⟩

/-- The sign bit inverted (unary minus of rule R16's pseudocode). -/
def F64.neg (x : F64) : F64 := ⟨x.bits ^^^ 0x8000000000000000⟩

/-- `ABS` of rule R17: the sign bit cleared. -/
def F64.abs (x : F64) : F64 := ⟨x.bits &&& 0x7FFFFFFFFFFFFFFF⟩

/-- The sum of two signed magnitudes in units; an exact zero is -0 only when both operands are negative. -/
def F64.addUnits (s : Bool) (m : Nat) (t : Bool) (n : Nat) : F64 :=
  let z : Int := (if s then -(m : Int) else m) + (if t then -(n : Int) else n)
  if z = 0 then F64.zero (s && t) else F64.round (z < 0) z.natAbs 1

/-- Binary64 `a + b` (rule R13). -/
@[irreducible] def F64.add (a b : F64) : F64 :=
  match a.view, b.view with
  | .nan, _ => F64.nanOf .add a b
  | _, .nan => F64.nanOf .add a b
  | .inf s, .inf t => if s = t then F64.inf s else F64.nanOf .add a b
  | .inf s, .fin _ _ => F64.inf s
  | .fin _ _, .inf t => F64.inf t
  | .fin s m, .fin t n => F64.addUnits s m t n

/-- Binary64 `a - b` (rule R13). -/
@[irreducible] def F64.sub (a b : F64) : F64 :=
  match a.view, b.view with
  | .nan, _ => F64.nanOf .sub a b
  | _, .nan => F64.nanOf .sub a b
  | .inf s, .inf t => if s = t then F64.nanOf .sub a b else F64.inf s
  | .inf s, .fin _ _ => F64.inf s
  | .fin _ _, .inf t => F64.inf (!t)
  | .fin s m, .fin t n => F64.addUnits s m (!t) n

/-- Binary64 `a * b` (rule R13). -/
@[irreducible] def F64.mul (a b : F64) : F64 :=
  match a.view, b.view with
  | .nan, _ => F64.nanOf .mul a b
  | _, .nan => F64.nanOf .mul a b
  | .inf s, .inf t => F64.inf (s ^^ t)
  | .inf s, .fin t n => if n = 0 then F64.nanOf .mul a b else F64.inf (s ^^ t)
  | .fin s m, .inf t => if m = 0 then F64.nanOf .mul a b else F64.inf (s ^^ t)
  | .fin s m, .fin t n => F64.round (s ^^ t) (m * n) unitsPerOne

/-- Binary64 `a / b` (rule R13). -/
@[irreducible] def F64.div (a b : F64) : F64 :=
  match a.view, b.view with
  | .nan, _ => F64.nanOf .div a b
  | _, .nan => F64.nanOf .div a b
  | .inf _, .inf _ => F64.nanOf .div a b
  | .inf s, .fin t _ => F64.inf (s ^^ t)
  | .fin s _, .inf t => F64.zero (s ^^ t)
  | .fin s m, .fin t n =>
    if n = 0 then (if m = 0 then F64.nanOf .div a b else F64.inf (s ^^ t))
    else F64.round (s ^^ t) (m * unitsPerOne) n

/-- The integer square root of `n`, bit by bit: `root` is what is known of it, `k` bits are still to find. -/
def sqrtFrom (n : Nat) : Nat → Nat → Nat
  | 0, root => root
  | k + 1, root => sqrtFrom n k (if (root + 2 ^ k) * (root + 2 ^ k) ≤ n then root + 2 ^ k else root)

/-- The largest integer whose square is at most `n`. -/
def natSqrt (n : Nat) : Nat := sqrtFrom n (Nat.log2 n / 2 + 1) 0

/-- `SQRT` of rule R17, correctly rounded: the integer root has far more bits than the result, and a remainder
only says that the exact root lies strictly between it and the next integer. -/
@[irreducible] def F64.sqrt (x : F64) : F64 :=
  match x.view with
  | .nan => F64.nanOf .sqrt x x
  | .inf s => if s then F64.nanOf .sqrt x x else F64.inf false
  | .fin s m =>
    if m = 0 then F64.zero s
    else if s then F64.nanOf .sqrt x x
    else
      let n := m * unitsPerOne
      let root := natSqrt n
      F64.round false (2 * root + (if root * root = n then 0 else 1)) 2

/-- `FMOD` of rule R17: the exact remainder of the division truncated toward zero, with the sign of `x`. -/
@[irreducible] def F64.fmod (x y : F64) : F64 :=
  match x.view, y.view with
  | .nan, _ => F64.nanOf .fmod x y
  | _, .nan => F64.nanOf .fmod x y
  | .inf _, _ => F64.nanOf .fmod x y
  | .fin _ _, .inf _ => x
  | .fin s m, .fin _ n => if n = 0 then F64.nanOf .fmod x y else F64.round s (m % n) 1

/-- `toF64(i)` of rule R15 for a natural number. -/
@[irreducible] def F64.ofNat (n : Nat) : F64 := F64.round false (n * unitsPerOne) 1

/-! The constants that the rules write as literals (rule R18 for `TWO_PI`). -/

/-- +0 -/
def F64.posZero : F64 := ⟨0x0000000000000000⟩
/-- 0.5 -/
def F64.half : F64 := ⟨0x3FE0000000000000⟩
/-- 1 -/
def F64.one : F64 := ⟨0x3FF0000000000000⟩
/-- -1 -/
def F64.negOne : F64 := ⟨0xBFF0000000000000⟩
/-- 2 -/
def F64.two : F64 := ⟨0x4000000000000000⟩
/-- -2 -/
def F64.negTwo : F64 := ⟨0xC000000000000000⟩
/-- 20 -/
def F64.twenty : F64 := ⟨0x4034000000000000⟩
/-- `TWO_PI` (rule R18). -/
def F64.twoPi : F64 := ⟨0x401921FB54442D18⟩

/-! ### binary32 -/

/-- The sign bit. -/
def F32.sign (x : F32) : Bool := x.bits.msb

/-- The 31 bits below the sign. -/
def F32.magnitude (x : F32) : Nat := x.bits.toNat % 2 ^ 31

/-- The magnitude field of the binary32 infinities. -/
def infMagnitude32 : Nat := 0x7F800000

/-- A sample from its sign and its magnitude field. -/
def F32.ofParts (neg : Bool) (magnitude : Nat) : F32 :=
  ⟨BitVec.ofNat 32 ((if neg then 2 ^ 31 else 0) + magnitude)⟩

/-- The sample is a NaN. -/
def F32.isNaN (x : F32) : Bool := infMagnitude32 < x.magnitude

/-- The magnitude in units of 2^-149. -/
def F32.unitsAbs (x : F32) : Nat := unitsOfMagnitude 23 x.magnitude

/-- The exact widening of an input sample (rule R14). -/
@[irreducible] def F32.widen (x : F32) : F64 :=
  if x.isNaN then F64.nanOf .widen ⟨x.bits.setWidth 64⟩ F64.posZero
  else if x.magnitude = infMagnitude32 then F64.inf x.sign
  else F64.round x.sign (x.unitsAbs * unitsPerUnit32) 1

/-- The NaN that a NaN narrows to: its bits are free. -/
def F32.nanOf (x : F64) : F32 :=
  let r := Config.narrowNanRaw x
  if r.isNaN then r else ⟨0x7FC00000⟩

/-- The narrowing of an output sample, to nearest, ties to even (rule R14). -/
@[irreducible] def F64.narrow (x : F64) : F32 :=
  match x.view with
  | .nan => F32.nanOf x
  | .inf s => F32.ofParts s infMagnitude32
  | .fin s m => F32.ofParts s (min (roundMagnitude 23 m unitsPerUnit32) infMagnitude32)

end Sys2Proof
end

