-- ==== Sys2Proof/Machine/Flags.lean ====
section
/-! DEFINITION. The core has no condition codes, status flags or predicates (10_state.md rule R47): nothing here is
state.  What its procedures decide on are the IEEE ordered comparisons of 00_scope.md rule R18 and the
requests' validity; the comparisons, and the ranges stated with them, stand in this file. -/

namespace Sys2Proof

/-- IEEE `a < b`: false with a NaN operand (rule R18). -/
@[irreducible] def F64.lt (a b : F64) : Bool := !a.isNaN && !b.isNaN && decide (a.units < b.units)

/-- IEEE `a > b` (rule R18). -/
def F64.gt (a b : F64) : Bool := F64.lt b a

/-- IEEE `a >= b`: false with a NaN operand (rule R18). -/
@[irreducible] def F64.ge (a b : F64) : Bool := !a.isNaN && !b.isNaN && decide (b.units ≤ a.units)

/-- The number lies in [-1, 1]. -/
def F64.inUnitRange (x : F64) : Bool := F64.ge x F64.negOne && F64.ge F64.one x

/-- The number lies in `[0, TWO_PI)`, the range of the carrier phase (10_state.md rule R36). -/
def F64.inPhaseRange (x : F64) : Bool := F64.ge x F64.posZero && F64.lt x F64.twoPi

/-- `MAX0` of rule R17: NaN for a NaN, `+0` for -0 and for negatives. -/
def F64.max0 (x : F64) : F64 :=
  if x.isNaN then F64.nanOf .max0 x x else if F64.gt x F64.posZero then x else F64.posZero

/-- The binary32 sample lies in [-1, 1]: it is not a NaN and its magnitude field is at most that of 1. -/
def F32.inUnitRange (x : F32) : Bool := x.magnitude ≤ 0x3F800000

end Sys2Proof
end

