-- ==== Sys2Proof/Machine/Functions.lean ====
section
/-! DEFINITION. The open parameters of 00_scope.md rule R10 inside the ranges and special values the spec does state
(rules R10, R11, R22; 10_state.md rule R53; 42_spectrum.md rule R243): each is the
opaque value of Config.lean wherever the spec leaves it free. -/

namespace Sys2Proof

/-- `SAMPLE_RATE`: finite and above 0 (rules R10, R11); nothing else is known of it. -/
def sampleRate : F64 :=
  let r := Config.sampleRateRaw
  if r.isFinite && F64.gt r F64.posZero then r else ⟨0x40E7700000000000⟩

/-- `NAN_OUT`: some value in [-1, 1], fixed for the instance (rule R10; 93_implementation_defined.md I4). -/
def nanOut : F64 :=
  let r := Config.nanOutRaw
  if r.inUnitRange then r else F64.posZero

/-- The Hann window's last argument `(TWO_PI * 15) / 15` for `N = 16`, one unit in the last place below `TWO_PI`; for every
other size it is `TWO_PI` itself (42_spectrum.md rule R243). -/
def belowTwoPi : F64 := ⟨0x401921FB54442D17⟩

/-- `COS` (rule R22).  DEDUCED: it is 1 at `belowTwoPi` too, since 42_spectrum.md rule R243 has `w[N-1] = 0` for every
`N >= 2` (log entry 22). -/
@[irreducible] def fnCos (x : F64) : F64 :=
  match x.view with
  | .nan => F64.nanOf .cos x x
  | .inf _ => F64.nanOf .cos x x
  | .fin _ m =>
    if m = 0 then F64.one
    else if x = F64.twoPi ∨ x = belowTwoPi then F64.one
    else
      let r := Config.cosRaw x
      if r.inUnitRange then r else F64.one

/-- `SIN` (rule R22). -/
@[irreducible] def fnSin (x : F64) : F64 :=
  match x.view with
  | .nan => F64.nanOf .sin x x
  | .inf _ => F64.nanOf .sin x x
  | .fin _ m =>
    if m = 0 then x
    else
      let r := Config.sinRaw x
      if r.inUnitRange then r else F64.posZero

/-- A free value where it lies in `[lo, hi]`, and `lo` where it does not. -/
def keepWithin (lo hi r : F64) : F64 := if F64.ge r lo && F64.ge hi r then r else lo

/-- The smallest binary64 whose exponential is above every finite binary64 (rule R22, "overflow gives +Inf"). -/
def expOverflow : F64 := ⟨0x40862E42FEFA39F0⟩

/-- `EXP` (rule R22).  DEDUCED: at most 1 below 0 and at least 1 above it, since 10_state.md rule R53 has coefficients in
[0, 1] and a non-negative diode curve for every valid Config; a positive argument may give exactly 1 (log entry 20). -/
@[irreducible] def fnExp (x : F64) : F64 :=
  match x.view with
  | .nan => F64.nanOf .exp x x
  | .inf s => if s then F64.posZero else F64.inf false
  | .fin s m =>
    if m = 0 then F64.one
    else if F64.ge x expOverflow then F64.inf false
    else
      let r := Config.expRaw x
      if s then keepWithin F64.posZero F64.one r else keepWithin F64.one (F64.inf false) r

/-- -324, below the exact logarithm of every binary64 above 0. -/
def log10Lowest : F64 := ⟨0xC074400000000000⟩

/-- 309, above the exact logarithm of every finite binary64. -/
def log10Highest : F64 := ⟨0x4073500000000000⟩

/-- `LOG10` (rule R22).  DEDUCED: for a finite number above 0 it is a number in [-324, 0] below 1 and in [0, 309] above 1,
since 41_channel_pipeline.md rule R196 has a gain of 1 for a ratio of 1 and of 0 for a threshold of 0 (log entry 26). -/
@[irreducible] def fnLog10 (x : F64) : F64 :=
  match x.view with
  | .nan => F64.nanOf .log10 x x
  | .inf s => if s then F64.nanOf .log10 x x else F64.inf false
  | .fin s m =>
    if m = 0 then F64.inf true
    else if s then F64.nanOf .log10 x x
    else if x = F64.one then F64.posZero
    else
      let r := Config.log10Raw x
      if F64.lt x F64.one then keepWithin log10Lowest F64.posZero r else keepWithin F64.posZero log10Highest r

/-- The smallest binary64 whose power of ten is above every finite binary64 (rule R22, "overflow gives +Inf"). -/
def pow10Overflow : F64 := ⟨0x40734413509F79FF⟩

/-- `POW10` (rule R22).  DEDUCED: in [0, 1] below 0 and at least 1 above it, since 41_channel_pipeline.md rule R196 has it
reduce the gain for a ratio above 1 and expand for one in (0, 1) (log entry 26). -/
@[irreducible] def fnPow10 (x : F64) : F64 :=
  match x.view with
  | .nan => F64.nanOf .pow10 x x
  | .inf s => if s then F64.posZero else F64.inf false
  | .fin s m =>
    if m = 0 then F64.one
    else if F64.ge x pow10Overflow then F64.inf false
    else
      let r := Config.pow10Raw x
      if s then keepWithin F64.posZero F64.one r else keepWithin F64.one (F64.inf false) r

end Sys2Proof
end

