-- ==== Sys2Proof/Machine/State.lean ====
section
/-! DEFINITION. The state of the AMSIM core as plain data (10_state.md), why a step can stop, and the state after
reset (10_state.md rule R50). -/

namespace Sys2Proof.Machine

/-- One stage of a channel's filter cascade (10_state.md rule R39). -/
structure FilterStageState where
  x1 : F64
  x2 : F64
  y1 : F64
  y2 : F64
  a0 : F64
  a1 : F64
  a2 : F64
  b1 : F64
  b2 : F64
  deriving DecidableEq, Repr

/-- One channel (10_state.md rule R36). -/
structure ChannelState where
  phase : F64
  phaseStep : F64
  env : F64
  atkCoef : F64
  relCoef : F64
  compEnv : F64
  compRelCoef : F64
  rng : BitVec 32
  S : Nat
  stages : List FilterStageState
  deriving DecidableEq, Repr

/-- What the mailbox can hold (10_state.md rule R44). -/
inductive Control where
  | updateConfig (config : ConfigRecord)
  | startSpectrum (fftSize : BitVec 32)
  | stopSpectrum
  deriving DecidableEq, Repr

/-- One message of the output history (10_state.md rule R45). -/
inductive Emission where
  | blockOut (channels : Nat) (samples : List F32)
  | spectrum (magnitudes : List F64)
  deriving DecidableEq, Repr

/-- One message at a port, as the bytes of 20_memory.md rule R85. -/
structure Transaction where
  port : Port
  bytes : List Byte
  deriving DecidableEq, Repr

/-- The ring buffer's storage (20_memory.md rule R82) as pairs of an entry's index and its value, in canonical form:
indexes strictly rising, no entry that holds `+0`.  An entry not listed reads as `+0`, which is what
43_engine.md rule R286 fills a new ring with. -/
abbrev Memory := List (Nat × F64)

/-- The engine (10_state.md rule R34), the output history (rule R45) and the transactions still to come. -/
structure State where
  /-- the configuration register (rule R31) -/
  cfg : ConfigRecord
  /-- the mailbox (rule R44) -/
  pending : Option Control
  /-- the number of held channels (rule R35) -/
  chanCount : Nat
  /-- the channels, `ch[0]` first (rule R36) -/
  ch : List ChannelState
  /-- the spectrum capture mode (rule R40) -/
  capture : Bool
  /-- the transform size, 0 when there is no analyzer (rule R41) -/
  N : Nat
  /-- the ring buffer (rule R41) -/
  ring : Memory
  /-- the ring write cursor (rule R41) -/
  cursor : Nat
  /-- the analyzer's bit-reversal table (rule R42) -/
  bitrev : List Nat
  /-- the analyzer's cosine table (rule R42) -/
  cosT : List F64
  /-- the analyzer's sine table (rule R42) -/
  sinT : List F64
  /-- the block counter (rule R43) -/
  frameCount : Nat
  /-- the messages emitted so far, oldest first (rule R45) -/
  output : List Emission
  /-- THE MODEL'S OWN FIELD: the transactions the core has still to see, the next one first (rule R270; 30_encoding.md
  rule R111).  The host's agent is the one that puts messages here. -/
  queue : List Transaction
  deriving DecidableEq, Repr

/-- Why the machine stops.  The spec has no trap and no fault (60_exceptions.md rule R320;
93_implementation_defined.md, "No behaviour of this spec is `stuck` or `fault`"), and no state that a run reaches
raises one of these. -/
inductive Fault where
  /-- Raised by `memWrite` for an index outside `0..N-1`, which 20_memory.md rule R82 says never occurs.  SAFE: the
  model stops where the spec gives no effect, and only in states that break the invariant on `cursor`. -/
  | ringIndex
  deriving DecidableEq, Repr

/-- Why a step has no meaning. -/
inductive Refusal where
  /-- Raised by a refused arm of `exec` for an instruction without a meaning; no arm of this model does.  SAFE: the
  model stops. -/
  | notModelled (mnemonic : String)
  deriving DecidableEq, Repr

/-- The state after reset (10_state.md rule R50; 70_reset_and_hazards.md rule R350). -/
def State.reset : State where
  cfg := Config.defaultConfig
  pending := none
  chanCount := 0
  ch := []
  capture := false
  N := 0
  ring := []
  cursor := 0
  bitrev := []
  cosT := []
  sinT := []
  frameCount := 0
  output := []
  queue := []

end Sys2Proof.Machine
end

