-- ==== Sys2Proof/Machine/Ops.lean ====
section
/-! DEFINITION. The named operations on the state: the updates every meaning is made of, the ring buffer's `MemRead` and
`MemWrite`, the mailbox write, `emit` and `discard` (00_scope.md rule R17).  There is no operation that takes an exception
and none that returns from one: the core raises none (60_exceptions.md rules R320, R324, R325); its only error
outcome is `discard`. -/

namespace Sys2Proof.Machine

/-! ### Field updates -/

/-- The mailbox replaced. -/
def State.withPending (s : State) (pending : Option Control) : State := { s with pending := pending }

/-- The configuration register replaced whole (10_state.md rule R31). -/
def State.withCfg (s : State) (cfg : ConfigRecord) : State := { s with cfg := cfg }

/-- The channel set replaced (10_state.md rule R35). -/
def State.withChannels (s : State) (chanCount : Nat) (ch : List ChannelState) : State :=
  { s with chanCount := chanCount, ch := ch }

/-- The capture mode and all the state that exists only with it replaced (60_exceptions.md rule R327). -/
def State.withAnalyzer (s : State) (capture : Bool) (N : Nat) (bitrev : List Nat) (cosT sinT : List F64) : State :=
  { s with capture := capture, N := N, ring := [], cursor := 0, bitrev := bitrev, cosT := cosT, sinT := sinT }

/-- The ring's contents and cursor replaced. -/
def State.withRing (s : State) (ring : Memory) (cursor : Nat) : State := { s with ring := ring, cursor := cursor }

/-- The block counter replaced. -/
def State.withFrameCount (s : State) (frameCount : Nat) : State := { s with frameCount := frameCount }

/-- The output history replaced. -/
def State.withOutput (s : State) (output : List Emission) : State := { s with output := output }

/-- The transactions still to come replaced. -/
def State.withQueue (s : State) (queue : List Transaction) : State := { s with queue := queue }

/-! ### The ring buffer -/

/-- The value of an entry. -/
def Memory.lookup : Memory → Nat → F64
  | [], _ => F64.posZero
  | (j, w) :: rest, i => if i = j then w else Memory.lookup rest i

/-- The canonical form of a memory all of whose indexes are at least `low`. -/
def Memory.wfFrom : Nat → Memory → Bool
  | _, [] => true
  | low, (j, w) :: rest => low ≤ j && w ≠ F64.posZero && Memory.wfFrom (j + 1) rest

/-- The canonical form. -/
def Memory.wf (m : Memory) : Bool := Memory.wfFrom 0 m

/-- Every listed index is below `n`. -/
def Memory.within (n : Nat) (m : Memory) : Bool := m.all (fun c => c.1 < n)

/-- One entry written, keeping the canonical form: writing `+0` removes the entry. -/
def Memory.store : Memory → Nat → F64 → Memory
  | [], i, v => if v = F64.posZero then [] else [(i, v)]
  | (j, w) :: rest, i, v =>
    if i < j then (if v = F64.posZero then (j, w) :: rest else (i, v) :: (j, w) :: rest)
    else if i = j then (if v = F64.posZero then rest else (i, v) :: rest)
    else (j, w) :: Memory.store rest i v

/-- `MemRead(i, 8)` (20_memory.md rule R82): none outside `0..N-1`. -/
def memRead (s : State) (i : Nat) : Option F64 := if i < s.N then some (s.ring.lookup i) else none

/-- `MemWrite(i, 8, v)` (20_memory.md rule R82): none outside `0..N-1`. -/
def memWrite (s : State) (i : Nat) (v : F64) : Option State :=
  if i < s.N then some (s.withRing (s.ring.store i v) s.cursor) else none

/-! ### Messages -/

/-- `receiveControl(d)` (43_engine.md rule R271): the newest message is the one the mailbox holds. -/
def receiveControl (d : Control) (s : State) : State := s.withPending (some d)

/-- `emit(port, msg)` (00_scope.md rule R17): the message joins the end of the output history.  The port is that of
the message's kind. -/
def emit (e : Emission) (s : State) : State := s.withOutput (s.output ++ [e])

/-- `discard(m)` (00_scope.md rule R17; 30_encoding.md rule R124): no state changes. -/
def discard (s : State) : State := s

/-- The emitted message as a term of the transaction set. -/
def Emission.toInstr : Emission → Instr
  | .blockOut channels samples => .blockOut channels samples
  | .spectrum magnitudes => .spectrum magnitudes

end Sys2Proof.Machine
end

