-- ==== Sys2Proof/Machine/FilterStage.lean ====
section
/-! DEFINITION. FilterStage and the biquad cascade (40_filter_stage.md). -/

namespace Sys2Proof.Machine

/-- The five coefficients of a stage. -/
structure Coefficients where
  a0 : F64
  a1 : F64
  a2 : F64
  b1 : F64
  b2 : F64
  deriving DecidableEq, Repr

/-- The normalised RBJ low-pass coefficients (40_filter_stage.md rule R151). -/
def lowPassCoefficients (fs fc q : F64) : Coefficients :=
  let w := (F64.twoPi.mul fc).div fs
  let cw := fnCos w
  let sw := fnSin w
  let al := sw.div (F64.two.mul q)
  let b0r := (F64.one.sub cw).div F64.two
  let b1r := F64.one.sub cw
  let b2r := (F64.one.sub cw).div F64.two
  let a0r := F64.one.add al
  let a1r := F64.negTwo.mul cw
  let a2r := F64.one.sub al
  { a0 := b0r.div a0r, a1 := b1r.div a0r, a2 := b2r.div a0r, b1 := a1r.div a0r, b2 := a2r.div a0r }

/-- `updateCoefficients(fs, fc, q)` of one stage (rule R151); the history stays (rule R153). -/
def updateCoefficients (fs fc q : F64) (st : FilterStageState) : FilterStageState :=
  let k := lowPassCoefficients fs fc q
  { st with a0 := k.a0, a1 := k.a1, a2 := k.a2, b1 := k.b1, b2 := k.b2 }

/-- A new stage: zero history (10_state.md rule R52).  Its coefficients are written by `updateCoefficients` before
anything reads them (41_channel_pipeline.md rule R201). -/
def newStage : FilterStageState :=
  ⟨F64.posZero, F64.posZero, F64.posZero, F64.posZero, F64.posZero, F64.posZero, F64.posZero, F64.posZero, F64.posZero⟩

/-- The direct-form-I sum, evaluated left to right (rule R155). -/
def directForm (st : FilterStageState) (x : F64) : F64 :=
  ((((st.a0.mul x).add (st.a1.mul st.x1)).add (st.a2.mul st.x2)).sub (st.b1.mul st.y1)).sub (st.b2.mul st.y2)

/-- None of the four history values is an infinity or a NaN. -/
def FilterStageState.finiteHistory (st : FilterStageState) : Bool :=
  st.x1.isFinite && st.x2.isFinite && st.y1.isFinite && st.y2.isFinite

/-- The output of a stage: rule R155's sum, and a NaN once the history holds an infinity or a NaN (R155's corner cases, rule
R157, "from then on the stage outputs NaN").  DESIGN CHOICE: the sum of an infinite history can also be an infinity, and
R157 is followed there (log entry 21). -/
def stageOutput (st : FilterStageState) (x : F64) : F64 :=
  let y := directForm st x
  if st.finiteHistory || y.isNaN then y else F64.nanOf .stage x y

/-- The history after an output `y` for an input `x` (rule R156). -/
def shiftHistory (st : FilterStageState) (x y : F64) : FilterStageState :=
  { st with x2 := st.x1, x1 := x, y2 := st.y1, y1 := y }

/-- `process(x)` (rules R155, R156): the stage after, and the output. -/
def processStage (st : FilterStageState) (x : F64) : FilterStageState × F64 :=
  let y := stageOutput st x
  (shiftHistory st x y, y)

/-- `cascade(v)` (rule R158): every stage in ascending order, each fed the output of the one before. -/
def cascade : List FilterStageState → F64 → List FilterStageState × F64
  | [], v => ([], v)
  | st :: rest, v =>
    let first := processStage st v
    let others := cascade rest first.2
    (first.1 :: others.1, others.2)

end Sys2Proof.Machine
end

