-- ==== Sys2Proof/Machine/Channel.lean ====
section
/-! DEFINITION. ChannelProcessor (41_channel_pipeline.md): the eight steps of processSample, the coefficients derived
from the Config, and the update and creation of a channel. -/

namespace Sys2Proof.Machine

/-! ### Step 1: oscillator and modulator -/

/-- `clampFreq(fr)` (rule R181). -/
def clampFreq (fr : F64) : F64 := if F64.gt fr Config.freqEps then fr else Config.freqEps

/-- The phase increment (rule R182). -/
def phaseStepOf (fs freqRatio : F64) : F64 := (F64.twoPi.mul (fs.mul (clampFreq freqRatio))).div fs

/-- The carrier (rule R183). -/
def carrierOf (phase : F64) : F64 := fnCos phase

/-- The modulated signal (rule R184). -/
def modulate (modulationIndex a carrier : F64) : F64 := (F64.one.add (modulationIndex.mul a)).mul carrier

/-- The phase advance and wrap (rule R185). -/
def advancePhase (phase phaseStep : F64) : F64 :=
  let p := phase.add phaseStep
  let p := if F64.ge p F64.twoPi then p.sub F64.twoPi else p
  if F64.ge p F64.twoPi then F64.fmod p F64.twoPi else p

/-! ### Step 2: noise -/

/-- The xorshift32 step (rule R187). -/
def xorshift32 (x : BitVec 32) : BitVec 32 :=
  let x := x ^^^ (x <<< 13)
  let x := x ^^^ (x >>> 17)
  x ^^^ (x <<< 5)

/-- The generator's value normalised to [-1, 1] (rule R188). -/
def noiseValue (x : BitVec 32) : F64 :=
  (((F64.ofNat x.toNat).div (F64.ofNat 4294967295)).mul F64.two).sub F64.one

/-- The noise injection (rule R188). -/
def injectNoise (enabled : Bool) (level signal n : F64) : F64 :=
  if enabled then signal.add (n.mul level) else signal

/-! ### Step 3: diode rectifier -/

/-- The half-wave rectifier (rule R189). -/
def halfWaveOf (signal : F64) : F64 := F64.max0 signal

/-- The diode curve (rule R190). -/
def diodeOf (drop vt gain signal : F64) : F64 :=
  let t := signal.sub drop
  if F64.gt t F64.posZero then ((fnExp (t.div vt)).sub F64.one).mul gain else F64.posZero

/-- The blend of the two rectifiers (rule R190). -/
def blendRectified (blend halfWave diode : F64) : F64 :=
  (halfWave.mul (F64.one.sub blend)).add (diode.mul blend)

/-! ### Steps 4 and 5: envelope follower and demodulator -/

/-- The one-pole form `c * old + (1 - c) * target` (rules R192, R195). -/
def onePole (c old target : F64) : F64 := (c.mul old).add ((F64.one.sub c).mul target)

/-- The envelope update (rules R191, R192): attack above the envelope, release otherwise. -/
def followEnvelope (atkCoef relCoef env rectified : F64) : F64 :=
  onePole (if F64.gt rectified env then atkCoef else relCoef) env rectified

/-- The demodulator (rule R194). -/
def demodulate (modulationIndex env : F64) : F64 := (env.sub F64.one).div modulationIndex

/-! ### Step 6: compressor -/

/-- The level tracker (rule R195). -/
def trackLevel (compRelCoef compEnv dem : F64) : F64 :=
  let lvl := dem.abs
  if F64.gt lvl compEnv then lvl else onePole compRelCoef compEnv lvl

/-- The gain above the threshold (rule R196).  DEDUCED: where the rule's corner cases say otherwise than its pseudocode (an
infinite level, a threshold of 0, levels in dB that are equal or out of order), this is the pseudocode (log entry 24). -/
def reducedGain (threshold ratio compEnv : F64) : F64 :=
  let levelDb := F64.twenty.mul (fnLog10 compEnv)
  let threshDb := F64.twenty.mul (fnLog10 threshold)
  let grDb := (levelDb.sub threshDb).mul (F64.one.sub (F64.one.div ratio))
  fnPow10 (grDb.neg.div F64.twenty)

/-- The compressor gain (rule R196). -/
def compressorGain (threshold ratio compEnv : F64) : F64 :=
  if F64.gt compEnv threshold then reducedGain threshold ratio compEnv else F64.one

/-- The gain applied, with the makeup gain (rule R197). -/
def applyGain (makeupGain dem gain : F64) : F64 := (dem.mul gain).mul makeupGain

/-! ### Step 8: output clamp -/

/-- The output clamp (rule R199): NaN is tested first. -/
def clampOutput (y : F64) : F64 :=
  if y.isNaN then nanOut
  else if F64.gt y F64.one then F64.one
  else if F64.lt y F64.negOne then F64.negOne
  else y

/-! ### processSample -/

/-- What one sample yields: the channel after it, the output and the pre-detector signal (rule R180). -/
structure SampleResult where
  channel : ChannelState
  output : F64
  modulated : F64
  deriving DecidableEq, Repr

/-- `processSample(ch, a)`, steps 1 to 8 in order (rule R205). -/
def processSample (cfg : ConfigRecord) (ch : ChannelState) (a : F64) : SampleResult :=
  let carrier := carrierOf ch.phase
  let signal := modulate cfg.modulationIndex a carrier
  let phase := advancePhase ch.phase ch.phaseStep
  let rng := xorshift32 ch.rng
  let modulated := injectNoise cfg.noiseEnabled cfg.noiseLevel signal (noiseValue rng)
  let halfWave := halfWaveOf modulated
  let diode := diodeOf cfg.drop cfg.vt cfg.diodeGain modulated
  let rectified := blendRectified cfg.blend halfWave diode
  let env := followEnvelope ch.atkCoef ch.relCoef ch.env rectified
  let dem := demodulate cfg.modulationIndex env
  let compEnv := trackLevel ch.compRelCoef ch.compEnv dem
  let gain := compressorGain cfg.threshold cfg.ratio compEnv
  let comp := applyGain cfg.makeupGain dem gain
  let filtered := cascade ch.stages comp
  { channel := { ch with phase := phase, rng := rng, env := env, compEnv := compEnv, stages := filtered.1 }
    output := clampOutput filtered.2
    modulated := modulated }

/-! ### Coefficients, update and creation -/

/-- An envelope coefficient from a time in carrier periods (rule R200).  DEDUCED: the formula, where R200's corner cases and
10_state.md rule R31 say otherwise of an infinite or a negative time (log entries 14 and 27). -/
def envelopeCoefficient (fs freqRatio time : F64) : F64 :=
  let cf := fs.mul (clampFreq freqRatio)
  let cp := F64.one.div cf
  fnExp (F64.negOne.div ((fs.mul cp).mul time))

/-- The compressor's release coefficient from a time in seconds (rule R200).  DEDUCED: the formula, where R200's corner cases
and 10_state.md rule R31 say otherwise of a negative time (log entry 27). -/
def compressorCoefficient (fs time : F64) : F64 := fnExp (F64.negOne.div (fs.mul time))

/-- `stageCount(v)` (rule R202), on the exact value: nearest integer, ties upward. -/
def stageCount (v : F64) : Nat :=
  if !F64.ge v F64.one then 1
  else if F64.ge v (F64.ofNat Config.maxStages) then Config.maxStages
  else
    let whole := v.unitsAbs / unitsPerOne
    let part := v.unitsAbs % unitsPerOne
    min (if 2 * part < unitsPerOne then whole else whole + 1) Config.maxStages

/-- `resizeStages(ch, S')` (rule R203). -/
def resizeStages (ch : ChannelState) (count : Nat) : ChannelState :=
  { ch with
    S := count
    stages := if ch.S < count then ch.stages ++ List.replicate (count - ch.S) newStage
      else if count < ch.S then ch.stages.take count else ch.stages }

/-- `updateConfig(cfg)` of one channel (rule R201). -/
def updateChannel (fs : F64) (cfg : ConfigRecord) (ch : ChannelState) : ChannelState :=
  let ch := { ch with
    phaseStep := phaseStepOf fs cfg.freqRatio
    atkCoef := envelopeCoefficient fs cfg.freqRatio cfg.attackTime
    relCoef := envelopeCoefficient fs cfg.freqRatio cfg.releaseTime
    compRelCoef := compressorCoefficient fs cfg.compReleaseTime }
  let ch := resizeStages ch (stageCount cfg.stages)
  { ch with stages := ch.stages.map (updateCoefficients fs cfg.cutoff cfg.q) }

/-- The channel a fresh one is made from: `+0` phase and envelopes, the seed, no stages (10_state.md rule R51).  Its
derived fields are written by `updateChannel` before anything reads them. -/
def blankChannel : ChannelState where
  phase := F64.posZero
  phaseStep := F64.posZero
  env := F64.posZero
  atkCoef := F64.posZero
  relCoef := F64.posZero
  compEnv := F64.posZero
  compRelCoef := F64.posZero
  rng := Config.noiseSeed
  S := 0
  stages := []

/-- `freshChannel(cfg)` (10_state.md rule R51; 41_channel_pipeline.md rule R201). -/
def freshChannel (fs : F64) (cfg : ConfigRecord) : ChannelState := updateChannel fs cfg blankChannel

/-! ### One channel's block -/

/-- What one block of one channel yields. -/
structure ChannelRun where
  channel : ChannelState
  outputs : List F32
  modulated : List F64
  deriving DecidableEq, Repr

/-- The samples of one channel in ascending order (43_engine.md rule R277): each is widened, processed, and its output
narrowed (00_scope.md rule R14). -/
def runChannel (cfg : ConfigRecord) : ChannelState → List F32 → ChannelRun
  | ch, [] => ⟨ch, [], []⟩
  | ch, x :: xs =>
    let r := processSample cfg ch x.widen
    let rest := runChannel cfg r.channel xs
    ⟨rest.channel, r.output.narrow :: rest.outputs, r.modulated :: rest.modulated⟩

end Sys2Proof.Machine
end

