-- ==== Sys2Proof/Machine/Spectrum.lean ====
section
/-! DEFINITION. SpectrumAnalyzer (42_spectrum.md): the tables, the Hann window, the radix-2 transform and the
magnitudes. -/

namespace Sys2Proof.Machine

/-! ### Tables -/

/-- The reversal of the `bits` low bits of `i` (rule R241). -/
def bitReverse : Nat → Nat → Nat
  | 0, _ => 0
  | bits + 1, i => (i % 2) * 2 ^ bits + bitReverse bits (i / 2)

/-- The bit-reversal table (rule R241). -/
def bitrevTable (n : Nat) : List Nat := (List.range n).map (bitReverse (Nat.log2 n))

/-- The angle `2πk/N` of the tables (rule R242). -/
def tableAngle (n k : Nat) : F64 := (F64.twoPi.mul (F64.ofNat k)).div (F64.ofNat n)

/-- The cosine table (rule R242). -/
def cosTable (n : Nat) : List F64 := (List.range (n / 2)).map (fun k => fnCos (tableAngle n k))

/-- The sine table (rule R242). -/
def sinTable (n : Nat) : List F64 := (List.range (n / 2)).map (fun k => fnSin (tableAngle n k))

/-! ### analyze -/

/-- The Hann window (rule R243); its last entry is 0 for every size from 2 up (`belowTwoPi`). -/
def hann (n i : Nat) : F64 :=
  F64.half.mul (F64.one.sub (fnCos ((F64.twoPi.mul (F64.ofNat i)).div (F64.ofNat (n - 1)))))

/-- The two working arrays (rule R240). -/
structure Working where
  re : List F64
  im : List F64
  deriving DecidableEq, Repr

/-- An array entry. -/
def entry (a : List F64) (i : Nat) : F64 := a.getD i F64.posZero

/-- The windowed sequence (rule R244). -/
def windowed (n : Nat) (buf : List F64) : Working where
  re := (List.range n).map (fun i => (entry buf i).mul (hann n i))
  im := List.replicate n F64.posZero

/-- The bit-reversal permutation (rule R245). -/
def permute (bitrev : List Nat) (w : Working) : Working where
  re := bitrev.map (entry w.re)
  im := bitrev.map (entry w.im)

/-- One butterfly, on entries `j` and `l` with the twiddle of table entry `k` (rule R246). -/
def butterfly (cosT sinT : List F64) (j l k : Nat) (w : Working) : Working :=
  let tre := ((entry w.re l).mul (entry cosT k)).add ((entry w.im l).mul (entry sinT k))
  let tim := ((entry w.re l).neg.mul (entry sinT k)).add ((entry w.im l).mul (entry cosT k))
  { re := (w.re.set l ((entry w.re j).sub tre)).set j ((entry w.re j).add tre)
    im := (w.im.set l ((entry w.im j).sub tim)).set j ((entry w.im j).add tim) }

/-- One group of butterflies, from entry `start` (the loop over `j` of rule R246). -/
def butterflyGroup (cosT sinT : List F64) (half step start : Nat) (w : Working) : Working :=
  (List.range half).foldl (fun w d => butterfly cosT sinT (start + d) (start + d + half) (d * step) w) w

/-- One pass, of groups of `size` entries (the loop over `i` of rule R246). -/
def butterflyPass (n : Nat) (cosT sinT : List F64) (size : Nat) (w : Working) : Working :=
  (List.range (n / size)).foldl
    (fun w g => butterflyGroup cosT sinT (size / 2) (n / size) (g * size) w) w

/-- The `log2(N)` passes, of sizes 2, 4, …, N (rule R246). -/
def butterflyPasses (n : Nat) (cosT sinT : List F64) (w : Working) : Working :=
  (List.range (Nat.log2 n)).foldl (fun w p => butterflyPass n cosT sinT (2 ^ (p + 1)) w) w

/-- The magnitude of one entry (rule R247). -/
def magnitudeOf (n : Nat) (w : Working) (i : Nat) : F64 :=
  (F64.sqrt (((entry w.re i).mul (entry w.re i)).add ((entry w.im i).mul (entry w.im i)))).div (F64.ofNat n)

/-- The magnitudes (rule R247). -/
def magnitudes (n : Nat) (w : Working) : List F64 := (List.range (n / 2)).map (magnitudeOf n w)

/-- Rules R243 to R247 in that order.  By them finite entries that overflow in a butterfly can give NaN, where
43_engine.md rule R289 speaks of magnitudes `>= 0` (DEDUCED, log entry 23). -/
def transform (n : Nat) (bitrev : List Nat) (cosT sinT : List F64) (buf : List F64) : List F64 :=
  magnitudes n (butterflyPasses n cosT sinT (permute bitrev (windowed n buf)))

/-- `analyze(buf)` with the tables of its transform size (rule R240).  For `N = 2` it is rule R248's magnitude 0, "for every
buffer"; the transform differs from it only for a buffer that is not finite (DESIGN CHOICE, log entry 13). -/
def analyze (n : Nat) (bitrev : List Nat) (cosT sinT : List F64) (buf : List F64) : List F64 :=
  if n = 2 then [F64.posZero] else transform n bitrev cosT sinT buf

/-- The ring in raw index order (43_engine.md rule R280). -/
def ringContents (s : State) : List F64 := (List.range s.N).map (fun i => s.ring.lookup i)

/-- The analysis of the current ring (43_engine.md rules R279, R280). -/
def analyzeRing (s : State) : List F64 := analyze s.N s.bitrev s.cosT s.sinT (ringContents s)

end Sys2Proof.Machine
end

