-- ==== Sys2Proof/Machine/Engine.lean ====
section
/-! DEFINITION. The parts of ProcessingEngine's block procedure (43_engine.md): applying the pending message, the
channel-count check, the channels' samples, the ring capture and the frame counter. -/

namespace Sys2Proof.Machine

/-! ### Applying the pending message -/

/-- `applyConfig(c)` (rule R283). -/
def applyConfig (c : ConfigRecord) (s : State) : State :=
  (s.withCfg c).withChannels s.chanCount (s.ch.map (updateChannel sampleRate c))

/-- `validFft(n)` (rule R285), `n` read as an i32. -/
def validFft (n : BitVec 32) : Bool :=
  decide (1 ≤ n.toInt) && decide (n.toInt ≤ Config.maxFftSize) && n &&& (n - 1) == 0

/-- `applyStart(n)` (rules R286, R287). -/
def applyStart (n : BitVec 32) (s : State) : State :=
  if validFft n then
    s.withAnalyzer true n.toNat (bitrevTable n.toNat) (cosTable n.toNat) (sinTable n.toNat)
  else s

/-- `applyStop()` (rule R288). -/
def applyStop (s : State) : State := s.withAnalyzer false 0 [] [] []

/-- The effect of one control message at a block start (rule R274). -/
def applyControl (d : Control) (s : State) : State :=
  match d with
  | .updateConfig c => applyConfig c s
  | .startSpectrum n => applyStart n s
  | .stopSpectrum => applyStop s

/-- `applyPending()` (rule R274): the mailbox is emptied, then its message takes effect. -/
def applyPending (s : State) : State :=
  match s.pending with
  | none => s
  | some d => applyControl d (s.withPending none)

/-! ### The block -/

/-- The channel-count check (rule R276). -/
def checkChannels (channels : Nat) (s : State) : State :=
  if channels = s.chanCount then s
  else s.withChannels channels (List.replicate channels (freshChannel sampleRate s.cfg))

/-- Every channel in ascending order, channel `c` on the samples `c * BLOCK_LEN` onward (rule R277; 30_encoding.md rule
R120).  The channels share no state, so each runs its whole block at once. -/
def runChannels (cfg : ConfigRecord) : List ChannelState → List F32 → List ChannelRun
  | [], _ => []
  | ch :: rest, samples =>
    runChannel cfg ch (samples.take Config.blockLen) :: runChannels cfg rest (samples.drop Config.blockLen)

/-- `ringWrite(v)` (rule R278). -/
def ringWrite (v : F64) (s : State) : Option State :=
  (memWrite s s.cursor v).map (fun t => t.withRing t.ring ((t.cursor + 1) % t.N))

/-- Several samples captured, in order. -/
def ringWrites : List F64 → State → Option State
  | [], s => some s
  | v :: rest, s => (ringWrite v s).bind (ringWrites rest)

/-- The ring capture of a block (rules R277, R278): channel 0's pre-detector signal, while `capture` is on. -/
def captureBlock (runs : List ChannelRun) (s : State) : Option State :=
  match runs with
  | [] => some s
  | first :: _ => if s.capture then ringWrites first.modulated s else some s

/-- The spectrum emission that falls due (rules R279, R289). -/
def emitSpectrum (s : State) : State := emit (.spectrum (analyzeRing s)) s

/-- The frame counter and the emission it paces (rule R279). -/
def advanceFrame (s : State) : State :=
  if s.frameCount + 1 = Config.spectrumInterval then
    (if s.capture then emitSpectrum s else s).withFrameCount 0
  else s.withFrameCount (s.frameCount + 1)

/-- The state in which a block's samples are processed: the pending message applied, then the channel count checked
(rules R274, R276). -/
def beginBlock (channels : Nat) (s : State) : State := checkChannels channels (applyPending s)

/-- A block after its begin (rules R277 to R282): the samples, the capture, the blockOut, the frame counter. -/
def finishBlock (channels : Nat) (samples : List F32) (s : State) : Option State :=
  let runs := runChannels s.cfg s.ch samples
  let processed := s.withChannels s.chanCount (runs.map ChannelRun.channel)
  (captureBlock runs processed).map
    (fun t => advanceFrame (emit (.blockOut channels (runs.flatMap ChannelRun.outputs)) t))

end Sys2Proof.Machine
end

