-- ==== Sys2Proof/Machine/Audio.lean ====
section
/-! DEFINITION. The audio messages: processBlock, the one that runs the core, and blockOut, its answer (43_engine.md
rules R281, R282). -/

namespace Sys2Proof.Machine

/-- processBlock (rule R282).  The fault arises only where the ring cursor is outside the ring, which no run
reaches (20_memory.md rule R82). -/
def execProcessBlock (channels : Nat) (samples : List F32) (s : State) : Host.Outcome State Fault Refusal :=
  match finishBlock channels samples (beginBlock channels s) with
  | some t => .next t
  | none => .fault .ringIndex

/-- blockOut (rule R281): it is emitted on AUDIO_OUT. -/
def execBlockOut (channels : Nat) (samples : List F32) (s : State) : Host.Outcome State Fault Refusal :=
  .next (emit (.blockOut channels samples) s)

end Sys2Proof.Machine
end

