-- ==== Sys2Proof/Machine/Control.lean ====
section
/-! DEFINITION. The three CTRL_IN messages (43_engine.md rules R271, R273): each goes into the mailbox when it arrives
and takes its effect at the start of the next processBlock (Machine/Engine.lean, `applyControl`). -/

namespace Sys2Proof.Machine

/-- updateConfig on arrival (rules R271, R273); its effect is `applyConfig` (rule R283). -/
def execUpdateConfig (config : ConfigRecord) (s : State) : Host.Outcome State Fault Refusal :=
  .next (receiveControl (.updateConfig config) s)

/-- startSpectrum on arrival, of any size (rules R271, R273); its effect is `applyStart` (rules R285 to R287). -/
def execStartSpectrum (fftSize : BitVec 32) (s : State) : Host.Outcome State Fault Refusal :=
  .next (receiveControl (.startSpectrum fftSize) s)

/-- stopSpectrum on arrival (rules R271, R273); its effect is `applyStop` (rule R288). -/
def execStopSpectrum (s : State) : Host.Outcome State Fault Refusal := .next (receiveControl .stopSpectrum s)

end Sys2Proof.Machine
end

