-- ==== Sys2Proof/Machine/Event.lean ====
section
/-! DEFINITION. The event message: spectrum (43_engine.md rule R289). -/

namespace Sys2Proof.Machine

/-- spectrum (rule R289): it is emitted on EVENT_OUT, with no acknowledgment. -/
def execSpectrum (magnitudes : List F64) (s : State) : Host.Outcome State Fault Refusal :=
  .next (emit (.spectrum magnitudes) s)

end Sys2Proof.Machine
end

