-- ==== Sys2Proof/Machine/Dispatch.lean ====
section
/-! DEFINITION. One arm per message kind of the opcode table. -/

namespace Sys2Proof.Machine

def exec (i : Instr) (s : State) : Host.Outcome State Fault Refusal :=
  match i with
  | .updateConfig config => Sys2Proof.Machine.execUpdateConfig config s
  | .startSpectrum fftSize => Sys2Proof.Machine.execStartSpectrum fftSize s
  | .stopSpectrum => Sys2Proof.Machine.execStopSpectrum s
  | .processBlock channels samples => Sys2Proof.Machine.execProcessBlock channels samples s
  | .blockOut channels samples => Sys2Proof.Machine.execBlockOut channels samples s
  | .spectrum magnitudes => Sys2Proof.Machine.execSpectrum magnitudes s

end Sys2Proof.Machine
end

