-- ==== Sys2Proof/Machine/Operands.lean ====
section
/-! DEFINITION. The operand forms of 30_encoding.md rule R127 and the byte order of 20_memory.md rule R85: how bytes make
words, words make 64-bit slots, and which words of a block belong to which channel. -/

namespace Sys2Proof

/-- The four bytes of a word, least significant first (20_memory.md rule R85). -/
def bytesOfWord (w : Word) : List Byte :=
  [w.extractLsb' 0 8, w.extractLsb' 8 8, w.extractLsb' 16 8, w.extractLsb' 24 8]

/-- The words of a byte string, or none if its length is not a multiple of 4 (30_encoding.md rule R114). -/
def wordsOfBytes : List Byte → Option (List Word)
  | [] => some []
  | b0 :: b1 :: b2 :: b3 :: rest => (wordsOfBytes rest).map (fun ws => (b3 ++ b2 ++ b1 ++ b0) :: ws)
  | _ => none

/-- The two words of a 64-bit slot, low half first (30_encoding.md rules R116, R122). -/
def wordsOfSlot (x : Word64) : List Word := [x.extractLsb' 0 32, x.extractLsb' 32 32]

/-- The 64-bit slots of a payload, two words each, or none for an odd number of words (rule R127, `F64` and u64). -/
def slotsOfWords : List Word → Option (List Word64)
  | [] => some []
  | lo :: hi :: rest => (slotsOfWords rest).map (fun xs => (hi ++ lo) :: xs)
  | _ => none

/-- The low half of a word as u16: the channel count `C` in word 1 of a block (rules R120, R127). -/
def lowHalf (w : Word) : Nat := (w.extractLsb' 0 16).toNat

/-- The high half of a word as u16: `LEN` in a header (rule R112), the reserved half of word 1 of a block (rule R120). -/
def highHalf (w : Word) : Nat := (w.extractLsb' 16 16).toNat

/-- The 17 slots of a Config in slot order (rule R116); slot 15 is the u64 Boolean of rule R117. -/
def ConfigRecord.slots (c : ConfigRecord) : List Word64 :=
  [c.freqRatio.bits, c.modulationIndex.bits, c.cutoff.bits, c.q.bits, c.stages.bits, c.attackTime.bits,
   c.releaseTime.bits, c.threshold.bits, c.ratio.bits, c.compReleaseTime.bits, c.makeupGain.bits, c.drop.bits,
   c.vt.bits, c.diodeGain.bits, c.blend.bits, if c.noiseEnabled then 1 else 0, c.noiseLevel.bits]

end Sys2Proof
end

