-- ==== Sys2Proof/WellFormed.lean ====
section
/-! DEFINITION. Which terms of `Instr` are messages of this hardware: the checks of 30_encoding.md rules R113, R120 to
R123 that are not already in the types. -/

namespace Sys2Proof

/-- A number of magnitudes a spectrum message can carry: `N / 2` for some `N` that is a power of two and at most
`MAX_FFT_SIZE` (30_encoding.md rule R122; 43_engine.md rule R285). -/
def isMagnitudeCount (n : Nat) : Bool := 2 * n ≤ Config.maxFftSize && n &&& (n - 1) == 0

/-- A block's operands: at most `MAX_CHANNELS` channels of `BLOCK_LEN` samples each (30_encoding.md rules R113, R120,
R123 item 5). -/
def isBlock (channels : Nat) (samples : List F32) : Bool :=
  channels ≤ Config.maxChannels && samples.length == channels * Config.blockLen

/-- Well-formed messages.  Every bit pattern of a Config and every `fftSize` is well-formed (30_encoding.md rules
R116, R118). -/
def Instr.wf : Instr → Bool
  | .updateConfig _ => true
  | .startSpectrum _ => true
  | .stopSpectrum => true
  | .processBlock channels samples => isBlock channels samples
  | .blockOut channels samples => isBlock channels samples
  | .spectrum magnitudes => isMagnitudeCount magnitudes.length

end Sys2Proof
end

