-- ==== Sys2Proof/Decode.lean ====
section
/-! DEFINITION. The message decoder of 30_encoding.md rule R123, total on every byte string at every port, and the encoder
of rules R112 to R122. -/

namespace Sys2Proof

/-- Why a message is `invalid` (30_encoding.md rule R123).  The core reports none of this (60_exceptions.md rule R325). -/
inductive Malformed where
  /-- item 1: the byte length is not a multiple of 4 -/
  | byteLength
  /-- item 1: there is no header word -/
  | empty
  /-- item 2: `OPC` is none of the six kinds (rule R125) -/
  | reservedOpcode
  /-- item 2: the kind belongs to another port; an output kind on an input port is one case of it -/
  | wrongPort
  /-- item 3: `RSV` is not 0 -/
  | reservedField
  /-- item 4: there are not exactly `LEN` payload words (rule R114) -/
  | wordCount
  /-- item 4: `LEN` is not the value rule R113 requires of the kind -/
  | wrongLen
  /-- item 5: word 1 bits 31:16 of a block are not 0 -/
  | channelWord
  /-- item 5: `C` is above `MAX_CHANNELS` -/
  | channelCount
  /-- item 6: the u64 of slot 15 is neither 0 nor 1 -/
  | noiseFlag
  deriving DecidableEq, Repr

/-- The decoder's answer. -/
inductive Decoded where
  | instr (i : Instr)
  | invalid (why : Malformed)
  deriving DecidableEq, Repr

/-- `OPC` of each kind (30_encoding.md rule R110). -/
def Kind.opcode : Kind → Byte
  | .updateConfig => 0x01
  | .startSpectrum => 0x02
  | .stopSpectrum => 0x03
  | .processBlock => 0x10
  | .blockOut => 0x11
  | .spectrum => 0x20

/-- The kind of an `OPC`; every other value is reserved (30_encoding.md rule R125). -/
def kindOfOpcode (opc : Byte) : Option Kind :=
  if opc = 0x01 then some .updateConfig
  else if opc = 0x02 then some .startSpectrum
  else if opc = 0x03 then some .stopSpectrum
  else if opc = 0x10 then some .processBlock
  else if opc = 0x11 then some .blockOut
  else if opc = 0x20 then some .spectrum
  else none

/-- `OPC`, bits 7:0 of the header (rule R112). -/
def headerOpcode (header : Word) : Byte := header.extractLsb' 0 8

/-- `RSV`, bits 15:8 of the header (rule R112). -/
def headerReserved (header : Word) : Byte := header.extractLsb' 8 8

/-- `LEN`, bits 31:16 of the header (rule R112). -/
def headerLen (header : Word) : Nat := highHalf header

/-- The 17 slots of an updateConfig (rules R116, R117). -/
def decodeConfig (payload : List Word) : Decoded :=
  match slotsOfWords payload with
  | some [x0, x1, x2, x3, x4, x5, x6, x7, x8, x9, x10, x11, x12, x13, x14, x15, x16] =>
    if x15 = 0 ∨ x15 = 1 then
      .instr (.updateConfig ⟨⟨x0⟩, ⟨x1⟩, ⟨x2⟩, ⟨x3⟩, ⟨x4⟩, ⟨x5⟩, ⟨x6⟩, ⟨x7⟩, ⟨x8⟩, ⟨x9⟩, ⟨x10⟩, ⟨x11⟩, ⟨x12⟩,
        ⟨x13⟩, ⟨x14⟩, x15 == 1, ⟨x16⟩⟩)
    else .invalid .noiseFlag
  | _ => .invalid .wrongLen

/-- The payload of a block, input or output (rules R120, R121): word 1, then the samples. -/
def decodeBlock (build : Nat → List F32 → Instr) (payload : List Word) : Decoded :=
  match payload with
  | [] => .invalid .wrongLen
  | word1 :: samples =>
    if highHalf word1 ≠ 0 then .invalid .channelWord
    else if Config.maxChannels < lowHalf word1 then .invalid .channelCount
    else if samples.length ≠ lowHalf word1 * Config.blockLen then .invalid .wrongLen
    else .instr (build (lowHalf word1) (samples.map F32.mk))

/-- The magnitudes of a spectrum message (rule R122). -/
def decodeMagnitudes (payload : List Word) : Decoded :=
  match slotsOfWords payload with
  | some xs => if isMagnitudeCount xs.length then .instr (.spectrum (xs.map F64.mk)) else .invalid .wrongLen
  | none => .invalid .wrongLen

/-- The payload of a message of a known kind whose word count agrees with its header. -/
def decodePayload (kind : Kind) (payload : List Word) : Decoded :=
  match kind with
  | .updateConfig => decodeConfig payload
  | .startSpectrum => match payload with
    | [w] => .instr (.startSpectrum w)
    | _ => .invalid .wrongLen
  | .stopSpectrum => match payload with
    | [] => .instr .stopSpectrum
    | _ => .invalid .wrongLen
  | .processBlock => decodeBlock .processBlock payload
  | .blockOut => decodeBlock .blockOut payload
  | .spectrum => decodeMagnitudes payload

/-- The decoder on words (rule R123).  On the two input ports it accepts exactly what the rule lists, since no
output kind belongs to one of them; on the two output ports it reads what the core itself emits there. -/
def decodeWords (port : Port) (words : List Word) : Decoded :=
  match words with
  | [] => .invalid .empty
  | header :: payload =>
    match kindOfOpcode (headerOpcode header) with
    | none => .invalid .reservedOpcode
    | some kind =>
      if kind.port ≠ port then .invalid .wrongPort
      else if headerReserved header ≠ 0 then .invalid .reservedField
      else if payload.length ≠ headerLen header then .invalid .wordCount
      else decodePayload kind payload

/-- The decoder on the bytes of a port (rule R123; 20_memory.md rules R85, R87). -/
def decode (port : Port) (bytes : List Byte) : Decoded :=
  match wordsOfBytes bytes with
  | none => .invalid .byteLength
  | some words => decodeWords port words

/-- The payload words of a message (rules R116 to R122). -/
def payloadWords : Instr → List Word
  | .updateConfig c => c.slots.flatMap wordsOfSlot
  | .startSpectrum n => [n]
  | .stopSpectrum => []
  | .processBlock channels samples => BitVec.ofNat 32 channels :: samples.map F32.bits
  | .blockOut channels samples => BitVec.ofNat 32 channels :: samples.map F32.bits
  | .spectrum magnitudes => magnitudes.flatMap (fun m => wordsOfSlot m.bits)

/-- The header word: `LEN` in bits 31:16, `RSV = 0`, `OPC` in bits 7:0 (rule R112). -/
def headerWord (kind : Kind) (len : Nat) : Word := BitVec.ofNat 16 len ++ (0x00 : Byte) ++ kind.opcode

/-- The words of a message (rules R112 to R122). -/
def encodeWords (i : Instr) : List Word := headerWord i.kind (payloadWords i).length :: payloadWords i

/-- The bytes of a message (20_memory.md rule R85). -/
def encode (i : Instr) : List Byte := (encodeWords i).flatMap bytesOfWord

/-! ### One table word as a message -/

/-- The port of a header's kind; a reserved opcode belongs to none, and CTRL_IN stands in. -/
def portOfHeader (header : Word) : Port :=
  match kindOfOpcode (headerOpcode header) with
  | some kind => kind.port
  | none => .ctrlIn

/-- The header among the `nbits` low bits of `w`. -/
def tableHeader (nbits w : Nat) : Word := BitVec.ofNat 32 (w % 2 ^ nbits)

/-- `count` words, the first from the 32 low bits of `w`, each next one from the 32 bits above. -/
def tableWords : Nat → Nat → List Word
  | 0, _ => []
  | count + 1, w => BitVec.ofNat 32 w :: tableWords count (w / 2 ^ 32)

/-- The message whose bits are the `nbits` low bits of `w` and zeros above: as many words as its own header says
(rule R126). -/
def tableBytes (nbits w : Nat) : List Byte :=
  (tableWords (1 + headerLen (tableHeader nbits w)) (w % 2 ^ nbits)).flatMap bytesOfWord

/-- The instruction the decoder reads, on the port of its kind, from a message whose bits are `w`. -/
def decodeTableWord (nbits w : Nat) : Option Instr :=
  match decode (portOfHeader (tableHeader nbits w)) (tableBytes nbits w) with
  | .instr i => some i
  | .invalid _ => none

/-! ### The pseudo-instruction -/

/-- `resetConfig` assembles to the updateConfig of `DEFAULT_CONFIG` (rule R129). -/
def resetConfig : Instr := .updateConfig Config.defaultConfig

end Sys2Proof
end

