-- ==== Sys2Proof/Machine/Fetch.lean ====
section
/-! DEFINITION. What the core looks at next: the transactions at its ports, one at a time (30_encoding.md rule R111;
43_engine.md rule R270).  There is no program counter (10_state.md rule R30). -/

namespace Sys2Proof.Machine

/-- The state once the message at hand is taken, with the messages still to come. -/
def takeMessage (rest : List Transaction) (s : State) : State := s.withQueue rest

/-- A message put in front of every other one still to come. -/
def presentMessage (m : Transaction) (s : State) : State := s.withQueue (m :: s.queue)

/-- A message as the transaction that carries it on the port of its kind. -/
def transactionOf (i : Instr) : Transaction := ⟨i.kind.port, encode i⟩

/-- A table word as the transaction that carries it. -/
def tableTransaction (nbits w : Nat) : Transaction :=
  ⟨portOfHeader (tableHeader nbits w), tableBytes nbits w⟩

end Sys2Proof.Machine
end

