-- ==== Sys2Proof/Machine/Step.lean ====
section
/-! DEFINITION. The transaction step (43_engine.md rule R270), and the placing of one table word. -/

namespace Sys2Proof.Machine

/-- One step per transaction (rule R270): the message is taken and decoded; an invalid one is discarded (rule R272),
a valid one runs to completion.  With no transaction the core is idle and holds its state (60_exceptions.md
rule R330). -/
def step (s : State) : Host.Outcome State Fault Refusal :=
  match s.queue with
  | [] => .next s
  | m :: rest =>
    match decode m.port m.bytes with
    | .invalid _ => .next (discard (takeMessage rest s))
    | .instr i => exec i (takeMessage rest s)

/-- The message whose bits are `w` placed as the next transaction, on the port of its kind. -/
def State.withFetchWord (s : State) (nbits w : Nat) : State := presentMessage (tableTransaction nbits w) s

end Sys2Proof.Machine
end

