-- ==== Sys2Proof/Machine/Assembler.lean ====
section
/-! DEFINITION. The textual form of the transaction set (30_encoding.md rules R128, R129): one line of characters to a message.  A
host's tool, not a part of the core: no step uses it. -/

namespace Sys2Proof

/-- The tokens of a line: words, and the three punctuation marks of rule R128. -/
inductive AsmToken where
  | word (chars : List Char)
  | comma
  | opening
  | closing
  deriving DecidableEq, Repr

/-- The digits of both bases in rising order, each where its value is. -/
def asmDigits : List Char :=
  ['0', '1', '2', '3', '4', '5', '6', '7', '8', '9'] ++ ['A', 'B', 'C', 'D', 'E', 'F']

/-- The value of a digit of a base: its place among the digits of that base. -/
def digitOf (base : Nat) (c : Char) : Option Nat := (asmDigits.take base).findIdx? (fun d => d = c)

/-- The value of a decimal digit. -/
def digitValue (c : Char) : Option Nat := digitOf 10 c

/-- The value of a hexadecimal digit of either case. -/
def hexValue (c : Char) : Option Nat := digitOf 16 c.toUpper

/-- Digits in a base, most significant first, onto an accumulator. -/
def readDigits (base : Nat) (value : Char → Option Nat) : List Char → Nat → Option Nat
  | [], acc => some acc
  | c :: rest, acc => (value c).bind (fun d => readDigits base value rest (acc * base + d))

/-- At least one decimal digit and nothing else. -/
def readNat (cs : List Char) : Option Nat := if cs.isEmpty then none else readDigits 10 digitValue cs 0

/-- A decimal integer with an optional sign. -/
def readInt : List Char → Option Int
  | '-' :: cs => (readNat cs).map (fun n => -(n : Int))
  | '+' :: cs => (readNat cs).map (fun n => (n : Int))
  | cs => (readNat cs).map (fun n => (n : Int))

/-- A decimal number as an exact fraction. -/
structure AsmDecimal where
  neg : Bool
  num : Nat
  den : Nat
  deriving DecidableEq, Repr

/-- The decimal point's digits on both sides, and the exponent, as a fraction. -/
def decimalOf (neg : Bool) (whole frac : List Char) (exponent : Int) : Option AsmDecimal :=
  if whole.isEmpty && frac.isEmpty then none
  else
    (readDigits 10 digitValue (whole ++ frac) 0).map fun n =>
      if 0 ≤ exponent then ⟨neg, n * 10 ^ exponent.toNat, 10 ^ frac.length⟩
      else ⟨neg, n, 10 ^ (frac.length + exponent.natAbs)⟩

/-- An unsigned decimal number: digits, an optional fraction, an optional exponent. -/
def readUnsigned (neg : Bool) (cs : List Char) : Option AsmDecimal :=
  let isMark := fun c => c = 'e' || c = 'E'
  let body := cs.takeWhile (fun c => !isMark c)
  let whole := body.takeWhile (fun c => c ≠ '.')
  let frac := (body.drop whole.length).drop 1
  match cs.drop body.length with
  | [] => decimalOf neg whole frac 0
  | _ :: exponent => (readInt exponent).bind (decimalOf neg whole frac)

/-- A decimal number with an optional sign. -/
def readDecimal : List Char → Option AsmDecimal
  | '-' :: cs => readUnsigned true cs
  | '+' :: cs => readUnsigned false cs
  | cs => readUnsigned false cs

/-- `#0x` and exactly 16 hexadecimal digits: a bit pattern (rule R128). -/
def readPattern (cs : List Char) : Option F64 :=
  match cs with
  | '#' :: '0' :: 'x' :: digits =>
    if digits.length = 16 then (readDigits 16 hexValue digits 0).map (fun n => ⟨BitVec.ofNat 64 n⟩) else none
  | _ => none

/-- `<f64>` of rule R128.  Which NaN `nan` stands for is not stated: it is free. -/
def readF64 (cs : List Char) : Option F64 :=
  if cs = ['n', 'a', 'n'] then some (F64.nanOf .literal F64.posZero F64.posZero)
  else if cs = ['i', 'n', 'f'] then some (F64.inf false)
  else if cs = ['-', 'i', 'n', 'f'] then some (F64.inf true)
  else
    match readPattern cs with
    | some x => some x
    | none => (readDecimal cs).map (fun d => F64.round d.neg (d.num * unitsPerOne) d.den)

/-- `<f32>` of rule R128: a decimal rounded to the nearest binary32. -/
def readF32 (cs : List Char) : Option F32 :=
  (readDecimal cs).map fun d =>
    F32.ofParts d.neg (min (roundMagnitude 23 (d.num * 2 ^ 149) d.den) infMagnitude32)

/-- `<bool>` of rule R128. -/
def readBool (cs : List Char) : Option Bool :=
  if cs = ['0'] then some false else if cs = ['1'] then some true else none

/-- `<i32>` of rule R128. -/
def readI32 (cs : List Char) : Option (BitVec 32) :=
  (readInt cs).bind (fun z => if -(2 ^ 31) ≤ z ∧ z < 2 ^ 31 then some (BitVec.ofInt 32 z) else none)

/-- A `#` that starts a bit pattern, not a comment: `0x` and 16 hexadecimal digits follow it. -/
def startsPattern (rest : List Char) : Bool :=
  match rest with
  | '0' :: 'x' :: digits => (digits.take 16).length = 16 && (digits.take 16).all (fun c => (hexValue c).isSome)
  | _ => false

/-- A line without its comment (rule R128). -/
def stripComment : List Char → List Char
  | [] => []
  | c :: rest => if c = '#' && !startsPattern rest then [] else c :: stripComment rest

/-- A pending word, if there is one, in front of the tokens after it. -/
def pushWord (word : List Char) (rest : List AsmToken) : List AsmToken :=
  if word.isEmpty then rest else .word word :: rest

/-- The tokens of a line, with the characters of the word being read. -/
def tokensFrom : List Char → List Char → List AsmToken
  | word, [] => pushWord word []
  | word, c :: rest =>
    if c = ' ' ∨ c = '\t' then pushWord word (tokensFrom [] rest)
    else if c = ',' then pushWord word (.comma :: tokensFrom [] rest)
    else if c.toNat = 123 then pushWord word (.opening :: tokensFrom [] rest)
    else if c.toNat = 125 then pushWord word (.closing :: tokensFrom [] rest)
    else tokensFrom (word ++ [c]) rest

/-- Words separated by single commas. -/
def commaWords : List AsmToken → Option (List (List Char))
  | [] => some []
  | [.word w] => some [w]
  | .word w :: .comma :: rest =>
    (commaWords rest).bind (fun ws => if ws.isEmpty then none else some (w :: ws))
  | _ => none

/-- The tokens up to the closing mark, and those after it. -/
def splitGroup : List AsmToken → Option (List AsmToken × List AsmToken)
  | [] => none
  | .closing :: rest => some ([], rest)
  | .opening :: _ => none
  | t :: rest => (splitGroup rest).map (fun p => (t :: p.1, p.2))

/-- `count` groups, each after a comma, and nothing else. -/
def groupWords : Nat → List AsmToken → Option (List (List (List Char)))
  | 0, tokens => if tokens = [] then some [] else none
  | count + 1, .comma :: .opening :: rest =>
    (splitGroup rest).bind fun p =>
      (commaWords p.1).bind fun ws => (groupWords count p.2).map (fun gs => ws :: gs)
  | _, _ => none

/-- The slot names of an updateConfig (30_encoding.md rule R116). -/
def slotNames : List String :=
  ["carrier.freqRatio", "carrier.modulationIndex", "lpf.cutoff", "lpf.q", "lpf.stages", "detector.attackTime",
   "detector.releaseTime", "compressor.threshold", "compressor.ratio", "compressor.releaseTime",
   "compressor.makeupGain", "diode.drop", "diode.vt", "diode.gain", "diode.blend", "noise.enabled", "noise.level"]

/-- An operand without the `name=` in front of it; a name must be that of the operand's slot. -/
def operandValue (slot : String) (cs : List Char) : Option (List Char) :=
  let name := cs.takeWhile (fun c => c ≠ '=')
  if name.length = cs.length then some cs
  else if name = slot.toList then some (cs.drop (name.length + 1))
  else none

/-- The operands of an updateConfig in slot order (rule R128). -/
def assembleConfig (words : List (List Char)) : Option Instr :=
  if words.length = slotNames.length then
    match (slotNames.zip words).mapM (fun p => operandValue p.1 p.2) with
    | some [w0, w1, w2, w3, w4, w5, w6, w7, w8, w9, w10, w11, w12, w13, w14, w15, w16] => do
      let x0 ← readF64 w0
      let x1 ← readF64 w1
      let x2 ← readF64 w2
      let x3 ← readF64 w3
      let x4 ← readF64 w4
      let x5 ← readF64 w5
      let x6 ← readF64 w6
      let x7 ← readF64 w7
      let x8 ← readF64 w8
      let x9 ← readF64 w9
      let x10 ← readF64 w10
      let x11 ← readF64 w11
      let x12 ← readF64 w12
      let x13 ← readF64 w13
      let x14 ← readF64 w14
      let enabled ← readBool w15
      let x16 ← readF64 w16
      some (.updateConfig ⟨x0, x1, x2, x3, x4, x5, x6, x7, x8, x9, x10, x11, x12, x13, x14, enabled, x16⟩)
    | _ => none
  else none

/-- The operands of a block: the channel count, then one group of samples per channel, channel 0 first. -/
def assembleBlock (build : Nat → List F32 → Instr) (tokens : List AsmToken) : Option Instr :=
  match tokens with
  | .word c :: rest => do
    let channels ← readNat c
    let groups ← groupWords channels rest
    let samples ← groups.mapM (fun g => g.mapM readF32)
    if samples.all (fun g => g.length == Config.blockLen) then some (build channels samples.flatten) else none
  | _ => none

/-- The operands of a spectrum. -/
def assembleSpectrum (tokens : List AsmToken) : Option Instr := do
  let groups ← groupWords 1 (.comma :: tokens)
  let magnitudes ← groups.flatten.mapM readF64
  some (.spectrum magnitudes)

/-- A message from its mnemonic and operands (rules R128, R129); a message that no word sequence encodes is refused. -/
def assembleTokens (mnemonic : List Char) (operands : List AsmToken) : Option Instr :=
  let assembled :=
    if mnemonic = "updateConfig".toList then (commaWords operands).bind assembleConfig
    else if mnemonic = "startSpectrum".toList then
      match operands with
      | [.word w] => (readI32 w).map .startSpectrum
      | _ => none
    else if mnemonic = "stopSpectrum".toList then (if operands = [] then some .stopSpectrum else none)
    else if mnemonic = "resetConfig".toList then (if operands = [] then some resetConfig else none)
    else if mnemonic = "processBlock".toList then assembleBlock .processBlock operands
    else if mnemonic = "blockOut".toList then assembleBlock .blockOut operands
    else if mnemonic = "spectrum".toList then assembleSpectrum operands
    else none
  assembled.bind (fun i => if i.wf then some i else none)

/-- One line of text (rule R128): the message on it, if there is one. -/
def assembleLine (line : List Char) : Option Instr :=
  match tokensFrom [] (stripComment line) with
  | .word mnemonic :: operands => assembleTokens mnemonic operands
  | _ => none

/-- The words a line assembles to, by rules R112 to R122. -/
def assembleWords (line : List Char) : Option (List Word) := (assembleLine line).map encodeWords

end Sys2Proof
end

