-- ==== Sys2Proof/Safety.lean ====
section
/-! DEFINITION. What a safe state and a safe run of the core are, in the terms the statements use: the Configs the spec
calls valid (10_state.md rule R33) and the invariants of rules R34 to R42 and R53. -/

namespace Sys2Proof.Machine

/-! ### Valid Configs -/

/-- The number is finite and above +0. -/
def isPositive (x : F64) : Bool := x.isFinite && F64.gt x F64.posZero

/-- The number is finite and at least +0. -/
def isNonNegative (x : F64) : Bool := x.isFinite && F64.ge x F64.posZero

/-- The stage field is an integer in `1..MAX_STAGES`. -/
def isStageField (x : F64) : Bool :=
  F64.ge x F64.one && F64.ge (F64.ofNat Config.maxStages) x && x.unitsAbs % unitsPerOne == 0

/-- "Valid Config" with both groups of conditions (10_state.md rule R33). -/
def validConfig (c : ConfigRecord) : Bool :=
  isPositive c.freqRatio && c.modulationIndex.isFinite && c.cutoff.isFinite && c.q.isFinite &&
  isStageField c.stages && isNonNegative c.attackTime && isNonNegative c.releaseTime &&
  isPositive c.threshold && c.ratio.isFinite && F64.ge c.ratio F64.one && isNonNegative c.compReleaseTime &&
  c.makeupGain.isFinite && c.drop.isFinite && isPositive c.vt && isNonNegative c.diodeGain &&
  isNonNegative c.blend && F64.ge F64.one c.blend && isNonNegative c.noiseLevel

/-! ### State invariants -/

/-- A legal transform size: a power of two in `1..MAX_FFT_SIZE` (10_state.md rule R34). -/
def isFftSize (n : Nat) : Bool := 1 ≤ n && n ≤ Config.maxFftSize && n &&& (n - 1) == 0

/-- The five coefficients a stage holds. -/
def FilterStageState.coefficients (st : FilterStageState) : Coefficients := ⟨st.a0, st.a1, st.a2, st.b1, st.b2⟩

/-- The stage's history is all `+0`. -/
def FilterStageState.zeroHistory (st : FilterStageState) : Prop :=
  st.x1 = F64.posZero ∧ st.x2 = F64.posZero ∧ st.y1 = F64.posZero ∧ st.y2 = F64.posZero

/-- Two stages hold the same history. -/
def FilterStageState.sameHistory (st st' : FilterStageState) : Prop :=
  st'.x1 = st.x1 ∧ st'.x2 = st.x2 ∧ st'.y1 = st.y1 ∧ st'.y2 = st.y2

/-- A channel is as 10_state.md rules R36, R38 and R53 say: its stages are `S` many and at least one, its generator
is not 0, and its derived fields are those of the Config. -/
structure ChannelState.Inv (cfg : ConfigRecord) (c : ChannelState) : Prop where
  stages_length : c.stages.length = c.S
  stages_pos : 1 ≤ c.S
  stages_le : c.S ≤ Config.maxStages
  rng_ne : c.rng ≠ 0
  phaseStep_eq : c.phaseStep = phaseStepOf sampleRate cfg.freqRatio
  atkCoef_eq : c.atkCoef = envelopeCoefficient sampleRate cfg.freqRatio cfg.attackTime
  relCoef_eq : c.relCoef = envelopeCoefficient sampleRate cfg.freqRatio cfg.releaseTime
  compRelCoef_eq : c.compRelCoef = compressorCoefficient sampleRate cfg.compReleaseTime
  coefficients_eq : ∀ st ∈ c.stages, st.coefficients = lowPassCoefficients sampleRate cfg.cutoff cfg.q

/-- A number that is not below 0: a NaN, a zero or a number above 0. -/
def notNegative (x : F64) : Bool := !F64.lt x F64.posZero

/-- "Envelope and compEnvelope never negative" (10_state.md rule R53). -/
def State.EnvelopesNotNegative (s : State) : Prop :=
  ∀ c ∈ s.ch, notNegative c.env = true ∧ notNegative c.compEnv = true

/-- The Config held and the one in the mailbox, if there is one, are valid (10_state.md rule R33). -/
def State.ConfigsValid (s : State) : Prop :=
  validConfig s.cfg = true ∧ ∀ c, s.pending = some (.updateConfig c) → validConfig c = true

/-- Entries `j` and `l` of `w'` are the butterfly of those of `w` with the twiddle of table entry `k` (42_spectrum.md rule
R246). -/
def Working.Twiddled (cosT sinT : List F64) (j l k : Nat) (w w' : Working) : Prop :=
  let tre := ((entry w.re l).mul (entry cosT k)).add ((entry w.im l).mul (entry sinT k))
  let tim := ((entry w.re l).neg.mul (entry sinT k)).add ((entry w.im l).mul (entry cosT k))
  entry w'.re j = (entry w.re j).add tre ∧ entry w'.im j = (entry w.im j).add tim ∧
  entry w'.re l = (entry w.re j).sub tre ∧ entry w'.im l = (entry w.im j).sub tim

/-- An emitted message is one of the transaction set, and a blockOut's samples lie in [-1, 1] (60_exceptions.md rule
R331). -/
def Emission.good : Emission → Prop
  | .blockOut channels samples => isBlock channels samples = true ∧ ∀ y ∈ samples, y.inUnitRange = true
  | .spectrum magnitudes => isMagnitudeCount magnitudes.length = true

/-- The engine's invariant (10_state.md rules R34, R35, R40 to R43, R53).  `queue_input` says that only the host's
messages are still to come: the host reaches the two input ports and no other (30_encoding.md rule R111). -/
structure State.Inv (s : State) : Prop where
  channels_length : s.ch.length = s.chanCount
  chanCount_le : s.chanCount ≤ Config.maxChannels
  channels : ∀ c ∈ s.ch, c.Inv s.cfg
  capture_iff : s.capture = true ↔ s.N ≠ 0
  size : s.N ≠ 0 → isFftSize s.N = true
  cursor_off : s.N = 0 → s.cursor = 0
  cursor_on : s.N ≠ 0 → s.cursor < s.N
  ring_wf : s.ring.wf = true
  ring_within : Memory.within s.N s.ring = true
  bitrev_eq : s.bitrev = bitrevTable s.N
  cosT_eq : s.cosT = cosTable s.N
  sinT_eq : s.sinT = sinTable s.N
  frameCount_lt : s.frameCount < Config.spectrumInterval
  output_good : ∀ e ∈ s.output, e.good
  queue_input : ∀ m ∈ s.queue, m.port.isInput = true

/-- The ring can be written at its cursor whenever capture is on: all a processBlock needs to complete. -/
def State.ringReady (s : State) : Prop := s.capture = true → s.cursor < s.N

/-- A run that reaches no fault and no refusal. -/
def completes (r : Host.Outcome State Fault Refusal) : Prop := ∃ t, r = .next t

end Sys2Proof.Machine
end

