-- ==== Sys2Proof/Certificates/Slice0/Obligations.lean ====
section
/-! DEFINITION. The statements for the provers.  Each names the rules of spec/ it formalises; one that rests on a choice of
the model says so and names the log entry (notes/assumptions/<n>.md). -/

open Sys2Proof Sys2Proof.Machine

/-! ### Messages -/

/-- Every well-formed message decodes, on the port of its kind, from its own encoding (30_encoding.md rules R112 to
R123).  That the decoder reads blockOut and spectrum at the two output ports is the model's choice (log entry 19). -/
def Obligations.DecodeInvertsEncode : Prop :=
  ∀ i : Instr, i.wf = true → decode i.kind.port (encode i) = .instr i

/-- The decoder accepts nothing but encodings: a message it reads is well-formed, belongs to that port, and has no
other bytes (30_encoding.md rules R112 to R125).  That it reads messages at the two output ports at all is the model's
choice (log entry 19). -/
def Obligations.EncodeInvertsDecode : Prop :=
  ∀ (port : Port) (bytes : List Byte) (i : Instr), decode port bytes = .instr i →
    i.wf = true ∧ i.kind.port = port ∧ encode i = bytes

/-- Rules R113 and R114: an accepted message has exactly `1 + LEN` words, and `LEN` is what its kind requires. -/
def Obligations.AcceptedMessagesHaveRequiredLength : Prop :=
  ∀ (port : Port) (bytes : List Byte) (i : Instr), decode port bytes = .instr i →
    ∃ (header : Word) (payload : List Word),
      bytes = (header :: payload).flatMap bytesOfWord ∧ bytes.length = 4 * (1 + headerLen header) ∧
      (match i with
        | .updateConfig _ => headerLen header = 34
        | .startSpectrum _ => headerLen header = 1
        | .stopSpectrum => headerLen header = 0
        | .processBlock c _ => c = lowHalf (payload.getD 0 0) ∧ headerLen header = 1 + c * Config.blockLen
        | .blockOut c _ => c = lowHalf (payload.getD 0 0) ∧ headerLen header = 1 + c * Config.blockLen
        | .spectrum _ => ∃ n, isFftSize n = true ∧ headerLen header = 2 * (n / 2))

/-- Rule R125: on an input port a message is invalid if its `OPC` is reserved or an output kind's, if `RSV` is not 0,
or if it is a processBlock with a nonzero high half of word 1. -/
def Obligations.ReservedEncodingsAreInvalid : Prop :=
  ∀ (port : Port) (header : Word) (payload : List Word), port.isInput = true →
    ((headerOpcode header ≠ 0x01 ∧ headerOpcode header ≠ 0x02 ∧ headerOpcode header ≠ 0x03 ∧
        headerOpcode header ≠ 0x10) ∨
      headerReserved header ≠ 0 ∨
      (headerOpcode header = 0x10 ∧ ∃ word1 rest, payload = word1 :: rest ∧ highHalf word1 ≠ 0)) →
    ∃ why, decode port ((header :: payload).flatMap bytesOfWord) = .invalid why

/-- Rule R130's words, and one word of every other kind written out from rules R112 to R122.  That the three words at the
two output ports decode is the model's choice (log entry 19). -/
def Obligations.SpecWordsDecode : Prop :=
  headerWord .updateConfig 34 = 0x00220001 ∧ headerWord .processBlock 129 = 0x00810010 ∧
  decodeWords .ctrlIn [0x00000003] = .instr .stopSpectrum ∧
  decodeWords .ctrlIn [0x00010002, 0x00000800] = .instr (.startSpectrum 2048) ∧
  decodeWords .ctrlIn [0x00010002, 0xFFFFFFFF] = .instr (.startSpectrum (-1)) ∧
  decodeWords .audioIn [0x00010010, 0x00000000] = .instr (.processBlock 0 []) ∧
  decodeWords .audioOut [0x00010011, 0x00000000] = .instr (.blockOut 0 []) ∧
  decodeWords .eventOut [0x00000020] = .instr (.spectrum []) ∧
  decodeWords .eventOut [0x00020020, 0x00000000, 0x3FD80000] = .instr (.spectrum [⟨0x3FD8000000000000⟩]) ∧
  bytesOfWord 0x00220001 = [0x01, 0x00, 0x22, 0x00]

/-- Rule R129: the pseudo-instruction `resetConfig` assembles to the updateConfig of `DEFAULT_CONFIG`. -/
def Obligations.ResetConfigAssemblesToTheDefaults : Prop :=
  assembleLine "resetConfig".toList = some (.updateConfig Config.defaultConfig) ∧
  assembleWords "resetConfig".toList = some (encodeWords (.updateConfig Config.defaultConfig))

/-! ### The step -/

/-- 43_engine.md section 1: when the next transaction decodes to a message, the step is that message's meaning in the
state with the message taken from the queue.  The queue is the model's own field (log entry 1). -/
def Obligations.StepRunsDecodedInstruction : Prop :=
  ∀ (s : State) (m : Transaction) (rest : List Transaction) (i : Instr), s.queue = m :: rest →
    decode m.port m.bytes = .instr i → step s = exec i { s with queue := rest }

/-- 43_engine.md section 1: an invalid message is discarded and changes nothing but that it is gone from the queue, which
is the model's own field (log entry 1). -/
def Obligations.StepDiscardsInvalidMessage : Prop :=
  ∀ (s : State) (m : Transaction) (rest : List Transaction) (why : Malformed), s.queue = m :: rest →
    decode m.port m.bytes = .invalid why → step s = .next { s with queue := rest }

/-- 60_exceptions.md section 5: with nothing arriving the core holds its state.  That such a moment is a step is the
model's choice (log entry 17). -/
def Obligations.IdleCoreHoldsItsState : Prop := ∀ s : State, s.queue = [] → step s = .next s

/-- 43_engine.md section 6: a processBlock message with `C` above `MAX_CHANNELS` is discarded, whatever else it holds; it
is gone from the queue, which is the model's own field (log entry 1). -/
def Obligations.BlockAboveMaxChannelsDiscarded : Prop :=
  ∀ (s : State) (rest : List Transaction) (header word1 : Word) (samples : List Word),
    headerOpcode header = 0x10 → Config.maxChannels < lowHalf word1 →
    s.queue = ⟨.audioIn, (header :: word1 :: samples).flatMap bytesOfWord⟩ :: rest →
    step s = .next { s with queue := rest }

/-! ### Control messages -/

/-- Rule R271: each control message completes in every state; it fills the mailbox and changes nothing else. -/
def Obligations.ControlMessagesEnterTheMailbox : Prop :=
  ∀ s : State,
    (∀ c, exec (.updateConfig c) s = .next { s with pending := some (.updateConfig c) }) ∧
    (∀ n, exec (.startSpectrum n) s = .next { s with pending := some (.startSpectrum n) }) ∧
    exec .stopSpectrum s = .next { s with pending := some .stopSpectrum }

/-- Rule R355: of two control messages with no block between them only the second has any effect. -/
def Obligations.LatestControlMessageWins : Prop :=
  ∀ (s t : State) (i j : Instr), i.kind.port = .ctrlIn → j.kind.port = .ctrlIn →
    exec i s = .next t → exec j t = exec j s

/-- Rule R274: the application empties the mailbox, and does nothing when it was empty. -/
def Obligations.PendingMessageAppliedOnce : Prop :=
  ∀ s : State, (applyPending s).pending = none ∧ (s.pending = none → applyPending s = s)

/-- Rule R283: an applied updateConfig replaces the Config whole and updates every held channel. -/
def Obligations.UpdateConfigReplacesConfigWhole : Prop :=
  ∀ (s : State) (c : ConfigRecord), s.pending = some (.updateConfig c) →
    applyPending s = { s with pending := none, cfg := c, ch := s.ch.map (updateChannel sampleRate c) }

/-- Rule R285: the accepted sizes are the powers of two from 1 to `MAX_FFT_SIZE`. -/
def Obligations.AcceptedSizesArePowersOfTwo : Prop :=
  ∀ n : BitVec 32, validFft n = true ↔ ∃ k : Nat, 2 ^ k ≤ Config.maxFftSize ∧ n.toInt = 2 ^ k

/-- Rule R286: an accepted startSpectrum gives a zero ring of its size with the cursor at 0 and the tables of that
size, turns capture on, and changes nothing else.  The clause on the ring's canonical form is the model's own (log entry
9). -/
def Obligations.AcceptedStartCreatesZeroRing : Prop :=
  ∀ (s : State) (n : BitVec 32), s.pending = some (.startSpectrum n) → validFft n = true →
    let t := applyPending s
    t = { s with
          pending := none, capture := true, N := n.toNat, ring := t.ring, cursor := 0,
          bitrev := bitrevTable n.toNat, cosT := cosTable n.toNat, sinT := sinTable n.toNat } ∧
    t.ring.wf = true ∧ ∀ i, memRead t i = if i < n.toNat then some F64.posZero else none

/-- Rule R287: a rejected startSpectrum has no effect beyond leaving the mailbox. -/
def Obligations.RejectedStartHasNoEffect : Prop :=
  ∀ (s : State) (n : BitVec 32), s.pending = some (.startSpectrum n) → validFft n = false →
    applyPending s = { s with pending := none }

/-- Rule R288: an applied stopSpectrum turns capture off and discards the ring and the tables. -/
def Obligations.StopDiscardsTheAnalyzer : Prop :=
  ∀ s : State, s.pending = some .stopSpectrum →
    let t := applyPending s
    t = { s with pending := none, capture := false, N := 0, ring := t.ring, cursor := 0, bitrev := [], cosT := [],
                 sinT := [] } ∧
    ∀ i, memRead t i = none

/-- Rule R290: the capture mode changes only in a processBlock, and only by a valid start or by a stop it applies. -/
def Obligations.CaptureModeChangesOnlyByStartOrStop : Prop :=
  ∀ (s t : State) (i : Instr), exec i s = .next t → (t.capture ≠ s.capture ∨ t.N ≠ s.N) →
    (∃ c xs, i = .processBlock c xs) ∧
    ((∃ n, s.pending = some (.startSpectrum n) ∧ validFft n = true ∧ t.capture = true ∧ t.N = n.toNat) ∨
      (s.pending = some .stopSpectrum ∧ t.capture = false ∧ t.N = 0))

/-- Rule R291, its first case: a start and a stop before the same block emit no spectrum and leave capture off. -/
def Obligations.StartThenStopEmitsNoSpectrum : Prop :=
  ∀ (s u v t : State) (n : BitVec 32) (c : Nat) (xs : List F32),
    exec (.startSpectrum n) s = .next u → exec .stopSpectrum u = .next v → exec (.processBlock c xs) v = .next t →
    t.capture = false ∧ ∃ outs, t.output = s.output ++ [.blockOut c outs]

/-- Rule R32: the Config that was written is the Config held, whatever its values, after the block that applied it. -/
def Obligations.ConfigHeldBitForBit : Prop :=
  ∀ (s u t : State) (c : ConfigRecord) (k : Nat) (xs : List F32),
    exec (.updateConfig c) s = .next u → exec (.processBlock k xs) u = .next t → t.cfg = c

/-! ### processBlock -/

/-- Rule R282: in a state that meets the invariant a well-formed processBlock completes.  A channel runs its samples one
after the other: each is widened, processed with the channel the one before left, and its output narrowed.  With `b` the
state after the pending message and the channel-count check: run `k` is that of channel `k` on the `BLOCK_LEN` samples from
`k * BLOCK_LEN` on, the channels held are those the runs left, one blockOut and, when it
falls due while capture is on, one spectrum have joined the output, the frame counter has advanced, channel 0's
pre-detector samples have been written to the ring from the cursor on while capture is on, every other entry of the
ring reads as before, and nothing else has changed. -/
def Obligations.ProcessBlockCompletes : Prop :=
  (∀ (cfg : ConfigRecord) (ch : ChannelState),
    runChannel cfg ch [] = { channel := ch, outputs := [], modulated := [] } ∧
    ∀ (x : F32) (xs : List F32),
      let now := processSample cfg ch x.widen
      let later := runChannel cfg now.channel xs
      runChannel cfg ch (x :: xs) =
        { channel := later.channel
          outputs := now.output.narrow :: later.outputs
          modulated := now.modulated :: later.modulated }) ∧
  ∀ (s : State) (c : Nat) (xs : List F32), s.Inv → (Instr.processBlock c xs).wf = true →
    let b := beginBlock c s
    let runs := runChannels b.cfg b.ch xs
    (runs.length = b.ch.length ∧ ∀ k ch, b.ch[k]? = some ch →
      runs[k]? = some (runChannel b.cfg ch ((xs.drop (k * Config.blockLen)).take Config.blockLen))) ∧
    ∃ t, exec (.processBlock c xs) s = .next t ∧
      t = { b with
            ch := runs.map ChannelRun.channel, ring := t.ring, cursor := t.cursor,
            frameCount := t.frameCount, output := t.output } ∧
      t.pending = none ∧ t.chanCount = c ∧ t.ch.length = c ∧ t.queue = s.queue ∧
      t.output = s.output ++ .blockOut c (runs.flatMap ChannelRun.outputs) ::
        (if s.frameCount + 1 = Config.spectrumInterval ∧ t.capture = true then [.spectrum (analyzeRing t)] else []) ∧
      t.frameCount = (if s.frameCount + 1 = Config.spectrumInterval then 0 else s.frameCount + 1) ∧
      (if t.capture = true ∧ c ≠ 0
        then t.cursor = (b.cursor + Config.blockLen) % b.N
        else t.cursor = b.cursor ∧ t.ring = b.ring) ∧
      ∀ first rest, runs = first :: rest → t.capture = true →
        ringWrites first.modulated b = some { b with ring := t.ring, cursor := t.cursor } ∧
        ∀ i, (∀ j, j < Config.blockLen → i ≠ (b.cursor + j) % b.N) → memRead t i = memRead b i

/-- Rule R276: a block whose channel count differs from the held one recreates every channel from the current Config;
otherwise the channels stay. -/
def Obligations.ChannelCountChangeRecreatesAll : Prop :=
  ∀ (s : State) (c : Nat),
    (c ≠ s.chanCount →
      checkChannels c s = { s with chanCount := c, ch := List.replicate c (freshChannel sampleRate s.cfg) }) ∧
    (c = s.chanCount → checkChannels c s = s)

/-- Rule R51: what a fresh channel holds, the values of rules R181, R182 and R200 written out. -/
def Obligations.FreshChannelHoldsCreationValues : Prop :=
  ∀ cfg : ConfigRecord,
    let frc := if F64.gt cfg.freqRatio Config.freqEps then cfg.freqRatio else Config.freqEps
    let cp := F64.one.div (sampleRate.mul frc)
    freshChannel sampleRate cfg =
      { phase := F64.posZero
        phaseStep := (F64.twoPi.mul (sampleRate.mul frc)).div sampleRate
        env := F64.posZero
        atkCoef := fnExp (F64.negOne.div ((sampleRate.mul cp).mul cfg.attackTime))
        relCoef := fnExp (F64.negOne.div ((sampleRate.mul cp).mul cfg.releaseTime))
        compEnv := F64.posZero
        compRelCoef := fnExp (F64.negOne.div (sampleRate.mul cfg.compReleaseTime))
        rng := 1
        S := stageCount cfg.stages
        stages := List.replicate (stageCount cfg.stages) (updateCoefficients sampleRate cfg.cutoff cfg.q newStage) }

/-- Rule R294: two engines with the same Config that both see a channel-count change answer the same block alike and
hold the same channels after it, whatever they held before. -/
def Obligations.RecreatedChannelsForgetThePast : Prop :=
  ∀ (s₁ s₂ t₁ t₂ : State) (c : Nat) (xs : List F32), s₁.pending = none → s₂.pending = none → s₁.cfg = s₂.cfg →
    c ≠ s₁.chanCount → c ≠ s₂.chanCount →
    exec (.processBlock c xs) s₁ = .next t₁ → exec (.processBlock c xs) s₂ = .next t₂ →
    t₁.ch = t₂.ch ∧ ∃ outs r₁ r₂, t₁.output = s₁.output ++ .blockOut c outs :: r₁ ∧
      t₂.output = s₂.output ++ .blockOut c outs :: r₂

/-- Rule R292: a block without channels is well-formed and completes; it applies the pending message, drops the
channels, answers with an empty blockOut, advances the frame counter and writes no sample anywhere. -/
def Obligations.ZeroChannelBlockCompletes : Prop :=
  (Instr.processBlock 0 []).wf = true ∧ ∀ s : State, s.Inv →
    let p := applyPending s
    exec (.processBlock 0 []) s =
      .next (advanceFrame { p with chanCount := 0, ch := [], output := p.output ++ [.blockOut 0 []] })

/-- Rule R278: a captured sample goes to the entry at the cursor, the cursor moves on modulo `N`, every other entry and
every other field stays. -/
def Obligations.RingWriteReplacesOneEntry : Prop :=
  ∀ (s : State) (v : F64), s.ring.wf = true → s.cursor < s.N →
    ∃ t, ringWrite v s = some t ∧ t = { s with ring := t.ring, cursor := (s.cursor + 1) % s.N } ∧
      t.ring.wf = true ∧ ∀ i, memRead t i = if i = s.cursor then some v else memRead s i

/-- Rule R278 over a block: at most `N` samples written from the cursor on stand in consecutive entries modulo `N`, and
every other entry is unchanged. -/
def Obligations.CapturedSamplesFillTheRing : Prop :=
  ∀ (s : State) (vs : List F64), s.ring.wf = true → s.cursor < s.N → vs.length ≤ s.N →
    ∃ t, ringWrites vs s = some t ∧ t.cursor = (s.cursor + vs.length) % s.N ∧
      (∀ j, j < vs.length → memRead t ((s.cursor + j) % s.N) = vs[j]?) ∧
      (∀ i, (∀ j, j < vs.length → i ≠ (s.cursor + j) % s.N) → memRead t i = memRead s i)

/-- Rule R279: the frame counter counts every block; at the interval it returns to 0 and, while capture is on, the
analysis of the ring in raw index order is emitted. -/
def Obligations.FrameCounterPacesTheSpectrum : Prop :=
  ∀ s : State, s.frameCount < Config.spectrumInterval →
    (s.frameCount + 1 < 4 → advanceFrame s = { s with frameCount := s.frameCount + 1 }) ∧
    (s.frameCount + 1 = 4 → s.capture = false → advanceFrame s = { s with frameCount := 0 }) ∧
    (s.frameCount + 1 = 4 → s.capture = true → advanceFrame s =
      { s with
        frameCount := 0
        output := s.output ++
          [.spectrum (analyze s.N s.bitrev s.cosT s.sinT ((List.range s.N).map s.ring.lookup))] })

/-- Rule R331: whatever the state, the Config and the input, every sample of the blockOut of a processBlock lies in
[-1, 1] and is no NaN. -/
def Obligations.BlockOutSamplesStayInRange : Prop :=
  ∀ (s t : State) (c : Nat) (xs : List F32), exec (.processBlock c xs) s = .next t →
    ∃ outs rest, t.output = s.output ++ .blockOut c outs :: rest ∧
      (∀ y ∈ outs, y.inUnitRange = true ∧ y.isNaN = false) ∧ (rest = [] ∨ ∃ m, rest = [.spectrum m])

/-- Rules R281 and R289: each output message completes in every state; it joins the end of the output history and
nothing else changes. -/
def Obligations.OutputMessagesJoinTheHistory : Prop :=
  ∀ s : State,
    (∀ c xs, exec (.blockOut c xs) s = .next { s with output := s.output ++ [.blockOut c xs] }) ∧
    (∀ ms, exec (.spectrum ms) s = .next { s with output := s.output ++ [.spectrum ms] })

/-! ### One channel -/

/-- Rule R205: the fields and results of one sample, step by step. -/
def Obligations.ProcessSampleFollowsTheEightSteps : Prop :=
  ∀ (cfg : ConfigRecord) (ch : ChannelState) (a : F64),
    let signal := (F64.one.add (cfg.modulationIndex.mul a)).mul (fnCos ch.phase)
    let p := ch.phase.add ch.phaseStep
    let p := if F64.ge p F64.twoPi then p.sub F64.twoPi else p
    let p := if F64.ge p F64.twoPi then p.fmod F64.twoPi else p
    let x := ch.rng
    let x := x ^^^ (x <<< 13)
    let x := x ^^^ (x >>> 17)
    let x := x ^^^ (x <<< 5)
    let n := (((F64.ofNat x.toNat).div (F64.ofNat 4294967295)).mul F64.two).sub F64.one
    let modulated := if cfg.noiseEnabled then signal.add (n.mul cfg.noiseLevel) else signal
    let d := modulated.sub cfg.drop
    let diode := if F64.gt d F64.posZero then ((fnExp (d.div cfg.vt)).sub F64.one).mul cfg.diodeGain else F64.posZero
    let rectified := (modulated.max0.mul (F64.one.sub cfg.blend)).add (diode.mul cfg.blend)
    let c := if F64.gt rectified ch.env then ch.atkCoef else ch.relCoef
    let env := (c.mul ch.env).add ((F64.one.sub c).mul rectified)
    let dem := (env.sub F64.one).div cfg.modulationIndex
    let lvl := dem.abs
    let compEnv := if F64.gt lvl ch.compEnv then lvl
      else (ch.compRelCoef.mul ch.compEnv).add ((F64.one.sub ch.compRelCoef).mul lvl)
    let grDb := ((F64.twenty.mul (fnLog10 compEnv)).sub (F64.twenty.mul (fnLog10 cfg.threshold))).mul
      (F64.one.sub (F64.one.div cfg.ratio))
    let gain := if F64.gt compEnv cfg.threshold then fnPow10 (grDb.neg.div F64.twenty) else F64.one
    let filtered := cascade ch.stages ((dem.mul gain).mul cfg.makeupGain)
    processSample cfg ch a =
      { channel := { ch with phase := p, rng := x, env := env, compEnv := compEnv, stages := filtered.1 }
        output := clampOutput filtered.2
        modulated := modulated }

/-- Rules R182 and R186: at every legal sample rate, while `phaseStep` is finite the phase stays in `[0, TWO_PI)`
through a whole block. -/
def Obligations.PhaseStaysInRange : Prop :=
  ∀ (fs : F64) (cfg : ConfigRecord) (ch : ChannelState) (xs : List F32), isPositive fs = true →
    ch.phaseStep = phaseStepOf fs cfg.freqRatio → ch.phaseStep.isFinite = true →
    ch.phase.inPhaseRange = true → (runChannel cfg ch xs).channel.phase.inPhaseRange = true

/-- Rule R187: a nonzero generator state never becomes 0. -/
def Obligations.NoiseGeneratorNeverReachesZero : Prop := ∀ x : BitVec 32, x ≠ 0 → xorshift32 x ≠ 0

/-- Rule R53, "envelope and compEnvelope never negative": a one-pole update with a coefficient in [0, 1] keeps
non-negative values non-negative; a non-negative time gives such a coefficient or a NaN; and with a valid Config held
and none but a valid one waiting, every step keeps the envelopes of every channel from being negative.  The second and the
third clause rest on the range of `EXP` that log entry 20 reads from that rule; those of `State.Inv` on the ring's form
and the queue are the model's own (log entries 9 and 1). -/
def Obligations.EnvelopesAreNeverNegative : Prop :=
  (∀ c old target : F64, F64.ge c F64.posZero = true → F64.ge F64.one c = true →
    isNonNegative old = true → isNonNegative target = true → F64.ge (onePole c old target) F64.posZero = true) ∧
  (∀ freqRatio time : F64, isNonNegative time = true → time.sign = false →
    ∀ c, c = envelopeCoefficient sampleRate freqRatio time ∨ c = compressorCoefficient sampleRate time →
      c.isNaN = true ∨ (F64.ge c F64.posZero = true ∧ F64.ge F64.one c = true)) ∧
  ∀ s t : State, s.Inv → s.ConfigsValid → s.EnvelopesNotNegative → step s = .next t → t.EnvelopesNotNegative

/-- Rule R193: a NaN envelope stays NaN through every block and every update of the channel. -/
def Obligations.NaNEnvelopePersists : Prop :=
  ∀ (cfg cfg' : ConfigRecord) (ch : ChannelState) (xs : List F32), ch.env.isNaN = true →
    (runChannel cfg ch xs).channel.env.isNaN = true ∧ (updateChannel sampleRate cfg' ch).env.isNaN = true

/-- Rule R195: a NaN compressor envelope stays NaN, and then the gain is 1. -/
def Obligations.NaNCompressorEnvelopeBypasses : Prop :=
  ∀ (cfg : ConfigRecord) (ch : ChannelState) (xs : List F32), ch.compEnv.isNaN = true →
    (runChannel cfg ch xs).channel.compEnv.isNaN = true ∧
    compressorGain cfg.threshold cfg.ratio (runChannel cfg ch xs).channel.compEnv = F64.one

/-- Rules R157 and R357: once one of a stage's four history values is an infinity or a NaN, every sample of the channel is
`NAN_OUT`, the stage's history stays so, after at least one sample its output history is a NaN, and an update of the
channel that keeps the stage does not clear it.  That the output is a NaN even where R155's sum is an infinity is the model's
choice between R155 and R157 (log entry 21). -/
def Obligations.NonFiniteFilterHistoryPersists : Prop :=
  ∀ (cfg cfg' : ConfigRecord) (ch : ChannelState) (xs : List F32),
    (∃ st ∈ ch.stages, st.finiteHistory = false) →
    (∀ y ∈ (runChannel cfg ch xs).outputs, y = nanOut.narrow) ∧
    (xs ≠ [] → ∃ st ∈ (runChannel cfg ch xs).channel.stages, st.y1.isNaN = true) ∧
    (∃ st ∈ (runChannel cfg ch xs).channel.stages, st.finiteHistory = false) ∧
    (ch.stages.length = ch.S → ch.S ≤ stageCount cfg'.stages →
      ∃ st ∈ (updateChannel sampleRate cfg' ch).stages, st.finiteHistory = false)

/-- Rules R155 to R157: with a finite history a stage's output is the direct-form sum, evaluated left to right; with an
infinity or a NaN in it the output is a NaN, where it is the model's choice to follow R157 and not R155's sum (log entry 21);
an infinity or a NaN in the input, a coefficient or the history never gives a finite output; and the history after. -/
def Obligations.StageFollowsDirectFormOne : Prop :=
  ∀ (st : FilterStageState) (x : F64),
    let y := (processStage st x).2
    (processStage st x).1 = { st with x1 := x, x2 := st.x1, y1 := y, y2 := st.y1 } ∧
    ((st.x1.isFinite = true ∧ st.x2.isFinite = true ∧ st.y1.isFinite = true ∧ st.y2.isFinite = true) →
      y = ((((st.a0.mul x).add (st.a1.mul st.x1)).add (st.a2.mul st.x2)).sub (st.b1.mul st.y1)).sub
        (st.b2.mul st.y2)) ∧
    ((st.x1.isFinite = false ∨ st.x2.isFinite = false ∨ st.y1.isFinite = false ∨ st.y2.isFinite = false) →
      y.isNaN = true) ∧
    ((x.isFinite = false ∨ st.a0.isFinite = false ∨ st.a1.isFinite = false ∨ st.a2.isFinite = false ∨
        st.b1.isFinite = false ∨ st.b2.isFinite = false) → y.isFinite = false)

/-- Rule R158: stages in series, in ascending order. -/
def Obligations.CascadeRunsStagesInSeries : Prop :=
  (∀ v, cascade [] v = ([], v)) ∧
  (∀ st v, cascade [st] v = ([(processStage st v).1], (processStage st v).2)) ∧
  ∀ (front back : List FilterStageState) (v : F64),
    cascade (front ++ back) v =
      ((cascade front v).1 ++ (cascade back (cascade front v).2).1, (cascade back (cascade front v).2).2)

/-- Rules R151 and R153: the coefficients a stage gets, its history kept. -/
def Obligations.CoefficientsFollowTheLowPassForm : Prop :=
  ∀ (fs fc q : F64) (st : FilterStageState),
    let w := (F64.twoPi.mul fc).div fs
    let al := (fnSin w).div (F64.two.mul q)
    let a0r := F64.one.add al
    updateCoefficients fs fc q st =
      { st with
        a0 := ((F64.one.sub (fnCos w)).div F64.two).div a0r
        a1 := (F64.one.sub (fnCos w)).div a0r
        a2 := ((F64.one.sub (fnCos w)).div F64.two).div a0r
        b1 := (F64.negTwo.mul (fnCos w)).div a0r
        b2 := (F64.one.sub al).div a0r }

/-- Rule R199: the four cases of the output clamp, and that its result always lies in [-1, 1]. -/
def Obligations.OutputClampCases : Prop :=
  ∀ y : F64,
    (y.isNaN = true → clampOutput y = nanOut) ∧
    (F64.gt y F64.one = true → clampOutput y = F64.one) ∧
    (F64.lt y F64.negOne = true → clampOutput y = F64.negOne) ∧
    (y.inUnitRange = true → clampOutput y = y) ∧
    (clampOutput y).inUnitRange = true

/-- Rule R202: NaN and everything below 1 give 1, `MAX_STAGES` and above give `MAX_STAGES`, and between them the count is
the nearest integer, ties upward. -/
def Obligations.StageCountRoundsToNearest : Prop :=
  ∀ v : F64,
    (F64.ge v F64.one = false → stageCount v = 1) ∧
    (F64.ge v (F64.ofNat 64) = true → stageCount v = 64) ∧
    (F64.ge v F64.one = true → F64.ge v (F64.ofNat 64) = false →
      stageCount v = (2 * v.unitsAbs + unitsPerOne) / (2 * unitsPerOne)) ∧
    1 ≤ stageCount v ∧ stageCount v ≤ Config.maxStages

/-- Rules R201, R203 and R204: an update keeps the phase, the envelopes, the generator and the history of the stages it
keeps, which are the lowest; stages it adds start at zero history; every stage gets the Config's coefficients; the phase
step and the three envelope coefficients are those of rules R181, R182 and R200. -/
def Obligations.UpdateKeepsRunningState : Prop :=
  ∀ (c : ConfigRecord) (ch : ChannelState), ch.stages.length = ch.S →
    let u := updateChannel sampleRate c ch
    let frc := if F64.gt c.freqRatio Config.freqEps then c.freqRatio else Config.freqEps
    let cp := F64.one.div (sampleRate.mul frc)
    u.phase = ch.phase ∧ u.env = ch.env ∧ u.compEnv = ch.compEnv ∧ u.rng = ch.rng ∧
    u.phaseStep = (F64.twoPi.mul (sampleRate.mul frc)).div sampleRate ∧
    u.atkCoef = fnExp (F64.negOne.div ((sampleRate.mul cp).mul c.attackTime)) ∧
    u.relCoef = fnExp (F64.negOne.div ((sampleRate.mul cp).mul c.releaseTime)) ∧
    u.compRelCoef = fnExp (F64.negOne.div (sampleRate.mul c.compReleaseTime)) ∧
    u.S = stageCount c.stages ∧ u.stages.length = u.S ∧
    (∀ k st, k < u.S → ch.stages[k]? = some st → ∃ st', u.stages[k]? = some st' ∧ st.sameHistory st') ∧
    (∀ k, ch.S ≤ k → k < u.S → ∃ st', u.stages[k]? = some st' ∧ st'.zeroHistory) ∧
    (∀ st' ∈ u.stages, st'.coefficients = lowPassCoefficients sampleRate c.cutoff c.q)

/-- Rule R97: applying the same Config twice leaves a channel as applying it once does. -/
def Obligations.UpdateTwiceIsUpdateOnce : Prop :=
  ∀ (c : ConfigRecord) (ch : ChannelState), ch.stages.length = ch.S →
    updateChannel sampleRate c (updateChannel sampleRate c ch) = updateChannel sampleRate c ch

/-- The compressor's corner cases of rules R196 and R200.  Its release coefficient is instant at +0, frozen at +Inf, NaN at
NaN.  Its gain is 1 at the threshold; 1 for a ratio of 1, a threshold above 0 and a finite level; 0 for a threshold of 0, a
ratio above 1 and a finite level; NaN for a threshold below 0 and a level above it.  The second and the third clause on
the gain rest on the range of `LOG10` that log entry 26 reads from R196. -/
def Obligations.CompressorCorners : Prop :=
  compressorCoefficient sampleRate F64.posZero = F64.posZero ∧
  compressorCoefficient sampleRate (F64.inf false) = F64.one ∧
  (∀ time : F64, time.isNaN = true → (compressorCoefficient sampleRate time).isNaN = true) ∧
  (∀ threshold ratio : F64, compressorGain threshold ratio threshold = F64.one) ∧
  (∀ threshold level : F64, isPositive threshold = true → isPositive level = true →
    compressorGain threshold F64.one level = F64.one) ∧
  (∀ ratio level : F64, F64.gt ratio F64.one = true → isPositive level = true →
    compressorGain F64.posZero ratio level = F64.posZero) ∧
  ∀ threshold ratio level : F64, F64.lt threshold F64.posZero = true → F64.gt level threshold = true →
    (compressorGain threshold ratio level).isNaN = true

/-- Rule R181: the clamped frequency ratio is the given one above `FREQ_EPS`, and `FREQ_EPS` for all else, NaN included. -/
def Obligations.FrequencyRatioClamp : Prop :=
  ∀ fr : F64,
    (F64.gt fr Config.freqEps = true → clampFreq fr = fr) ∧
    (F64.ge Config.freqEps fr = true ∨ fr.isNaN = true → clampFreq fr = Config.freqEps) ∧
    F64.ge (clampFreq fr) Config.freqEps = true

/-! ### The analyzer -/

/-- Rule R241: the table of `N = 2^B` holds the `B`-bit reversals, and bit `j` of the reversal of `i` is bit `B - 1 - j`
of `i`. -/
def Obligations.BitReversalReversesBits : Prop :=
  ∀ bits : Nat, (bitrevTable (2 ^ bits)).length = 2 ^ bits ∧
    ∀ i, i < 2 ^ bits → ∃ v, (bitrevTable (2 ^ bits))[i]? = some v ∧ v < 2 ^ bits ∧
      ∀ j, j < bits → v.testBit j = i.testBit (bits - 1 - j)

/-- Rules R240, R242 to R245 and R247: the tables, the window and its two zero ends, the windowed sequence, the
permutation, the number and the values of the magnitudes, and their order.  The last entry of the window of size 16 is
0 by the model's reading of R243 (log entry 22); size 2 is rule R248's (log entry 13). -/
def Obligations.AnalyzerFollowsItsFormulas : Prop :=
  (∀ n, isFftSize n = true → 2 ≤ n → hann n 0 = F64.posZero ∧ hann n (n - 1) = F64.posZero) ∧
  ∀ n : Nat,
    (cosTable n).length = n / 2 ∧ (sinTable n).length = n / 2 ∧
    (∀ k, k < n / 2 →
      (cosTable n)[k]? = some (fnCos ((F64.twoPi.mul (F64.ofNat k)).div (F64.ofNat n))) ∧
      (sinTable n)[k]? = some (fnSin ((F64.twoPi.mul (F64.ofNat k)).div (F64.ofNat n)))) ∧
    (∀ i, hann n i =
      F64.half.mul (F64.one.sub (fnCos ((F64.twoPi.mul (F64.ofNat i)).div (F64.ofNat (n - 1)))))) ∧
    (∀ buf : List F64, (windowed n buf).re.length = n ∧ (windowed n buf).im.length = n ∧ ∀ i, i < n →
      (windowed n buf).re[i]? = some ((entry buf i).mul (hann n i)) ∧ (windowed n buf).im[i]? = some F64.posZero) ∧
    (∀ (bitrev : List Nat) (w : Working),
      (permute bitrev w).re.length = bitrev.length ∧ (permute bitrev w).im.length = bitrev.length ∧
      ∀ i source : Nat, bitrev[i]? = some source →
        (permute bitrev w).re[i]? = some (entry w.re source) ∧ (permute bitrev w).im[i]? = some (entry w.im source)) ∧
    (∀ w : Working, (magnitudes n w).length = n / 2 ∧ ∀ i, i < n / 2 → (magnitudes n w)[i]? =
      some ((((entry w.re i).mul (entry w.re i)).add ((entry w.im i).mul (entry w.im i))).sqrt.div (F64.ofNat n))) ∧
    ∀ (bitrev : List Nat) (cosT sinT buf : List F64), n ≠ 2 →
      analyze n bitrev cosT sinT buf =
        magnitudes n (butterflyPasses n cosT sinT (permute bitrev (windowed n buf)))

/-- Rule R246.  One butterfly gives its two entries the sum and the difference with the twiddled entry, and every other
entry stays.  A group of `2 * half` entries is `half` butterflies, the `d`-th on the entries `d` and `d + half` of the group
with table entry `d * step`.  A pass over `groups` groups has the stride `groups`.  The passes run with sizes 2, 4, …, N. -/
def Obligations.ButterflyPassesFollowTheLoopNest : Prop :=
  (∀ (cosT sinT : List F64) (j l k : Nat) (w : Working), j ≠ l → j < w.re.length → l < w.re.length →
    w.im.length = w.re.length →
    let w' := butterfly cosT sinT j l k w
    w'.re.length = w.re.length ∧ w'.im.length = w.im.length ∧ w.Twiddled cosT sinT j l k w' ∧
    ∀ i, i ≠ j → i ≠ l → entry w'.re i = entry w.re i ∧ entry w'.im i = entry w.im i) ∧
  (∀ (cosT sinT : List F64) (half step start : Nat) (w : Working), start + 2 * half ≤ w.re.length →
    w.im.length = w.re.length →
    let w' := butterflyGroup cosT sinT half step start w
    w'.re.length = w.re.length ∧ w'.im.length = w.im.length ∧
    (∀ d, d < half → w.Twiddled cosT sinT (start + d) (start + d + half) (d * step) w') ∧
    ∀ i, i < start ∨ start + 2 * half ≤ i → entry w'.re i = entry w.re i ∧ entry w'.im i = entry w.im i) ∧
  (∀ (cosT sinT : List F64) (half groups : Nat) (w : Working), 0 < half → w.re.length = groups * (2 * half) →
    w.im.length = w.re.length →
    let w' := butterflyPass (groups * (2 * half)) cosT sinT (2 * half) w
    w'.re.length = w.re.length ∧ w'.im.length = w.im.length ∧
    ∀ g d, g < groups → d < half →
      w.Twiddled cosT sinT (g * (2 * half) + d) (g * (2 * half) + d + half) (d * groups) w') ∧
  ∀ (cosT sinT : List F64) (bits : Nat) (w : Working), ∃ before : Nat → Working, before 0 = w ∧
    (∀ p, p < bits → before (p + 1) = butterflyPass (2 ^ bits) cosT sinT (2 ^ (p + 1)) (before p)) ∧
    butterflyPasses (2 ^ bits) cosT sinT w = before bits

/-- Rule R248: `N = 1` gives no magnitude, and `N = 2` gives the one magnitude 0 for every buffer; for a finite one the
rules R243 to R247 give it too.  (For a buffer that holds an infinity those rules give NaN, and R248 is followed: log entry
13.) -/
def Obligations.SmallTransformsGiveNothing : Prop :=
  (∀ buf : List F64, analyze 1 (bitrevTable 1) (cosTable 1) (sinTable 1) buf = []) ∧
  (∀ buf : List F64, analyze 2 (bitrevTable 2) (cosTable 2) (sinTable 2) buf = [F64.posZero]) ∧
  ∀ x y : F64, x.isFinite = true → y.isFinite = true →
    transform 2 (bitrevTable 2) (cosTable 2) (sinTable 2) [x, y] = [F64.posZero]

/-! ### Arithmetic -/

/-- Rule R13.  What a number stands for; the rounded quotient is a nearest integer, and the even one of two; rounding to
binary64 gives a nearest finite number, the one with an even fraction of two, or the infinity from half a unit in the
last place above the largest finite number on; and the sum, the difference, the product and the quotient of finite numbers
are the exact results rounded once, an exact sum of 0 being -0 only from two negative zeros. -/
def Obligations.RoundingIsToNearestEven : Prop :=
  (unitsPerOne = 2 ^ 1074 ∧ ∀ x : F64, x.unitsAbs =
    let expo := (x.bits.extractLsb' 52 11).toNat
    let frac := (x.bits.extractLsb' 0 52).toNat
    if expo = 0 then frac else (2 ^ 52 + frac) * 2 ^ (expo - 1)) ∧
  (∀ num den : Nat, 0 < den →
    let q := roundNearestEven num den
    2 * num ≤ 2 * (q * den) + den ∧ 2 * (q * den) ≤ 2 * num + den ∧
    (2 * num = 2 * (q * den) + den ∨ 2 * (q * den) = 2 * num + den → q % 2 = 0)) ∧
  (∀ (neg : Bool) (num den : Nat), 0 < den →
    let r := F64.round neg num den
    let distance := fun y : F64 => ((num : Int) - (y.unitsAbs * den : Nat)).natAbs
    r.sign = neg ∧
    (r = F64.inf neg ↔ (2 ^ 54 - 1) * 2 ^ 2044 * den ≤ num) ∧ (r.isFinite = true ∨ r = F64.inf neg) ∧
    (r.isFinite = true → ∀ y : F64, y.isFinite = true → y.unitsAbs ≠ r.unitsAbs →
      distance r ≤ distance y ∧ (distance r = distance y → r.magnitude % 2 = 0))) ∧
  ∀ a b : F64, a.isFinite = true → b.isFinite = true →
    let sum := a.units + b.units
    let difference := a.units - b.units
    a.add b = (if sum = 0 then F64.zero (a.sign && b.sign) else F64.round (sum < 0) sum.natAbs 1) ∧
    a.sub b =
      (if difference = 0 then F64.zero (a.sign && !b.sign) else F64.round (difference < 0) difference.natAbs 1) ∧
    a.mul b = F64.round (a.sign ^^ b.sign) (a.unitsAbs * b.unitsAbs) unitsPerOne ∧
    (b.unitsAbs ≠ 0 → a.div b = F64.round (a.sign ^^ b.sign) (a.unitsAbs * unitsPerOne) b.unitsAbs)

/-- Rule R15: the conversion of an integer below 2^53 is exact. -/
def Obligations.IntegerConversionIsExact : Prop :=
  ∀ n : Nat, n < 2 ^ 53 →
    (F64.ofNat n).isFinite = true ∧ (F64.ofNat n).sign = false ∧ (F64.ofNat n).unitsAbs = n * unitsPerOne

/-- Rule R14: the widening of a finite sample is exact, and narrowing gives the sample back. -/
def Obligations.WideningIsExact : Prop :=
  ∀ x : F32, x.magnitude < infMagnitude32 →
    x.widen.isFinite = true ∧ x.widen.sign = x.sign ∧ x.widen.unitsAbs = x.unitsAbs * unitsPerUnit32 ∧
    x.widen.narrow = x

/-- Rule R17, `SQRT`: the integer root is exact; the root of a finite number above 0 is a finite number that no other one
is nearer to (`4 * n` against the square of the sum compares the exact root with the number halfway), the one with an even
fraction of two; zeros keep their sign, and below 0 the root is a NaN. -/
def Obligations.SquareRootIsCorrectlyRounded : Prop :=
  (∀ n : Nat, natSqrt n * natSqrt n ≤ n ∧ n < (natSqrt n + 1) * (natSqrt n + 1)) ∧
  (∀ s : Bool, (F64.zero s).sqrt = F64.zero s) ∧
  ∀ x : F64, x.isFinite = true → x.unitsAbs ≠ 0 →
    (x.sign = true → x.sqrt.isNaN = true) ∧
    (x.sign = false →
      let r := x.sqrt
      let n := x.unitsAbs * unitsPerOne
      r.isFinite = true ∧ r.sign = false ∧
      ∀ y : F64, y.isFinite = true →
        let sum := r.unitsAbs + y.unitsAbs
        (r.unitsAbs < y.unitsAbs → 4 * n ≤ sum * sum ∧ (4 * n = sum * sum → r.magnitude % 2 = 0)) ∧
        (y.unitsAbs < r.unitsAbs → sum * sum ≤ 4 * n ∧ (sum * sum = 4 * n → r.magnitude % 2 = 0)))

/-- Rule R17, `FMOD`: the remainder of finite numbers is exact and has the sign of `x`. -/
def Obligations.RemainderIsExact : Prop :=
  ∀ x y : F64, x.isFinite = true → y.isFinite = true → y.unitsAbs ≠ 0 →
    (x.fmod y).isFinite = true ∧ (x.fmod y).sign = x.sign ∧ (x.fmod y).unitsAbs = x.unitsAbs % y.unitsAbs

/-! ### The machine -/

/-- Rule R50: the state after reset. -/
def Obligations.ResetState : Prop :=
  State.reset.cfg = Config.defaultConfig ∧ State.reset.pending = none ∧ State.reset.chanCount = 0 ∧
  State.reset.ch = [] ∧ State.reset.capture = false ∧ State.reset.N = 0 ∧ State.reset.ring = [] ∧
  State.reset.bitrev = [] ∧ State.reset.cosT = [] ∧ State.reset.sinT = [] ∧ State.reset.cursor = 0 ∧
  State.reset.frameCount = 0 ∧ State.reset.output = []

/-- The state after reset meets the invariant, its Config is valid and no envelope is negative (10_state.md sections 7 and
8).  The invariant's clauses on the ring's canonical form and on the queue are the model's own (log entries 9 and 1). -/
def Obligations.ResetMeetsTheInvariant : Prop :=
  State.reset.Inv ∧ State.reset.ConfigsValid ∧ State.reset.EnvelopesNotNegative

/-- Every step keeps the invariant (10_state.md sections 3, 4 and 8).  Its clauses on the ring's canonical form and on the
queue are the model's own (log entries 9 and 1). -/
def Obligations.StepKeepsTheInvariant : Prop := ∀ s t : State, s.Inv → step s = .next t → t.Inv

/-- 60_exceptions.md section 1: no transaction ever stops part way.  The one fault of the model is out of reach (log
entry 10). -/
def Obligations.NoTransactionStopsPartWay : Prop := ∀ s : State, s.Inv → ∃ t, step s = .next t
end

