-- ==== Sys2Proof/Laws/Float.lean ====
section
/-! SUPPORT. What each binary64 operation can answer: the parts of a packed number, that NaNs are exactly the free
values, and that nothing but a NaN operand or an invalid operation makes one. -/

namespace Sys2Proof

/-! ### Parts of a packed number -/

theorem F64.magnitude_lt (x : F64) : x.magnitude < 2 ^ 63 := Nat.mod_lt _ (by decide)

theorem F64.magnitude_ofParts (neg : Bool) {m : Nat} (h : m < 2 ^ 63) : (F64.ofParts neg m).magnitude = m := by
  cases neg <;> simp only [F64.ofParts, F64.magnitude, BitVec.toNat_ofNat] <;> norm_num <;> omega

theorem F64.sign_ofParts (neg : Bool) {m : Nat} (h : m < 2 ^ 63) : (F64.ofParts neg m).sign = neg := by
  cases neg <;> simp only [F64.ofParts, F64.sign, BitVec.msb_eq_decide, BitVec.toNat_ofNat] <;> norm_num <;> omega

theorem F64.ofParts_sign_magnitude (x : F64) : F64.ofParts x.sign x.magnitude = x := by
  rcases x with ⟨b⟩
  have hb := b.isLt
  simp only [F64.ofParts, F64.sign, F64.magnitude, BitVec.msb_eq_decide, F64.mk.injEq]
  apply BitVec.eq_of_toNat_eq
  rw [BitVec.toNat_ofNat]
  split
  · rename_i h
    have := of_decide_eq_true h
    omega
  · rename_i h
    have : ¬ 2 ^ 63 ≤ b.toNat := fun hc => h (decide_eq_true hc)
    omega

@[simp] theorem F64.isNaN_nanOf (src : NanSource) (a b : F64) : (F64.nanOf src a b).isNaN = true := by
  simp only [F64.nanOf]
  split
  · assumption
  · decide

theorem F64.isNaN_ofParts (neg : Bool) {m : Nat} (h : m ≤ infMagnitude) : (F64.ofParts neg m).isNaN = false := by
  have h' : m < 2 ^ 63 := lt_of_le_of_lt h (by decide)
  simp [F64.isNaN, F64.magnitude_ofParts neg h', h]

@[simp] theorem F64.isNaN_round (neg : Bool) (num den : Nat) : (F64.round neg num den).isNaN = false :=
  F64.isNaN_ofParts neg (min_le_right _ _)

@[simp] theorem F64.isNaN_inf (neg : Bool) : (F64.inf neg).isNaN = false := F64.isNaN_ofParts neg le_rfl

@[simp] theorem F64.isNaN_zero (neg : Bool) : (F64.zero neg).isNaN = false := F64.isNaN_ofParts neg (Nat.zero_le _)

@[simp] theorem F64.isNaN_one : F64.one.isNaN = false := by decide

@[simp] theorem F64.isNaN_posZero : F64.posZero.isNaN = false := by decide

/-! ### The view of an operand -/

theorem F64.view_eq_nan_iff (x : F64) : x.view = .nan ↔ x.isNaN = true := by
  unfold F64.view
  split
  · simp_all
  · split <;> simp_all

theorem F64.view_of_nan {x : F64} (h : x.isNaN = true) : x.view = .nan := (F64.view_eq_nan_iff x).2 h

theorem F64.view_of_finite {x : F64} (h : x.isFinite = true) : x.view = .fin x.sign x.unitsAbs := by
  have hn : x.isNaN = false := by
    simp only [F64.isFinite, F64.isNaN, decide_eq_true_eq, decide_eq_false_iff_not] at *
    omega
  simp [F64.view, h, hn]

theorem F64.view_eq_fin {x : F64} {s : Bool} {n : Nat} (h : x.view = .fin s n) :
    x.isFinite = true ∧ s = x.sign ∧ n = x.unitsAbs := by
  unfold F64.view at h
  split at h
  · cases h
  · split at h
    · rename_i hf
      cases h
      exact ⟨hf, rfl, rfl⟩
    · cases h

/-! ### NaN in, NaN out -/

theorem F64.isNaN_add_left {a : F64} (b : F64) (h : a.isNaN = true) : (a.add b).isNaN = true := by
  simp [F64.add, F64.view_of_nan h]

theorem F64.isNaN_add_right (a : F64) {b : F64} (h : b.isNaN = true) : (a.add b).isNaN = true := by
  simp only [F64.add, F64.view_of_nan h]
  cases a.view <;> simp

theorem F64.isNaN_sub_left {a : F64} (b : F64) (h : a.isNaN = true) : (a.sub b).isNaN = true := by
  simp [F64.sub, F64.view_of_nan h]

theorem F64.isNaN_sub_right (a : F64) {b : F64} (h : b.isNaN = true) : (a.sub b).isNaN = true := by
  simp only [F64.sub, F64.view_of_nan h]
  cases a.view <;> simp

theorem F64.isNaN_mul_left {a : F64} (b : F64) (h : a.isNaN = true) : (a.mul b).isNaN = true := by
  simp [F64.mul, F64.view_of_nan h]

theorem F64.isNaN_mul_right (a : F64) {b : F64} (h : b.isNaN = true) : (a.mul b).isNaN = true := by
  simp only [F64.mul, F64.view_of_nan h]
  cases a.view <;> simp

theorem F64.isNaN_div_left {a : F64} (b : F64) (h : a.isNaN = true) : (a.div b).isNaN = true := by
  simp [F64.div, F64.view_of_nan h]

theorem F64.isNaN_div_right (a : F64) {b : F64} (h : b.isNaN = true) : (a.div b).isNaN = true := by
  simp only [F64.div, F64.view_of_nan h]
  cases a.view <;> simp

/-! ### Finite operands -/

@[simp] theorem F64.isNaN_addUnits (s : Bool) (m : Nat) (t : Bool) (n : Nat) :
    (F64.addUnits s m t n).isNaN = false := by
  simp only [F64.addUnits]
  split_ifs <;> simp only [F64.isNaN_zero, F64.isNaN_round]

theorem F64.add_of_finite {a b : F64} (ha : a.isFinite = true) (hb : b.isFinite = true) :
    a.add b = F64.addUnits a.sign a.unitsAbs b.sign b.unitsAbs := by
  simp [F64.add, F64.view_of_finite ha, F64.view_of_finite hb]

theorem F64.sub_of_finite {a b : F64} (ha : a.isFinite = true) (hb : b.isFinite = true) :
    a.sub b = F64.addUnits a.sign a.unitsAbs (!b.sign) b.unitsAbs := by
  simp [F64.sub, F64.view_of_finite ha, F64.view_of_finite hb]

theorem F64.mul_of_finite {a b : F64} (ha : a.isFinite = true) (hb : b.isFinite = true) :
    a.mul b = F64.round (a.sign ^^ b.sign) (a.unitsAbs * b.unitsAbs) unitsPerOne := by
  simp [F64.mul, F64.view_of_finite ha, F64.view_of_finite hb]

/-! ### Comparisons with a NaN are false (00_scope.md rule R18) -/

theorem F64.lt_of_nan_left {a : F64} (b : F64) (h : a.isNaN = true) : F64.lt a b = false := by simp [F64.lt, h]

theorem F64.lt_of_nan_right (a : F64) {b : F64} (h : b.isNaN = true) : F64.lt a b = false := by simp [F64.lt, h]

theorem F64.gt_of_nan_left {a : F64} (b : F64) (h : a.isNaN = true) : F64.gt a b = false :=
  F64.lt_of_nan_right b h

theorem F64.gt_of_nan_right (a : F64) {b : F64} (h : b.isNaN = true) : F64.gt a b = false :=
  F64.lt_of_nan_left a h

theorem F64.ge_of_nan_left {a : F64} (b : F64) (h : a.isNaN = true) : F64.ge a b = false := by simp [F64.ge, h]

/-! ### Free values lie where the spec says -/

theorem nanOut_inUnitRange : nanOut.inUnitRange = true := by
  simp only [nanOut]
  split
  · assumption
  · decide +kernel

theorem sampleRate_finite : sampleRate.isFinite = true := by
  simp only [sampleRate]
  split
  · simp_all
  · decide

theorem sampleRate_pos : F64.gt sampleRate F64.posZero = true := by
  simp only [sampleRate]
  split
  · simp_all
  · decide +kernel

end Sys2Proof
end

