-- ==== Sys2Proof/Laws/Channel.lean ====
section
/-! SUPPORT. What processing and updating a channel can do to each of its fields (41_channel_pipeline.md). -/

namespace Sys2Proof.Machine

/-! ### Stages -/

@[simp] theorem updateCoefficients_x1 (fs fc q : F64) (st : FilterStageState) :
    (updateCoefficients fs fc q st).x1 = st.x1 := rfl
@[simp] theorem updateCoefficients_x2 (fs fc q : F64) (st : FilterStageState) :
    (updateCoefficients fs fc q st).x2 = st.x2 := rfl
@[simp] theorem updateCoefficients_y1 (fs fc q : F64) (st : FilterStageState) :
    (updateCoefficients fs fc q st).y1 = st.y1 := rfl
@[simp] theorem updateCoefficients_y2 (fs fc q : F64) (st : FilterStageState) :
    (updateCoefficients fs fc q st).y2 = st.y2 := rfl

/-- With a finite history a stage gives the direct-form sum (40_filter_stage.md rule R155). -/
theorem stageOutput_of_finiteHistory {st : FilterStageState} (h : st.finiteHistory = true) (x : F64) :
    stageOutput st x = directForm st x := by simp [stageOutput, h]

/-- With an infinity or a NaN in its history a stage gives a NaN (40_filter_stage.md rule R157). -/
theorem isNaN_stageOutput {st : FilterStageState} (h : st.finiteHistory = false) (x : F64) :
    (stageOutput st x).isNaN = true := by
  simp only [stageOutput, h, Bool.false_or]
  split_ifs with hn
  · exact hn
  · exact F64.isNaN_nanOf _ _ _

/-- A NaN input makes the output a NaN, whatever the history (40_filter_stage.md rule R157). -/
theorem isNaN_stageOutput_of_input (st : FilterStageState) {x : F64} (h : x.isNaN = true) :
    (stageOutput st x).isNaN = true := by
  have hy : (directForm st x).isNaN = true :=
    F64.isNaN_sub_left _ (F64.isNaN_sub_left _ (F64.isNaN_add_left _ (F64.isNaN_add_left _ (F64.isNaN_mul_right _ h))))
  simp [stageOutput, hy]

/-- The cascade keeps the number of stages (40_filter_stage.md rule R158). -/
theorem length_cascade (stages : List FilterStageState) (v : F64) : (cascade stages v).1.length = stages.length := by
  induction stages generalizing v with
  | nil => rfl
  | cons st rest ih => simp [cascade, ih]

/-- A stage of the cascade changes only its history: whatever holds of the coefficients of every stage before holds
after (40_filter_stage.md rule R156). -/
theorem cascade_forall_coefficients {P : F64 → F64 → F64 → F64 → F64 → Prop} (stages : List FilterStageState) (v : F64)
    (h : ∀ st ∈ stages, P st.a0 st.a1 st.a2 st.b1 st.b2) :
    ∀ st ∈ (cascade stages v).1, P st.a0 st.a1 st.a2 st.b1 st.b2 := by
  induction stages generalizing v with
  | nil => simp [cascade]
  | cons first rest ih =>
    intro st hst
    simp only [cascade, List.mem_cons] at hst
    rcases hst with rfl | hst
    · exact h first (List.mem_cons_self ..)
    · exact ih _ (fun st' h' => h st' (List.mem_cons_of_mem _ h')) st hst

/-! ### processSample -/

@[simp] theorem processSample_phaseStep (cfg : ConfigRecord) (ch : ChannelState) (a : F64) :
    (processSample cfg ch a).channel.phaseStep = ch.phaseStep := rfl
@[simp] theorem processSample_atkCoef (cfg : ConfigRecord) (ch : ChannelState) (a : F64) :
    (processSample cfg ch a).channel.atkCoef = ch.atkCoef := rfl
@[simp] theorem processSample_relCoef (cfg : ConfigRecord) (ch : ChannelState) (a : F64) :
    (processSample cfg ch a).channel.relCoef = ch.relCoef := rfl
@[simp] theorem processSample_compRelCoef (cfg : ConfigRecord) (ch : ChannelState) (a : F64) :
    (processSample cfg ch a).channel.compRelCoef = ch.compRelCoef := rfl
@[simp] theorem processSample_S (cfg : ConfigRecord) (ch : ChannelState) (a : F64) :
    (processSample cfg ch a).channel.S = ch.S := rfl
@[simp] theorem processSample_phase (cfg : ConfigRecord) (ch : ChannelState) (a : F64) :
    (processSample cfg ch a).channel.phase = advancePhase ch.phase ch.phaseStep := rfl
@[simp] theorem processSample_rng (cfg : ConfigRecord) (ch : ChannelState) (a : F64) :
    (processSample cfg ch a).channel.rng = xorshift32 ch.rng := rfl

theorem processSample_stages_length (cfg : ConfigRecord) (ch : ChannelState) (a : F64) :
    (processSample cfg ch a).channel.stages.length = ch.stages.length := length_cascade _ _

/-! ### runChannel -/

theorem runChannel_nil (cfg : ConfigRecord) (ch : ChannelState) : runChannel cfg ch [] = ⟨ch, [], []⟩ := rfl

theorem runChannel_cons (cfg : ConfigRecord) (ch : ChannelState) (x : F32) (xs : List F32) :
    runChannel cfg ch (x :: xs) =
      let r := processSample cfg ch x.widen
      let rest := runChannel cfg r.channel xs
      ⟨rest.channel, r.output.narrow :: rest.outputs, r.modulated :: rest.modulated⟩ := rfl

theorem length_runChannel_outputs (cfg : ConfigRecord) (ch : ChannelState) (xs : List F32) :
    (runChannel cfg ch xs).outputs.length = xs.length := by
  induction xs generalizing ch with
  | nil => rfl
  | cons x xs ih => simp [runChannel_cons, ih]

theorem length_runChannel_modulated (cfg : ConfigRecord) (ch : ChannelState) (xs : List F32) :
    (runChannel cfg ch xs).modulated.length = xs.length := by
  induction xs generalizing ch with
  | nil => rfl
  | cons x xs ih => simp [runChannel_cons, ih]

/-- What one sample keeps of a channel, a whole block keeps. -/
theorem runChannel_induct {P : ChannelState → Prop} (cfg : ConfigRecord)
    (step : ∀ ch a, P ch → P (processSample cfg ch a).channel) (ch : ChannelState) (xs : List F32) (h : P ch) :
    P (runChannel cfg ch xs).channel := by
  induction xs generalizing ch with
  | nil => exact h
  | cons x xs ih => exact ih _ (step ch _ h)

/-- What holds of every output of one sample holds of every output of a block. -/
theorem runChannel_forall_outputs {P : F32 → Prop} (cfg : ConfigRecord)
    (step : ∀ ch a, P (processSample cfg ch a).output.narrow) (ch : ChannelState) (xs : List F32) :
    ∀ y ∈ (runChannel cfg ch xs).outputs, P y := by
  induction xs generalizing ch with
  | nil => simp [runChannel_nil]
  | cons x xs ih =>
    intro y hy
    simp only [runChannel_cons, List.mem_cons] at hy
    rcases hy with rfl | hy
    · exact step ch _
    · exact ih _ y hy

/-! ### Updating a channel -/

@[simp] theorem resizeStages_S (ch : ChannelState) (n : Nat) : (resizeStages ch n).S = n := rfl

theorem length_resizeStages {ch : ChannelState} (h : ch.stages.length = ch.S) (n : Nat) :
    (resizeStages ch n).stages.length = n := by
  simp only [resizeStages]
  split_ifs
  · rw [List.length_append, List.length_replicate]
    omega
  · rw [List.length_take]
    omega
  · omega

@[simp] theorem updateChannel_phase (fs : F64) (c : ConfigRecord) (ch : ChannelState) :
    (updateChannel fs c ch).phase = ch.phase := rfl
@[simp] theorem updateChannel_env (fs : F64) (c : ConfigRecord) (ch : ChannelState) :
    (updateChannel fs c ch).env = ch.env := rfl
@[simp] theorem updateChannel_compEnv (fs : F64) (c : ConfigRecord) (ch : ChannelState) :
    (updateChannel fs c ch).compEnv = ch.compEnv := rfl
@[simp] theorem updateChannel_rng (fs : F64) (c : ConfigRecord) (ch : ChannelState) :
    (updateChannel fs c ch).rng = ch.rng := rfl
@[simp] theorem updateChannel_S (fs : F64) (c : ConfigRecord) (ch : ChannelState) :
    (updateChannel fs c ch).S = stageCount c.stages := rfl
@[simp] theorem updateChannel_phaseStep (fs : F64) (c : ConfigRecord) (ch : ChannelState) :
    (updateChannel fs c ch).phaseStep = phaseStepOf fs c.freqRatio := rfl
@[simp] theorem updateChannel_atkCoef (fs : F64) (c : ConfigRecord) (ch : ChannelState) :
    (updateChannel fs c ch).atkCoef = envelopeCoefficient fs c.freqRatio c.attackTime := rfl
@[simp] theorem updateChannel_relCoef (fs : F64) (c : ConfigRecord) (ch : ChannelState) :
    (updateChannel fs c ch).relCoef = envelopeCoefficient fs c.freqRatio c.releaseTime := rfl
@[simp] theorem updateChannel_compRelCoef (fs : F64) (c : ConfigRecord) (ch : ChannelState) :
    (updateChannel fs c ch).compRelCoef = compressorCoefficient fs c.compReleaseTime := rfl

theorem updateChannel_stages (fs : F64) (c : ConfigRecord) (ch : ChannelState) :
    (updateChannel fs c ch).stages =
      (resizeStages ch (stageCount c.stages)).stages.map (updateCoefficients fs c.cutoff c.q) := rfl

end Sys2Proof.Machine
end

