-- ==== Sys2Proof/Laws/Decode.lean ====
section
/-! SUPPORT. The parts of decoding against the parts of encoding: bytes and words, words and slots, the header's fields,
the opcodes.  Each pair is inverse in both directions. -/

namespace Sys2Proof

/-! ### Well-formedness as propositions -/

theorem isBlock_iff (c : Nat) (xs : List F32) : isBlock c xs = true ↔ c ≤ 32 ∧ xs.length = c * 128 := by
  unfold isBlock
  rw [Bool.and_eq_true, decide_eq_true_eq, beq_iff_eq]
  exact Iff.rfl

theorem isMagnitudeCount_iff (n : Nat) : isMagnitudeCount n = true ↔ 2 * n ≤ 32768 ∧ n &&& (n - 1) = 0 := by
  unfold isMagnitudeCount
  rw [Bool.and_eq_true, decide_eq_true_eq, beq_iff_eq]
  exact Iff.rfl

/-! ### Bytes and words (20_memory.md rule R85) -/

theorem joinBytes_splitWord (w : Word) :
    w.extractLsb' 24 8 ++ w.extractLsb' 16 8 ++ w.extractLsb' 8 8 ++ w.extractLsb' 0 8 = w := by
  ext i hi
  simp only [BitVec.getElem_append, BitVec.getElem_extractLsb']
  split_ifs <;> rw [← BitVec.getLsbD_eq_getElem] <;> congr 1 <;> omega

theorem splitWord_joinBytes (b0 b1 b2 b3 : Byte) : bytesOfWord (b3 ++ b2 ++ b1 ++ b0) = [b0, b1, b2, b3] := by
  simp only [bytesOfWord, List.cons.injEq, and_true]
  refine ⟨?_, ?_, ?_, ?_⟩ <;> ext i hi <;>
    simp only [BitVec.getElem_extractLsb', BitVec.getLsbD_append] <;>
    split_ifs <;> first | omega | (rw [← BitVec.getLsbD_eq_getElem]; congr 1; omega)

theorem wordsOfBytes_bytesOfWords (ws : List Word) : wordsOfBytes (ws.flatMap bytesOfWord) = some ws := by
  induction ws with
  | nil => rfl
  | cons w rest ih =>
    simp only [List.flatMap_cons, bytesOfWord, List.cons_append, List.nil_append, wordsOfBytes, ih, Option.map_some,
      joinBytes_splitWord]

theorem bytesOfWords_of_wordsOfBytes {bytes : List Byte} {ws : List Word} (h : wordsOfBytes bytes = some ws) :
    bytes = ws.flatMap bytesOfWord := by
  induction bytes using wordsOfBytes.induct generalizing ws with
  | case1 =>
    simp only [wordsOfBytes, Option.some.injEq] at h
    subst h
    rfl
  | case2 b0 b1 b2 b3 rest ih =>
    simp only [wordsOfBytes, Option.map_eq_some_iff] at h
    obtain ⟨ws', hws', rfl⟩ := h
    rw [List.flatMap_cons, splitWord_joinBytes, ← ih hws']
    rfl
  | case3 bytes h1 h2 =>
    rcases bytes with _ | ⟨b0, _ | ⟨b1, _ | ⟨b2, _ | ⟨b3, rest⟩⟩⟩⟩
    · exact absurd rfl h1
    · simp [wordsOfBytes] at h
    · simp [wordsOfBytes] at h
    · simp [wordsOfBytes] at h
    · exact absurd rfl (h2 b0 b1 b2 b3 rest)

/-! ### Words and slots (30_encoding.md rule R127) -/

theorem joinWords_splitSlot (x : Word64) : x.extractLsb' 32 32 ++ x.extractLsb' 0 32 = x := by
  ext i hi
  simp only [BitVec.getElem_append, BitVec.getElem_extractLsb']
  split_ifs <;> rw [← BitVec.getLsbD_eq_getElem] <;> congr 1 <;> omega

theorem splitSlot_joinWords (lo hi : Word) : wordsOfSlot (hi ++ lo) = [lo, hi] := by
  simp only [wordsOfSlot, List.cons.injEq, and_true]
  refine ⟨?_, ?_⟩ <;> ext i hi' <;>
    simp only [BitVec.getElem_extractLsb', BitVec.getLsbD_append] <;>
    split_ifs <;> first | omega | (rw [← BitVec.getLsbD_eq_getElem]; congr 1; omega)

theorem slotsOfWords_wordsOfSlots (xs : List Word64) : slotsOfWords (xs.flatMap wordsOfSlot) = some xs := by
  induction xs with
  | nil => rfl
  | cons x rest ih =>
    simp only [List.flatMap_cons, wordsOfSlot, List.cons_append, List.nil_append, slotsOfWords, ih, Option.map_some,
      joinWords_splitSlot]

theorem wordsOfSlots_of_slotsOfWords {ws : List Word} {xs : List Word64} (h : slotsOfWords ws = some xs) :
    ws = xs.flatMap wordsOfSlot := by
  induction ws using slotsOfWords.induct generalizing xs with
  | case1 =>
    simp only [slotsOfWords, Option.some.injEq] at h
    subst h
    rfl
  | case2 lo hi rest ih =>
    simp only [slotsOfWords, Option.map_eq_some_iff] at h
    obtain ⟨xs', hxs', rfl⟩ := h
    rw [List.flatMap_cons, splitSlot_joinWords, ← ih hxs']
    rfl
  | case3 ws h1 h2 =>
    rcases ws with _ | ⟨w0, _ | ⟨w1, rest⟩⟩
    · exact absurd rfl h1
    · simp [slotsOfWords] at h
    · exact absurd rfl (h2 w0 w1 rest)

theorem length_wordsOfSlots (xs : List Word64) : (xs.flatMap wordsOfSlot).length = 2 * xs.length := by
  induction xs with
  | nil => rfl
  | cons x rest ih => simp only [List.flatMap_cons, wordsOfSlot, List.length_append, ih, List.length_cons]; simp; omega

/-! ### The header (30_encoding.md rule R112) -/

theorem headerOpcode_headerWord (kind : Kind) (len : Nat) : headerOpcode (headerWord kind len) = kind.opcode := by
  ext i hi
  simp only [headerOpcode, headerWord, BitVec.getElem_extractLsb', BitVec.getLsbD_append]
  split_ifs <;> first | omega | (rw [← BitVec.getLsbD_eq_getElem]; congr 1; omega)

theorem headerReserved_headerWord (kind : Kind) (len : Nat) : headerReserved (headerWord kind len) = 0 := by
  ext i hi
  simp only [headerReserved, headerWord, BitVec.getElem_extractLsb', BitVec.getLsbD_append]
  split_ifs <;> first | omega | simp

theorem headerLen_headerWord (kind : Kind) {len : Nat} (h : len < 2 ^ 16) : headerLen (headerWord kind len) = len := by
  have : (headerWord kind len).extractLsb' 16 16 = BitVec.ofNat 16 len := by
    ext i hi
    simp only [headerWord, BitVec.getElem_extractLsb', BitVec.getLsbD_append]
    split_ifs <;> first | omega | (rw [← BitVec.getLsbD_eq_getElem]; congr 1; omega)
  simp only [headerLen, highHalf, this, BitVec.toNat_ofNat, Nat.mod_eq_of_lt h]

/-- A header is its three fields. -/
theorem header_eq_of_fields {h : Word} {kind : Kind} (hop : headerOpcode h = kind.opcode) (hrsv : headerReserved h = 0) :
    h = headerWord kind (headerLen h) := by
  have key : h.extractLsb' 16 16 ++ h.extractLsb' 8 8 ++ h.extractLsb' 0 8 = h := by
    ext i hi
    simp only [BitVec.getElem_append, BitVec.getElem_extractLsb']
    split_ifs <;> rw [← BitVec.getLsbD_eq_getElem] <;> congr 1 <;> omega
  simp only [headerOpcode, headerReserved] at hop hrsv
  rw [hop, hrsv] at key
  simp only [headerWord, headerLen, highHalf, BitVec.ofNat_toNat, BitVec.setWidth_eq]
  exact key.symm

theorem kindOfOpcode_opcode (kind : Kind) : kindOfOpcode kind.opcode = some kind := by cases kind <;> decide

theorem opcode_of_kindOfOpcode {opc : Byte} {kind : Kind} (h : kindOfOpcode opc = some kind) : opc = kind.opcode := by
  simp only [kindOfOpcode] at h
  split_ifs at h <;> cases h <;> assumption

/-! ### Word 1 of a block (30_encoding.md rule R120) -/

theorem lowHalf_ofNat {c : Nat} (h : c < 2 ^ 16) : lowHalf (BitVec.ofNat 32 c) = c := by
  simp only [lowHalf, BitVec.extractLsb'_toNat, BitVec.toNat_ofNat, Nat.shiftRight_zero]
  omega

theorem highHalf_ofNat {c : Nat} (h : c < 2 ^ 16) : highHalf (BitVec.ofNat 32 c) = 0 := by
  simp only [highHalf, BitVec.extractLsb'_toNat, BitVec.toNat_ofNat, Nat.shiftRight_eq_div_pow]
  omega

theorem word_eq_ofNat_lowHalf {w : Word} (h : highHalf w = 0) : w = BitVec.ofNat 32 (lowHalf w) := by
  apply BitVec.eq_of_toNat_eq
  have hw := w.isLt
  simp only [highHalf, lowHalf, BitVec.extractLsb'_toNat, BitVec.toNat_ofNat,
    Nat.shiftRight_eq_div_pow] at h ⊢
  omega

/-! ### Samples and magnitudes -/

theorem map_mk_map_bits32 (xs : List F32) : (xs.map F32.bits).map F32.mk = xs := by
  simp only [List.map_map]
  exact List.map_id _

theorem map_bits_map_mk32 (ws : List Word) : (ws.map F32.mk).map F32.bits = ws := by
  simp only [List.map_map]
  exact List.map_id _

theorem map_mk_map_bits64 (xs : List F64) : (xs.map F64.bits).map F64.mk = xs := by
  simp only [List.map_map]
  exact List.map_id _

theorem map_bits_map_mk64 (ws : List Word64) : (ws.map F64.mk).map F64.bits = ws := by
  simp only [List.map_map]
  exact List.map_id _

end Sys2Proof
end

