-- ==== Sys2Proof/Laws/State.lean ====
section
/-! SUPPORT. One lemma per field per update of the state, so that no proof unfolds a record update. -/

namespace Sys2Proof.Machine

/-! ### `withPending` -/

@[simp] theorem State.withPending_cfg (s : State) (p : Option Control) : (s.withPending p).cfg = s.cfg := rfl
@[simp] theorem State.withPending_pending (s : State) (p : Option Control) : (s.withPending p).pending = p := rfl
@[simp] theorem State.withPending_chanCount (s : State) (p : Option Control) : (s.withPending p).chanCount = s.chanCount := rfl
@[simp] theorem State.withPending_ch (s : State) (p : Option Control) : (s.withPending p).ch = s.ch := rfl
@[simp] theorem State.withPending_capture (s : State) (p : Option Control) : (s.withPending p).capture = s.capture := rfl
@[simp] theorem State.withPending_N (s : State) (p : Option Control) : (s.withPending p).N = s.N := rfl
@[simp] theorem State.withPending_ring (s : State) (p : Option Control) : (s.withPending p).ring = s.ring := rfl
@[simp] theorem State.withPending_cursor (s : State) (p : Option Control) : (s.withPending p).cursor = s.cursor := rfl
@[simp] theorem State.withPending_bitrev (s : State) (p : Option Control) : (s.withPending p).bitrev = s.bitrev := rfl
@[simp] theorem State.withPending_cosT (s : State) (p : Option Control) : (s.withPending p).cosT = s.cosT := rfl
@[simp] theorem State.withPending_sinT (s : State) (p : Option Control) : (s.withPending p).sinT = s.sinT := rfl
@[simp] theorem State.withPending_frameCount (s : State) (p : Option Control) : (s.withPending p).frameCount = s.frameCount := rfl
@[simp] theorem State.withPending_output (s : State) (p : Option Control) : (s.withPending p).output = s.output := rfl
@[simp] theorem State.withPending_queue (s : State) (p : Option Control) : (s.withPending p).queue = s.queue := rfl

/-! ### `withCfg` -/

@[simp] theorem State.withCfg_cfg (s : State) (c : ConfigRecord) : (s.withCfg c).cfg = c := rfl
@[simp] theorem State.withCfg_pending (s : State) (c : ConfigRecord) : (s.withCfg c).pending = s.pending := rfl
@[simp] theorem State.withCfg_chanCount (s : State) (c : ConfigRecord) : (s.withCfg c).chanCount = s.chanCount := rfl
@[simp] theorem State.withCfg_ch (s : State) (c : ConfigRecord) : (s.withCfg c).ch = s.ch := rfl
@[simp] theorem State.withCfg_capture (s : State) (c : ConfigRecord) : (s.withCfg c).capture = s.capture := rfl
@[simp] theorem State.withCfg_N (s : State) (c : ConfigRecord) : (s.withCfg c).N = s.N := rfl
@[simp] theorem State.withCfg_ring (s : State) (c : ConfigRecord) : (s.withCfg c).ring = s.ring := rfl
@[simp] theorem State.withCfg_cursor (s : State) (c : ConfigRecord) : (s.withCfg c).cursor = s.cursor := rfl
@[simp] theorem State.withCfg_bitrev (s : State) (c : ConfigRecord) : (s.withCfg c).bitrev = s.bitrev := rfl
@[simp] theorem State.withCfg_cosT (s : State) (c : ConfigRecord) : (s.withCfg c).cosT = s.cosT := rfl
@[simp] theorem State.withCfg_sinT (s : State) (c : ConfigRecord) : (s.withCfg c).sinT = s.sinT := rfl
@[simp] theorem State.withCfg_frameCount (s : State) (c : ConfigRecord) : (s.withCfg c).frameCount = s.frameCount := rfl
@[simp] theorem State.withCfg_output (s : State) (c : ConfigRecord) : (s.withCfg c).output = s.output := rfl
@[simp] theorem State.withCfg_queue (s : State) (c : ConfigRecord) : (s.withCfg c).queue = s.queue := rfl

/-! ### `withChannels` -/

@[simp] theorem State.withChannels_cfg (s : State) (n : Nat) (l : List ChannelState) : (s.withChannels n l).cfg = s.cfg := rfl
@[simp] theorem State.withChannels_pending (s : State) (n : Nat) (l : List ChannelState) : (s.withChannels n l).pending = s.pending := rfl
@[simp] theorem State.withChannels_chanCount (s : State) (n : Nat) (l : List ChannelState) : (s.withChannels n l).chanCount = n := rfl
@[simp] theorem State.withChannels_ch (s : State) (n : Nat) (l : List ChannelState) : (s.withChannels n l).ch = l := rfl
@[simp] theorem State.withChannels_capture (s : State) (n : Nat) (l : List ChannelState) : (s.withChannels n l).capture = s.capture := rfl
@[simp] theorem State.withChannels_N (s : State) (n : Nat) (l : List ChannelState) : (s.withChannels n l).N = s.N := rfl
@[simp] theorem State.withChannels_ring (s : State) (n : Nat) (l : List ChannelState) : (s.withChannels n l).ring = s.ring := rfl
@[simp] theorem State.withChannels_cursor (s : State) (n : Nat) (l : List ChannelState) : (s.withChannels n l).cursor = s.cursor := rfl
@[simp] theorem State.withChannels_bitrev (s : State) (n : Nat) (l : List ChannelState) : (s.withChannels n l).bitrev = s.bitrev := rfl
@[simp] theorem State.withChannels_cosT (s : State) (n : Nat) (l : List ChannelState) : (s.withChannels n l).cosT = s.cosT := rfl
@[simp] theorem State.withChannels_sinT (s : State) (n : Nat) (l : List ChannelState) : (s.withChannels n l).sinT = s.sinT := rfl
@[simp] theorem State.withChannels_frameCount (s : State) (n : Nat) (l : List ChannelState) : (s.withChannels n l).frameCount = s.frameCount := rfl
@[simp] theorem State.withChannels_output (s : State) (n : Nat) (l : List ChannelState) : (s.withChannels n l).output = s.output := rfl
@[simp] theorem State.withChannels_queue (s : State) (n : Nat) (l : List ChannelState) : (s.withChannels n l).queue = s.queue := rfl

/-! ### `withAnalyzer` -/

@[simp] theorem State.withAnalyzer_cfg (s : State) (b : Bool) (n : Nat) (r : List Nat) (c : List F64) (d : List F64) : (s.withAnalyzer b n r c d).cfg = s.cfg := rfl
@[simp] theorem State.withAnalyzer_pending (s : State) (b : Bool) (n : Nat) (r : List Nat) (c : List F64) (d : List F64) : (s.withAnalyzer b n r c d).pending = s.pending := rfl
@[simp] theorem State.withAnalyzer_chanCount (s : State) (b : Bool) (n : Nat) (r : List Nat) (c : List F64) (d : List F64) : (s.withAnalyzer b n r c d).chanCount = s.chanCount := rfl
@[simp] theorem State.withAnalyzer_ch (s : State) (b : Bool) (n : Nat) (r : List Nat) (c : List F64) (d : List F64) : (s.withAnalyzer b n r c d).ch = s.ch := rfl
@[simp] theorem State.withAnalyzer_capture (s : State) (b : Bool) (n : Nat) (r : List Nat) (c : List F64) (d : List F64) : (s.withAnalyzer b n r c d).capture = b := rfl
@[simp] theorem State.withAnalyzer_N (s : State) (b : Bool) (n : Nat) (r : List Nat) (c : List F64) (d : List F64) : (s.withAnalyzer b n r c d).N = n := rfl
@[simp] theorem State.withAnalyzer_ring (s : State) (b : Bool) (n : Nat) (r : List Nat) (c : List F64) (d : List F64) : (s.withAnalyzer b n r c d).ring = [] := rfl
@[simp] theorem State.withAnalyzer_cursor (s : State) (b : Bool) (n : Nat) (r : List Nat) (c : List F64) (d : List F64) : (s.withAnalyzer b n r c d).cursor = 0 := rfl
@[simp] theorem State.withAnalyzer_bitrev (s : State) (b : Bool) (n : Nat) (r : List Nat) (c : List F64) (d : List F64) : (s.withAnalyzer b n r c d).bitrev = r := rfl
@[simp] theorem State.withAnalyzer_cosT (s : State) (b : Bool) (n : Nat) (r : List Nat) (c : List F64) (d : List F64) : (s.withAnalyzer b n r c d).cosT = c := rfl
@[simp] theorem State.withAnalyzer_sinT (s : State) (b : Bool) (n : Nat) (r : List Nat) (c : List F64) (d : List F64) : (s.withAnalyzer b n r c d).sinT = d := rfl
@[simp] theorem State.withAnalyzer_frameCount (s : State) (b : Bool) (n : Nat) (r : List Nat) (c : List F64) (d : List F64) : (s.withAnalyzer b n r c d).frameCount = s.frameCount := rfl
@[simp] theorem State.withAnalyzer_output (s : State) (b : Bool) (n : Nat) (r : List Nat) (c : List F64) (d : List F64) : (s.withAnalyzer b n r c d).output = s.output := rfl
@[simp] theorem State.withAnalyzer_queue (s : State) (b : Bool) (n : Nat) (r : List Nat) (c : List F64) (d : List F64) : (s.withAnalyzer b n r c d).queue = s.queue := rfl

/-! ### `withRing` -/

@[simp] theorem State.withRing_cfg (s : State) (m : Memory) (k : Nat) : (s.withRing m k).cfg = s.cfg := rfl
@[simp] theorem State.withRing_pending (s : State) (m : Memory) (k : Nat) : (s.withRing m k).pending = s.pending := rfl
@[simp] theorem State.withRing_chanCount (s : State) (m : Memory) (k : Nat) : (s.withRing m k).chanCount = s.chanCount := rfl
@[simp] theorem State.withRing_ch (s : State) (m : Memory) (k : Nat) : (s.withRing m k).ch = s.ch := rfl
@[simp] theorem State.withRing_capture (s : State) (m : Memory) (k : Nat) : (s.withRing m k).capture = s.capture := rfl
@[simp] theorem State.withRing_N (s : State) (m : Memory) (k : Nat) : (s.withRing m k).N = s.N := rfl
@[simp] theorem State.withRing_ring (s : State) (m : Memory) (k : Nat) : (s.withRing m k).ring = m := rfl
@[simp] theorem State.withRing_cursor (s : State) (m : Memory) (k : Nat) : (s.withRing m k).cursor = k := rfl
@[simp] theorem State.withRing_bitrev (s : State) (m : Memory) (k : Nat) : (s.withRing m k).bitrev = s.bitrev := rfl
@[simp] theorem State.withRing_cosT (s : State) (m : Memory) (k : Nat) : (s.withRing m k).cosT = s.cosT := rfl
@[simp] theorem State.withRing_sinT (s : State) (m : Memory) (k : Nat) : (s.withRing m k).sinT = s.sinT := rfl
@[simp] theorem State.withRing_frameCount (s : State) (m : Memory) (k : Nat) : (s.withRing m k).frameCount = s.frameCount := rfl
@[simp] theorem State.withRing_output (s : State) (m : Memory) (k : Nat) : (s.withRing m k).output = s.output := rfl
@[simp] theorem State.withRing_queue (s : State) (m : Memory) (k : Nat) : (s.withRing m k).queue = s.queue := rfl

/-! ### `withFrameCount` -/

@[simp] theorem State.withFrameCount_cfg (s : State) (k : Nat) : (s.withFrameCount k).cfg = s.cfg := rfl
@[simp] theorem State.withFrameCount_pending (s : State) (k : Nat) : (s.withFrameCount k).pending = s.pending := rfl
@[simp] theorem State.withFrameCount_chanCount (s : State) (k : Nat) : (s.withFrameCount k).chanCount = s.chanCount := rfl
@[simp] theorem State.withFrameCount_ch (s : State) (k : Nat) : (s.withFrameCount k).ch = s.ch := rfl
@[simp] theorem State.withFrameCount_capture (s : State) (k : Nat) : (s.withFrameCount k).capture = s.capture := rfl
@[simp] theorem State.withFrameCount_N (s : State) (k : Nat) : (s.withFrameCount k).N = s.N := rfl
@[simp] theorem State.withFrameCount_ring (s : State) (k : Nat) : (s.withFrameCount k).ring = s.ring := rfl
@[simp] theorem State.withFrameCount_cursor (s : State) (k : Nat) : (s.withFrameCount k).cursor = s.cursor := rfl
@[simp] theorem State.withFrameCount_bitrev (s : State) (k : Nat) : (s.withFrameCount k).bitrev = s.bitrev := rfl
@[simp] theorem State.withFrameCount_cosT (s : State) (k : Nat) : (s.withFrameCount k).cosT = s.cosT := rfl
@[simp] theorem State.withFrameCount_sinT (s : State) (k : Nat) : (s.withFrameCount k).sinT = s.sinT := rfl
@[simp] theorem State.withFrameCount_frameCount (s : State) (k : Nat) : (s.withFrameCount k).frameCount = k := rfl
@[simp] theorem State.withFrameCount_output (s : State) (k : Nat) : (s.withFrameCount k).output = s.output := rfl
@[simp] theorem State.withFrameCount_queue (s : State) (k : Nat) : (s.withFrameCount k).queue = s.queue := rfl

/-! ### `withOutput` -/

@[simp] theorem State.withOutput_cfg (s : State) (o : List Emission) : (s.withOutput o).cfg = s.cfg := rfl
@[simp] theorem State.withOutput_pending (s : State) (o : List Emission) : (s.withOutput o).pending = s.pending := rfl
@[simp] theorem State.withOutput_chanCount (s : State) (o : List Emission) : (s.withOutput o).chanCount = s.chanCount := rfl
@[simp] theorem State.withOutput_ch (s : State) (o : List Emission) : (s.withOutput o).ch = s.ch := rfl
@[simp] theorem State.withOutput_capture (s : State) (o : List Emission) : (s.withOutput o).capture = s.capture := rfl
@[simp] theorem State.withOutput_N (s : State) (o : List Emission) : (s.withOutput o).N = s.N := rfl
@[simp] theorem State.withOutput_ring (s : State) (o : List Emission) : (s.withOutput o).ring = s.ring := rfl
@[simp] theorem State.withOutput_cursor (s : State) (o : List Emission) : (s.withOutput o).cursor = s.cursor := rfl
@[simp] theorem State.withOutput_bitrev (s : State) (o : List Emission) : (s.withOutput o).bitrev = s.bitrev := rfl
@[simp] theorem State.withOutput_cosT (s : State) (o : List Emission) : (s.withOutput o).cosT = s.cosT := rfl
@[simp] theorem State.withOutput_sinT (s : State) (o : List Emission) : (s.withOutput o).sinT = s.sinT := rfl
@[simp] theorem State.withOutput_frameCount (s : State) (o : List Emission) : (s.withOutput o).frameCount = s.frameCount := rfl
@[simp] theorem State.withOutput_output (s : State) (o : List Emission) : (s.withOutput o).output = o := rfl
@[simp] theorem State.withOutput_queue (s : State) (o : List Emission) : (s.withOutput o).queue = s.queue := rfl

/-! ### `withQueue` -/

@[simp] theorem State.withQueue_cfg (s : State) (q : List Transaction) : (s.withQueue q).cfg = s.cfg := rfl
@[simp] theorem State.withQueue_pending (s : State) (q : List Transaction) : (s.withQueue q).pending = s.pending := rfl
@[simp] theorem State.withQueue_chanCount (s : State) (q : List Transaction) : (s.withQueue q).chanCount = s.chanCount := rfl
@[simp] theorem State.withQueue_ch (s : State) (q : List Transaction) : (s.withQueue q).ch = s.ch := rfl
@[simp] theorem State.withQueue_capture (s : State) (q : List Transaction) : (s.withQueue q).capture = s.capture := rfl
@[simp] theorem State.withQueue_N (s : State) (q : List Transaction) : (s.withQueue q).N = s.N := rfl
@[simp] theorem State.withQueue_ring (s : State) (q : List Transaction) : (s.withQueue q).ring = s.ring := rfl
@[simp] theorem State.withQueue_cursor (s : State) (q : List Transaction) : (s.withQueue q).cursor = s.cursor := rfl
@[simp] theorem State.withQueue_bitrev (s : State) (q : List Transaction) : (s.withQueue q).bitrev = s.bitrev := rfl
@[simp] theorem State.withQueue_cosT (s : State) (q : List Transaction) : (s.withQueue q).cosT = s.cosT := rfl
@[simp] theorem State.withQueue_sinT (s : State) (q : List Transaction) : (s.withQueue q).sinT = s.sinT := rfl
@[simp] theorem State.withQueue_frameCount (s : State) (q : List Transaction) : (s.withQueue q).frameCount = s.frameCount := rfl
@[simp] theorem State.withQueue_output (s : State) (q : List Transaction) : (s.withQueue q).output = s.output := rfl
@[simp] theorem State.withQueue_queue (s : State) (q : List Transaction) : (s.withQueue q).queue = q := rfl

end Sys2Proof.Machine
end

