-- ==== Sys2Proof/Laws/Memory.lean ====
section
/-! SUPPORT. The ring's storage: every write keeps the canonical form, a read after a write gives the value written,
and a write leaves every other entry alone (20_memory.md rule R82). -/

namespace Sys2Proof.Machine

theorem Memory.wfFrom_mono {low low' : Nat} {m : Memory} (h : low' ≤ low) (hm : Memory.wfFrom low m = true) :
    Memory.wfFrom low' m = true := by
  cases m with
  | nil => rfl
  | cons c rest =>
    simp only [Memory.wfFrom, Bool.and_eq_true, decide_eq_true_eq] at hm ⊢
    exact ⟨⟨h.trans hm.1.1, hm.1.2⟩, hm.2⟩

theorem Memory.lookup_below {low : Nat} {m : Memory} (hm : Memory.wfFrom low m = true) {i : Nat} (hi : i < low) :
    m.lookup i = F64.posZero := by
  induction m generalizing low with
  | nil => rfl
  | cons c rest ih =>
    rcases c with ⟨j, w⟩
    simp only [Memory.wfFrom, Bool.and_eq_true, decide_eq_true_eq] at hm
    have hne : i ≠ j := by omega
    simp only [Memory.lookup, hne, if_false]
    exact ih hm.2 (by omega)

theorem Memory.wfFrom_store {low : Nat} {m : Memory} (hm : Memory.wfFrom low m = true) {i : Nat} (hi : low ≤ i)
    (v : F64) : Memory.wfFrom low (m.store i v) = true := by
  induction m generalizing low with
  | nil =>
    simp only [Memory.store]
    split
    · rfl
    · simp_all [Memory.wfFrom]
  | cons c rest ih =>
    rcases c with ⟨j, w⟩
    simp only [Memory.wfFrom, Bool.and_eq_true, decide_eq_true_eq] at hm
    obtain ⟨⟨hj, hw⟩, hrest⟩ := hm
    by_cases hlt : i < j
    · by_cases hv : v = F64.posZero
      · simp only [Memory.store, if_pos hlt, if_pos hv, Memory.wfFrom]
        simp_all
      · have : i + 1 ≤ j := hlt
        simp only [Memory.store, if_pos hlt, if_neg hv, Memory.wfFrom]
        simp_all
    · by_cases heq : i = j
      · subst heq
        by_cases hv : v = F64.posZero
        · simp only [Memory.store, if_neg hlt, if_true, if_pos hv]
          exact Memory.wfFrom_mono (by omega) hrest
        · simp only [Memory.store, if_neg hlt, if_true, if_neg hv, Memory.wfFrom]
          simp_all
      · simp only [Memory.store, if_neg hlt, if_neg heq, Memory.wfFrom]
        have := ih hrest (by omega)
        simp_all

theorem Memory.wf_store {m : Memory} (hm : m.wf = true) (i : Nat) (v : F64) : (m.store i v).wf = true :=
  Memory.wfFrom_store hm (Nat.zero_le i) v

theorem Memory.lookup_store {low : Nat} {m : Memory} (hm : Memory.wfFrom low m = true) (i : Nat) (v : F64) (k : Nat) :
    (m.store i v).lookup k = if k = i then v else m.lookup k := by
  induction m generalizing low with
  | nil =>
    by_cases hv : v = F64.posZero
    · simp [Memory.store, hv, Memory.lookup]
    · simp [Memory.store, hv, Memory.lookup]
  | cons c rest ih =>
    rcases c with ⟨j, w⟩
    simp only [Memory.wfFrom, Bool.and_eq_true, decide_eq_true_eq] at hm
    obtain ⟨⟨hj, hw⟩, hrest⟩ := hm
    by_cases hlt : i < j
    · by_cases hv : v = F64.posZero
      · simp only [Memory.store, if_pos hlt, if_pos hv]
        by_cases hk : k = i
        · have hkj : k ≠ j := by omega
          rw [if_pos hk, hv]
          simp only [Memory.lookup, if_neg hkj]
          exact Memory.lookup_below hrest (by omega)
        · rw [if_neg hk]
      · simp [Memory.store, hlt, hv, Memory.lookup]
    · by_cases heq : i = j
      · subst heq
        by_cases hv : v = F64.posZero
        · simp only [Memory.store, if_neg hlt, if_true, if_pos hv, Memory.lookup]
          by_cases hk : k = i
          · rw [if_pos hk, hv]
            exact Memory.lookup_below hrest (by omega)
          · rw [if_neg hk, if_neg hk]
        · simp only [Memory.store, if_neg hlt, if_true, if_neg hv, Memory.lookup]
          by_cases hk : k = i <;> simp [hk]
      · simp only [Memory.store, if_neg hlt, if_neg heq, Memory.lookup]
        rw [ih hrest]
        by_cases hkj : k = j
        · have hki : k ≠ i := by omega
          rw [if_pos hkj, if_neg hki, if_pos hkj]
        · rw [if_neg hkj]
          by_cases hki : k = i
          · simp [hki]
          · simp [hki, hkj]

theorem Memory.lookup_store_same {m : Memory} (hm : m.wf = true) (i : Nat) (v : F64) :
    (m.store i v).lookup i = v := by simp [Memory.lookup_store hm]

theorem Memory.lookup_store_other {m : Memory} (hm : m.wf = true) {i k : Nat} (v : F64) (h : k ≠ i) :
    (m.store i v).lookup k = m.lookup k := by simp [Memory.lookup_store hm, h]

theorem Memory.within_store {n : Nat} {m : Memory} (hm : Memory.within n m = true) {i : Nat} (hi : i < n) (v : F64) :
    Memory.within n (m.store i v) = true := by
  induction m with
  | nil =>
    simp only [Memory.store]
    split <;> simp_all [Memory.within]
  | cons c rest ih =>
    rcases c with ⟨j, w⟩
    simp only [Memory.within, List.all_cons, Bool.and_eq_true, decide_eq_true_eq] at hm ih
    have ih' := ih hm.2
    simp only [Memory.store]
    split_ifs <;> simp only [Memory.within, List.all_cons, Bool.and_eq_true, decide_eq_true_eq]
    · exact hm
    · exact ⟨hi, hm⟩
    · exact hm.2
    · exact ⟨hi, hm.2⟩
    · exact ⟨hm.1, ih'⟩

/-- Equal contents are equal data. -/
theorem Memory.ext_of_wfFrom {low : Nat} {m m' : Memory} (hm : Memory.wfFrom low m = true)
    (hm' : Memory.wfFrom low m' = true) (h : ∀ i, m.lookup i = m'.lookup i) : m = m' := by
  induction m generalizing low m' with
  | nil =>
    cases m' with
    | nil => rfl
    | cons c rest =>
      rcases c with ⟨j, w⟩
      have := h j
      simp_all [Memory.lookup, Memory.wfFrom]
  | cons c rest ih =>
    rcases c with ⟨j, w⟩
    cases m' with
    | nil =>
      have := h j
      simp_all [Memory.lookup, Memory.wfFrom]
    | cons c' rest' =>
      rcases c' with ⟨j', w'⟩
      simp only [Memory.wfFrom, Bool.and_eq_true, decide_eq_true_eq, ne_eq] at hm hm'
      have hjj : j = j' := by
        rcases Nat.lt_trichotomy j j' with hlt | heq | hgt
        · have hj := h j
          have hz : Memory.lookup rest' j = F64.posZero := Memory.lookup_below hm'.2 (by omega)
          have hne : j ≠ j' := by omega
          simp only [Memory.lookup, if_true, if_neg hne, hz] at hj
          simp_all
        · exact heq
        · have hj := h j'
          have hz : Memory.lookup rest j' = F64.posZero := Memory.lookup_below hm.2 (by omega)
          have hne : j' ≠ j := by omega
          simp only [Memory.lookup, if_true, if_neg hne, hz] at hj
          simp_all
      subst hjj
      have hw : w = w' := by
        have hj := h j
        simpa [Memory.lookup] using hj
      subst hw
      have hrest : rest = rest' := by
        refine ih hm.2 hm'.2 (fun i => ?_)
        by_cases hij : i = j
        · subst hij
          rw [Memory.lookup_below hm.2 (by omega), Memory.lookup_below hm'.2 (by omega)]
        · have hi := h i
          simpa [Memory.lookup, hij] using hi
      rw [hrest]

/-- Everything `MemWrite` can do (20_memory.md rule R82): the index is in range and the one entry is replaced. -/
theorem memWrite_eq_some {s t : State} {i : Nat} {v : F64} (h : memWrite s i v = some t) :
    i < s.N ∧ t = s.withRing (s.ring.store i v) s.cursor := by
  simp only [memWrite] at h
  split at h
  · rename_i hi
    exact ⟨hi, (Option.some.inj h).symm⟩
  · cases h

theorem memRead_of_lt {s : State} {i : Nat} (h : i < s.N) : memRead s i = some (s.ring.lookup i) := by
  simp [memRead, h]

end Sys2Proof.Machine
end

