-- ==== Sys2Proof/Laws/Engine.lean ====
section
/-! SUPPORT. What each shared operation of the engine can do, said once: if it answers a state, that state is this one. -/

namespace Sys2Proof.Machine

/-! ### The mailbox and the output history -/

@[simp] theorem receiveControl_eq (d : Control) (s : State) : receiveControl d s = s.withPending (some d) := rfl

@[simp] theorem emit_eq (e : Emission) (s : State) : emit e s = s.withOutput (s.output ++ [e]) := rfl

@[simp] theorem discard_eq (s : State) : discard s = s := rfl

/-! ### The ring -/

/-- Everything `ringWrite` can do (43_engine.md rule R278). -/
theorem ringWrite_eq_some {v : F64} {s t : State} (h : ringWrite v s = some t) :
    s.cursor < s.N ∧ t = s.withRing (s.ring.store s.cursor v) ((s.cursor + 1) % s.N) := by
  simp only [ringWrite, Option.map_eq_some_iff] at h
  obtain ⟨u, hu, rfl⟩ := h
  obtain ⟨hlt, rfl⟩ := memWrite_eq_some hu
  exact ⟨hlt, rfl⟩

theorem ringWrite_of_lt {s : State} (h : s.cursor < s.N) (v : F64) :
    ringWrite v s = some (s.withRing (s.ring.store s.cursor v) ((s.cursor + 1) % s.N)) := by
  simp only [ringWrite, memWrite, if_pos h, Option.map_some]
  rfl

/-- Everything a sequence of ring writes can do: only the ring and the cursor change. -/
theorem ringWrites_eq_some {vs : List F64} {s t : State} (h : ringWrites vs s = some t) :
    t = s.withRing t.ring t.cursor := by
  induction vs generalizing s with
  | nil =>
    simp only [ringWrites, Option.some.injEq] at h
    subst h
    rfl
  | cons v rest ih =>
    simp only [ringWrites, Option.bind_eq_some_iff] at h
    obtain ⟨u, hu, ht⟩ := h
    obtain ⟨-, rfl⟩ := ringWrite_eq_some hu
    rw [ih ht]
    rfl

/-- With the cursor inside the ring every sequence of writes completes. -/
theorem ringWrites_complete (vs : List F64) {s : State} (h : s.cursor < s.N) : ∃ t, ringWrites vs s = some t := by
  induction vs generalizing s with
  | nil => exact ⟨s, rfl⟩
  | cons v rest ih =>
    simp only [ringWrites, ringWrite_of_lt h, Option.bind_some]
    exact ih (Nat.mod_lt _ (by simpa using Nat.zero_lt_of_lt h))

/-- The ring's invariants, kept by every sequence of writes. -/
theorem ringWrites_keeps {vs : List F64} {s t : State} (h : ringWrites vs s = some t) (hwf : s.ring.wf = true)
    (hin : Memory.within s.N s.ring = true) (hc : s.cursor < s.N) :
    t.ring.wf = true ∧ Memory.within t.N t.ring = true ∧ t.cursor < t.N ∧ t.N = s.N := by
  induction vs generalizing s with
  | nil =>
    simp only [ringWrites, Option.some.injEq] at h
    subst h
    exact ⟨hwf, hin, hc, rfl⟩
  | cons v rest ih =>
    simp only [ringWrites, ringWrite_of_lt hc, Option.bind_some] at h
    have := ih h (Memory.wf_store hwf _ _) (Memory.within_store hin hc _)
      (Nat.mod_lt _ (by simpa using Nat.zero_lt_of_lt hc))
    simpa using this

/-- Everything the capture of a block can do (43_engine.md rules R277, R278). -/
theorem captureBlock_eq_some {runs : List ChannelRun} {s t : State} (h : captureBlock runs s = some t) :
    (t = s ∧ (s.capture = false ∨ runs = [])) ∨
    (s.capture = true ∧ ∃ first rest, runs = first :: rest ∧ ringWrites first.modulated s = some t) := by
  cases runs with
  | nil =>
    simp only [captureBlock, Option.some.injEq] at h
    exact .inl ⟨h.symm, .inr rfl⟩
  | cons first rest =>
    simp only [captureBlock] at h
    split at h
    · rename_i hc
      exact .inr ⟨hc, first, rest, rfl, h⟩
    · rename_i hc
      exact .inl ⟨(Option.some.inj h).symm, .inl (by simpa using hc)⟩

/-! ### The pending message and the channel count -/

/-- Everything the application of the pending message can do (43_engine.md rule R274). -/
theorem applyPending_cases (s : State) :
    (s.pending = none ∧ applyPending s = s) ∨
    (∃ c, s.pending = some (.updateConfig c) ∧ applyPending s = applyConfig c (s.withPending none)) ∨
    (∃ n, s.pending = some (.startSpectrum n) ∧ applyPending s = applyStart n (s.withPending none)) ∨
    (s.pending = some .stopSpectrum ∧ applyPending s = applyStop (s.withPending none)) := by
  rcases hp : s.pending with _ | d
  · exact .inl ⟨rfl, by simp [applyPending, hp]⟩
  · cases d with
    | updateConfig c => exact .inr (.inl ⟨c, rfl, by simp [applyPending, hp, applyControl]⟩)
    | startSpectrum n => exact .inr (.inr (.inl ⟨n, rfl, by simp [applyPending, hp, applyControl]⟩))
    | stopSpectrum => exact .inr (.inr (.inr ⟨rfl, by simp [applyPending, hp, applyControl]⟩))

/-- Everything the channel-count check can do (43_engine.md rule R276). -/
theorem checkChannels_cases (c : Nat) (s : State) :
    (c = s.chanCount ∧ checkChannels c s = s) ∨
    (c ≠ s.chanCount ∧
      checkChannels c s = s.withChannels c (List.replicate c (freshChannel sampleRate s.cfg))) := by
  by_cases h : c = s.chanCount
  · exact .inl ⟨h, by simp [checkChannels, h]⟩
  · exact .inr ⟨h, by simp [checkChannels, h]⟩

/-! ### The frame counter -/

/-- Everything the frame counter's step can do (43_engine.md rule R279). -/
theorem advanceFrame_cases (s : State) :
    (s.frameCount + 1 ≠ Config.spectrumInterval ∧ advanceFrame s = s.withFrameCount (s.frameCount + 1)) ∨
    (s.frameCount + 1 = Config.spectrumInterval ∧ s.capture = false ∧ advanceFrame s = s.withFrameCount 0) ∨
    (s.frameCount + 1 = Config.spectrumInterval ∧ s.capture = true ∧
      advanceFrame s = (emit (.spectrum (analyzeRing s)) s).withFrameCount 0) := by
  by_cases h : s.frameCount + 1 = Config.spectrumInterval
  · cases hc : s.capture
    · exact .inr (.inl ⟨h, rfl, by simp [advanceFrame, h, hc]⟩)
    · exact .inr (.inr ⟨h, rfl, by simp [advanceFrame, h, hc, emitSpectrum]⟩)
  · exact .inl ⟨h, by simp [advanceFrame, h]⟩

/-! ### The channels of a block -/

theorem length_runChannels (cfg : ConfigRecord) (chs : List ChannelState) (xs : List F32) :
    (runChannels cfg chs xs).length = chs.length := by
  induction chs generalizing xs with
  | nil => rfl
  | cons ch rest ih => simp [runChannels, ih]

/-- Every run of a block is the run of one of its channels. -/
theorem mem_runChannels {cfg : ConfigRecord} {chs : List ChannelState} {xs : List F32} {r : ChannelRun}
    (h : r ∈ runChannels cfg chs xs) : ∃ ch ∈ chs, ∃ ys, r = runChannel cfg ch ys := by
  induction chs generalizing xs with
  | nil => simp [runChannels] at h
  | cons ch rest ih =>
    simp only [runChannels, List.mem_cons] at h
    rcases h with rfl | h
    · exact ⟨ch, List.mem_cons_self .., _, rfl⟩
    · obtain ⟨ch', hch', ys, hr⟩ := ih h
      exact ⟨ch', List.mem_cons_of_mem _ hch', ys, hr⟩

/-- A whole block gives as many output samples as it has input samples. -/
theorem length_flatMap_outputs (cfg : ConfigRecord) (chs : List ChannelState) (xs : List F32)
    (h : xs.length = chs.length * Config.blockLen) :
    ((runChannels cfg chs xs).flatMap ChannelRun.outputs).length = xs.length := by
  induction chs generalizing xs with
  | nil => simp [runChannels, h]
  | cons ch rest ih =>
    have hlen : xs.length = rest.length * Config.blockLen + Config.blockLen := by
      rw [h, List.length_cons, Nat.add_mul, Nat.one_mul]
    have hdrop : (xs.drop Config.blockLen).length = rest.length * Config.blockLen := by
      rw [List.length_drop]
      omega
    simp only [runChannels, List.flatMap_cons, List.length_append, length_runChannel_outputs, ih _ hdrop,
      List.length_take, List.length_drop]
    omega

/-! ### The whole block -/

/-- Everything a block after its begin can do (43_engine.md rule R282). -/
theorem finishBlock_eq_some {c : Nat} {xs : List F32} {s t : State} (h : finishBlock c xs s = some t) :
    ∃ u, captureBlock (runChannels s.cfg s.ch xs)
        (s.withChannels s.chanCount ((runChannels s.cfg s.ch xs).map ChannelRun.channel)) = some u ∧
      t = advanceFrame (emit (.blockOut c ((runChannels s.cfg s.ch xs).flatMap ChannelRun.outputs)) u) := by
  simp only [finishBlock, Option.map_eq_some_iff] at h
  obtain ⟨u, hu, rfl⟩ := h
  exact ⟨u, hu, rfl⟩

/-- Everything a processBlock can do. -/
theorem execProcessBlock_eq_next {c : Nat} {xs : List F32} {s t : State}
    (h : execProcessBlock c xs s = .next t) : finishBlock c xs (beginBlock c s) = some t := by
  simp only [execProcessBlock] at h
  split at h
  · rename_i u hu
    cases h
    exact hu
  · cases h

theorem execProcessBlock_of_some {c : Nat} {xs : List F32} {s t : State}
    (h : finishBlock c xs (beginBlock c s) = some t) : execProcessBlock c xs s = .next t := by
  simp [execProcessBlock, h]

/-- With the ring ready a block completes. -/
theorem finishBlock_complete (c : Nat) (xs : List F32) {s : State} (h : s.capture = true → s.cursor < s.N) :
    ∃ t, finishBlock c xs s = some t := by
  have : ∃ u, captureBlock (runChannels s.cfg s.ch xs)
      (s.withChannels s.chanCount ((runChannels s.cfg s.ch xs).map ChannelRun.channel)) = some u := by
    cases runChannels s.cfg s.ch xs with
    | nil => exact ⟨_, rfl⟩
    | cons first rest =>
      by_cases hc : s.capture = true
      · obtain ⟨u, hu⟩ := ringWrites_complete first.modulated
          (s := s.withChannels s.chanCount ((first :: rest).map ChannelRun.channel)) (h hc)
        exact ⟨u, (if_pos hc).trans hu⟩
      · exact ⟨_, if_neg hc⟩
  obtain ⟨u, hu⟩ := this
  exact ⟨_, by simp only [finishBlock, hu, Option.map_some]; rfl⟩

/-! ### The step -/

/-- Everything a step can do (43_engine.md rule R270). -/
theorem step_cases (s : State) :
    (s.queue = [] ∧ step s = .next s) ∨
    (∃ m rest why, s.queue = m :: rest ∧ decode m.port m.bytes = .invalid why ∧
      step s = .next (s.withQueue rest)) ∨
    (∃ m rest i, s.queue = m :: rest ∧ decode m.port m.bytes = .instr i ∧
      step s = exec i (s.withQueue rest)) := by
  rcases hq : s.queue with _ | ⟨m, rest⟩
  · exact .inl ⟨rfl, by simp [step, hq]⟩
  · rcases hd : decode m.port m.bytes with i | why
    · exact .inr (.inr ⟨m, rest, i, rfl, hd, by simp [step, hq, hd, takeMessage]⟩)
    · exact .inr (.inl ⟨m, rest, why, rfl, hd, by simp [step, hq, hd, takeMessage]⟩)

end Sys2Proof.Machine
end

