-- ==== Sys2Proof/Laws/PerInstr.lean ====
section
/-! SUPPORT. A law per message kind: the encoder's header carries the number of payload words that 30_encoding.md rule R113
requires of the kind. -/

namespace Sys2Proof.Laws

/-- The header of a well-formed message says how many words follow it. -/
def EncodedLength.Statement (i : Instr) : Prop :=
  i.wf = true → (payloadWords i).length < 2 ^ 16 ∧ headerLen (headerWord i.kind (payloadWords i).length) =
    (payloadWords i).length

theorem EncodedLength.of_lt {i : Instr} (h : i.wf = true → (payloadWords i).length < 2 ^ 16) :
    EncodedLength.Statement i := fun hwf => ⟨h hwf, headerLen_headerWord _ (h hwf)⟩

theorem EncodedLength.updateConfig (c : ConfigRecord) : EncodedLength.Statement (.updateConfig c) :=
  EncodedLength.of_lt fun _ => by simp [payloadWords, ConfigRecord.slots, wordsOfSlot]

theorem EncodedLength.startSpectrum (n : BitVec 32) : EncodedLength.Statement (.startSpectrum n) :=
  EncodedLength.of_lt fun _ => by simp [payloadWords]

theorem EncodedLength.stopSpectrum : EncodedLength.Statement .stopSpectrum :=
  EncodedLength.of_lt fun _ => by simp [payloadWords]

theorem EncodedLength.processBlock (c : Nat) (xs : List F32) : EncodedLength.Statement (.processBlock c xs) :=
  EncodedLength.of_lt fun hwf => by
    have := (isBlock_iff c xs).1 hwf
    simp only [payloadWords, List.length_cons, List.length_map]
    omega

theorem EncodedLength.blockOut (c : Nat) (xs : List F32) : EncodedLength.Statement (.blockOut c xs) :=
  EncodedLength.of_lt fun hwf => by
    have := (isBlock_iff c xs).1 hwf
    simp only [payloadWords, List.length_cons, List.length_map]
    omega

theorem EncodedLength.spectrum (ms : List F64) : EncodedLength.Statement (.spectrum ms) :=
  EncodedLength.of_lt fun hwf => by
    have hm := (isMagnitudeCount_iff ms.length).1 hwf
    have hl := length_wordsOfSlots (ms.map F64.bits)
    simp only [List.flatMap_map, List.length_map] at hl
    simp only [payloadWords, hl]
    omega

end Sys2Proof.Laws
end

