-- ==== Sys2Proof/Laws/Rounding.lean ====
section
/-! SUPPORT. Rounding: representable values are kept, the rounded magnitude is monotone, and what that says of the
packed numbers (00_scope.md rules R13, R14). -/

namespace Sys2Proof

/-! ### The integer quotient -/

theorem roundNearestEven_mul (q : Nat) {den : Nat} (h : 0 < den) : roundNearestEven (q * den) den = q := by
  simp only [roundNearestEven, Nat.mul_div_cancel _ h, Nat.mul_mod_left]
  simp [h]

theorem roundNearestEven_le {num den q : Nat} (hd : 0 < den) (h : num ≤ q * den) : roundNearestEven num den ≤ q := by
  have hdm := Nat.div_add_mod num den
  have hr : num % den < den := Nat.mod_lt _ hd
  rcases Nat.lt_or_ge (num / den) q with hlt | hge
  · simp only [roundNearestEven]
    split_ifs <;> omega
  · have hmul : q * den ≤ den * (num / den) := by
      rw [Nat.mul_comm q]
      exact Nat.mul_le_mul_left _ hge
    have hrem : num % den = 0 := by omega
    have hq : den * (num / den) = q * den := by omega
    have hquo : num / den = q := Nat.eq_of_mul_eq_mul_left hd (by rw [hq, Nat.mul_comm])
    simp only [roundNearestEven, hrem, hquo]
    simp [hd]

theorem roundNearestEven_le_of_lt_half {num den q : Nat} (hd : 0 < den) (h : 2 * num < (2 * q + 1) * den) :
    roundNearestEven num den ≤ q := by
  have hdm := Nat.div_add_mod num den
  have hr : num % den < den := Nat.mod_lt _ hd
  rcases Nat.lt_or_ge (num / den) q with hlt | hge
  · simp only [roundNearestEven]
    split_ifs <;> omega
  · have hmul : q * den ≤ den * (num / den) := by
      rw [Nat.mul_comm q]
      exact Nat.mul_le_mul_left _ hge
    have hexp : (2 * q + 1) * den = 2 * (q * den) + den := by ring
    have hquo : num / den = q := by
      rcases Nat.lt_or_ge q (num / den) with hgt | hle
      · have : (q + 1) * den ≤ den * (num / den) := by
          rw [Nat.mul_comm (q + 1)]
          exact Nat.mul_le_mul_left _ hgt
        have hexp' : (q + 1) * den = q * den + den := by ring
        omega
      · omega
    have hq : den * (num / den) = q * den := by rw [hquo, Nat.mul_comm]
    have hrem : 2 * (num % den) < den := by omega
    simp only [roundNearestEven, hquo, hrem, if_true]
    exact le_rfl

/-! ### The magnitude field -/

theorem unitsOfMagnitude_subnormal {p m : Nat} (h : m < 2 ^ p) : unitsOfMagnitude p m = m := by
  simp only [unitsOfMagnitude, Nat.div_eq_of_lt h, Nat.mod_eq_of_lt h]
  simp

theorem unitsOfMagnitude_normal (p e : Nat) {f : Nat} (hf : f < 2 ^ p) :
    unitsOfMagnitude p ((e + 1) * 2 ^ p + f) = (2 ^ p + f) * 2 ^ e := by
  have hpos : 0 < 2 ^ p := Nat.pos_of_ne_zero (by positivity)
  have h1 : ((e + 1) * 2 ^ p + f) / 2 ^ p = e + 1 := by
    rw [Nat.add_comm, Nat.add_mul_div_right _ _ hpos, Nat.div_eq_of_lt hf, Nat.zero_add]
  have h2 : ((e + 1) * 2 ^ p + f) % 2 ^ p = f := by
    rw [Nat.add_comm, Nat.add_mul_mod_self_right, Nat.mod_eq_of_lt hf]
  simp only [unitsOfMagnitude, h1, h2]
  simp

/-- Every magnitude is subnormal or normal. -/
theorem magnitude_cases (p m : Nat) :
    m < 2 ^ p ∨ ∃ e f, f < 2 ^ p ∧ m = (e + 1) * 2 ^ p + f := by
  have hpos : 0 < 2 ^ p := Nat.pos_of_ne_zero (by positivity)
  rcases Nat.lt_or_ge m (2 ^ p) with h | h
  · exact .inl h
  · refine .inr ⟨m / 2 ^ p - 1, m % 2 ^ p, Nat.mod_lt _ hpos, ?_⟩
    have hq : 1 ≤ m / 2 ^ p := (Nat.one_le_div_iff hpos).2 h
    rw [Nat.sub_add_cancel hq, Nat.mul_comm]
    exact (Nat.div_add_mod m (2 ^ p)).symm

/-- A value of the format is kept by rounding to it. -/
theorem roundMagnitude_units (p m : Nat) {den : Nat} (hd : 0 < den) :
    roundMagnitude p (unitsOfMagnitude p m * den) den = m := by
  simp only [roundMagnitude, Nat.mul_div_cancel _ hd]
  rcases magnitude_cases p m with h | ⟨e, f, hf, rfl⟩
  · have hlog : Nat.log2 m - p = 0 := by
      rcases Nat.eq_zero_or_pos m with rfl | hm
      · simp
      · have := (Nat.log2_lt (by omega)).2 h
        omega
    rw [unitsOfMagnitude_subnormal h, hlog]
    simp [roundNearestEven_mul _ hd]
  · have hlog : Nat.log2 ((2 ^ p + f) * 2 ^ e) = p + e := by
      have hne : (2 ^ p + f) * 2 ^ e ≠ 0 := by positivity
      have hlo : 2 ^ (p + e) ≤ (2 ^ p + f) * 2 ^ e := by
        rw [Nat.pow_add]
        exact Nat.mul_le_mul_right _ (Nat.le_add_right _ _)
      have hhi : (2 ^ p + f) * 2 ^ e < 2 ^ (p + e + 1) := by
        have : 2 ^ (p + e + 1) = (2 ^ p + 2 ^ p) * 2 ^ e := by ring
        rw [this]
        exact Nat.mul_lt_mul_of_pos_right (by omega) (by positivity)
      have h1 := (Nat.le_log2 hne).2 hlo
      have h2 := (Nat.log2_lt hne).2 hhi
      omega
    rw [unitsOfMagnitude_normal p e hf, hlog, Nat.add_sub_cancel_left]
    have hmul : (2 ^ p + f) * 2 ^ e * den = (2 ^ p + f) * (den * 2 ^ e) := by ring
    rw [hmul, roundNearestEven_mul _ (by positivity)]
    ring

/-- Rounding is monotone: what is at most a value of the format rounds to at most that value. -/
theorem roundMagnitude_le {p m num den : Nat} (hd : 0 < den) (h : num ≤ unitsOfMagnitude p m * den) :
    roundMagnitude p num den ≤ m := by
  simp only [roundMagnitude]
  have hquo : num / den ≤ unitsOfMagnitude p m := Nat.div_le_of_le_mul (by rw [Nat.mul_comm]; exact h)
  have hnum : num < den * (num / den + 1) := by
    have := Nat.div_add_mod num den
    have := Nat.mod_lt num hd
    rw [Nat.mul_add]
    omega
  rcases magnitude_cases p m with hm | ⟨e, f, hf, rfl⟩
  · rw [unitsOfMagnitude_subnormal hm] at h hquo
    have hshift : Nat.log2 (num / den) - p = 0 := by
      rcases Nat.eq_zero_or_pos (num / den) with hz | hpos
      · simp [hz]
      · have := (Nat.log2_lt (by omega)).2 (lt_of_le_of_lt hquo hm)
        omega
    rw [hshift]
    simpa using roundNearestEven_le hd h
  · rw [unitsOfMagnitude_normal p e hf] at h hquo
    rcases Nat.eq_zero_or_pos (num / den) with hz | hpos
    · have h1 : num ≤ 1 * (den * 2 ^ 0) := by
        rw [hz] at hnum
        simp only [Nat.zero_add, Nat.mul_one, Nat.one_mul, Nat.pow_zero] at hnum ⊢
        omega
      have hr := roundNearestEven_le (by positivity) h1
      have h1p : 1 ≤ 2 ^ p := Nat.one_le_two_pow
      have hep : 2 ^ p ≤ (e + 1) * 2 ^ p := Nat.le_mul_of_pos_left _ (Nat.succ_pos e)
      have h0 : Nat.log2 0 - p = 0 := by simp
      rw [hz, h0]
      omega
    · have hne : num / den ≠ 0 := by omega
      have hlt : num / den < 2 ^ (p + e + 1) := by
        have : 2 ^ (p + e + 1) = (2 ^ p + 2 ^ p) * 2 ^ e := by ring
        rw [this]
        exact lt_of_le_of_lt hquo (Nat.mul_lt_mul_of_pos_right (by omega) (by positivity))
      have hlog := (Nat.log2_lt hne).2 hlt
      have hself : num / den < 2 ^ (Nat.log2 (num / den) + 1) := Nat.lt_log2_self
      generalize hL : Nat.log2 (num / den) = L at hlog hself ⊢
      have hnum' : num ≤ 2 ^ (L + 1) * den := by
        have : num / den + 1 ≤ 2 ^ (L + 1) := hself
        calc num ≤ den * (num / den + 1) := hnum.le
          _ ≤ den * 2 ^ (L + 1) := Nat.mul_le_mul_left _ this
          _ = 2 ^ (L + 1) * den := Nat.mul_comm _ _
      rcases Nat.lt_or_ge (L - p) e with hsh | hsh
      · have hbound : num ≤ 2 ^ (p + 1) * (den * 2 ^ (L - p)) := by
          refine hnum'.trans ?_
          have : 2 ^ (p + 1) * (den * 2 ^ (L - p)) = 2 ^ (p + 1 + (L - p)) * den := by rw [Nat.pow_add]; ring
          rw [this]
          exact Nat.mul_le_mul_right _ (Nat.pow_le_pow_right (by decide) (by omega))
        have hr := roundNearestEven_le (by positivity) hbound
        have hs : (L - p) * 2 ^ p + 2 ^ (p + 1) ≤ (e + 1) * 2 ^ p := by
          have : (L - p) * 2 ^ p + 2 ^ (p + 1) = (L - p + 2) * 2 ^ p := by ring
          rw [this]
          exact Nat.mul_le_mul_right _ (by omega)
        omega
      · have he : L - p = e := by omega
        have hbound : num ≤ (2 ^ p + f) * (den * 2 ^ e) := by
          refine h.trans (le_of_eq ?_)
          ring
        have hr := roundNearestEven_le (by positivity) hbound
        rw [he]
        have : (e + 1) * 2 ^ p = e * 2 ^ p + 2 ^ p := by ring
        omega

/-- A multiple of a power of two with few enough bits is a value of the format. -/
theorem representable (p k : Nat) {a : Nat} (h : a < 2 ^ (p + 1)) : ∃ m, unitsOfMagnitude p m = a * 2 ^ k := by
  induction k generalizing a with
  | zero =>
    rcases Nat.lt_or_ge a (2 ^ p) with hlt | hge
    · exact ⟨a, by simp [unitsOfMagnitude_subnormal hlt]⟩
    · refine ⟨(0 + 1) * 2 ^ p + (a - 2 ^ p), ?_⟩
      rw [unitsOfMagnitude_normal p 0 (by rw [Nat.pow_succ] at h; omega)]
      simp
      omega
  | succ k ih =>
    rcases Nat.lt_or_ge a (2 ^ p) with hlt | hge
    · obtain ⟨m, hm⟩ := ih (a := 2 * a) (by rw [Nat.pow_succ]; omega)
      exact ⟨m, by rw [hm]; ring⟩
    · refine ⟨(k + 1 + 1) * 2 ^ p + (a - 2 ^ p), ?_⟩
      rw [unitsOfMagnitude_normal p (k + 1) (by rw [Nat.pow_succ] at h; omega)]
      congr 1
      omega

/-- Every value of the format is such a multiple. -/
theorem unitsOfMagnitude_form (p m : Nat) :
    ∃ a k, a < 2 ^ (p + 1) ∧ unitsOfMagnitude p m = a * 2 ^ k ∧ (k = 0 ∨ 2 ^ p ≤ a) := by
  rcases magnitude_cases p m with h | ⟨e, f, hf, rfl⟩
  · exact ⟨m, 0, by rw [Nat.pow_succ]; omega, by simp [unitsOfMagnitude_subnormal h], .inl rfl⟩
  · exact ⟨2 ^ p + f, e, by rw [Nat.pow_succ]; omega, unitsOfMagnitude_normal p e hf, .inr (Nat.le_add_right _ _)⟩

/-- The units of a magnitude are monotone in it. -/
theorem unitsOfMagnitude_mono {p m m' : Nat} (h : m ≤ m') : unitsOfMagnitude p m ≤ unitsOfMagnitude p m' := by
  by_contra hc
  have hlt : unitsOfMagnitude p m' ≤ unitsOfMagnitude p m * 1 := by omega
  have h1 := roundMagnitude_units p m (den := 1) (by decide)
  have h2 := roundMagnitude_units p m' (den := 1) (by decide)
  have h3 := roundMagnitude_le (p := p) (m := m) (num := unitsOfMagnitude p m' * 1) (den := 1) (by decide) (by omega)
  rw [h2] at h3
  have : m = m' := by omega
  subst this
  omega

/-! ### Packed numbers -/

@[simp] theorem F64.unitsAbs_ofParts (neg : Bool) {m : Nat} (h : m < 2 ^ 63) :
    (F64.ofParts neg m).unitsAbs = unitsOfMagnitude 52 m := by
  simp only [F64.unitsAbs, F64.magnitude_ofParts neg h]

theorem infMagnitude_lt : infMagnitude < 2 ^ 63 := by decide

theorem F64.magnitude_round (neg : Bool) (num den : Nat) :
    (F64.round neg num den).magnitude = min (roundMagnitude 52 num den) infMagnitude :=
  F64.magnitude_ofParts neg (lt_of_le_of_lt (min_le_right _ _) infMagnitude_lt)

@[simp] theorem F64.sign_round (neg : Bool) (num den : Nat) : (F64.round neg num den).sign = neg :=
  F64.sign_ofParts neg (lt_of_le_of_lt (min_le_right _ _) infMagnitude_lt)

/-- A finite value of the format, rounded, is that value. -/
theorem F64.round_units (neg : Bool) {m : Nat} (hm : m < infMagnitude) {den : Nat} (hd : 0 < den) :
    F64.round neg (unitsOfMagnitude 52 m * den) den = F64.ofParts neg m := by
  simp only [F64.round, roundMagnitude_units 52 m hd, Nat.min_eq_left hm.le]

/-- The result of a rounding is finite when the exact value is at most a finite value of the format. -/
theorem F64.isFinite_round (neg : Bool) {num den m : Nat} (hd : 0 < den) (hm : m < infMagnitude)
    (h : num ≤ unitsOfMagnitude 52 m * den) : (F64.round neg num den).isFinite = true := by
  have := roundMagnitude_le hd h
  simp only [F64.isFinite, F64.magnitude_round, decide_eq_true_eq]
  omega

end Sys2Proof
end

