-- ==== Sys2Proof/Laws/Sign.lean ====
section
/-! SUPPORT. The sign of what each operation answers: which operations keep numbers from being negative (10_state.md rule
R53). -/

namespace Sys2Proof

open Sys2Proof.Machine

/-! ### Numbers that are not negative -/

theorem F64.units_posZero : F64.posZero.units = 0 := by decide +kernel

theorem notNegative_of_isNaN {x : F64} (h : x.isNaN = true) : notNegative x = true := by
  simp [notNegative, F64.lt, h]

theorem notNegative_of_sign {x : F64} (h : x.sign = false) : notNegative x = true := by
  have hu : F64.units x = x.unitsAbs := by simp [F64.units, h]
  simp [notNegative, F64.lt, F64.units_posZero, hu]

@[simp] theorem notNegative_zero (s : Bool) : notNegative (F64.zero s) = true := by cases s <;> decide +kernel

@[simp] theorem notNegative_inf : notNegative (F64.inf false) = true := by decide +kernel

/-- What a number that is not negative can be. -/
theorem view_of_notNegative {x : F64} (h : notNegative x = true) :
    x.view = .nan ∨ x.view = .inf false ∨ ∃ s m, x.view = .fin s m ∧ (s = false ∨ m = 0) := by
  unfold F64.view
  split
  · exact .inl rfl
  · rename_i hn
    have hu : 0 ≤ x.units := by
      simpa [notNegative, F64.lt, hn, F64.units_posZero] using h
    split
    · refine .inr (.inr ⟨_, _, rfl, ?_⟩)
      cases hs : x.sign
      · exact .inl rfl
      · refine .inr ?_
        simp only [F64.units, hs, if_true] at hu
        omega
    · rename_i hf
      cases hs : x.sign
      · exact .inr (.inl rfl)
      · exfalso
        have hm : infMagnitude ≤ x.magnitude := by simpa [F64.isFinite] using hf
        have hle := unitsOfMagnitude_mono (p := 52) hm
        have hpos : 0 < unitsOfMagnitude 52 infMagnitude := by decide +kernel
        simp only [F64.units, hs, if_true, F64.unitsAbs] at hu
        omega

/-- Zero rounds to a zero. -/
theorem F64.round_zero (neg : Bool) {den : Nat} (h : 0 < den) : F64.round neg 0 den = F64.zero neg := by
  have := F64.round_units neg (m := 0) (by decide) h
  rwa [unitsOfMagnitude_subnormal (by decide), Nat.zero_mul] at this

@[simp] theorem notNegative_nanOf (src : NanSource) (a b : F64) : notNegative (F64.nanOf src a b) = true :=
  notNegative_of_isNaN (F64.isNaN_nanOf src a b)

@[simp] theorem notNegative_round (num den : Nat) : notNegative (F64.round false num den) = true :=
  notNegative_of_sign (F64.sign_round false num den)

theorem unitsPerOne_pos : 0 < unitsPerOne := by decide +kernel

/-- A product of numbers that are not negative is not negative. -/
theorem notNegative_mul {a b : F64} (ha : notNegative a = true) (hb : notNegative b = true) :
    notNegative (a.mul b) = true := by
  rcases view_of_notNegative ha with ha | ha | ⟨s, m, ha, hs⟩ <;>
    rcases view_of_notNegative hb with hb | hb | ⟨t, n, hb, ht⟩ <;>
    simp only [F64.mul, ha, hb, notNegative_nanOf, Bool.xor_false, Bool.false_xor, notNegative_inf]
  · split_ifs with hn
    · simp only [notNegative_nanOf]
    · simp only [ht.resolve_right hn, notNegative_inf]
  · split_ifs with hm
    · simp only [notNegative_nanOf]
    · simp only [hs.resolve_right hm, notNegative_inf]
  · rcases hs with rfl | rfl
    · rcases ht with rfl | rfl
      · simp only [Bool.xor_false, notNegative_round]
      · simp only [Nat.mul_zero, F64.round_zero _ unitsPerOne_pos, notNegative_zero]
    · simp only [Nat.zero_mul, F64.round_zero _ unitsPerOne_pos, notNegative_zero]

/-- A sum of signed magnitudes whose exact value is not negative is not negative. -/
theorem notNegative_addUnits {s t : Bool} {m n : Nat}
    (h : 0 ≤ (if s then -(m : Int) else m) + (if t then -(n : Int) else n)) :
    notNegative (F64.addUnits s m t n) = true := by
  simp only [F64.addUnits]
  generalize (if s then -(m : Int) else m) + (if t then -(n : Int) else n) = z at h ⊢
  rw [decide_eq_false (Int.not_lt.2 h)]
  split_ifs
  · simp only [notNegative_zero]
  · simp only [notNegative_round]

/-- The exact value of a signed magnitude that is not negative. -/
theorem signedUnits_nonneg {s : Bool} {m : Nat} (h : s = false ∨ m = 0) : 0 ≤ (if s then -(m : Int) else m) := by
  rcases h with rfl | rfl <;> simp

/-- A sum of numbers that are not negative is not negative. -/
theorem notNegative_add {a b : F64} (ha : notNegative a = true) (hb : notNegative b = true) :
    notNegative (a.add b) = true := by
  rcases view_of_notNegative ha with ha | ha | ⟨s, m, ha, hs⟩ <;>
    rcases view_of_notNegative hb with hb | hb | ⟨t, n, hb, ht⟩ <;>
    simp only [F64.add, ha, hb, notNegative_nanOf, if_true, notNegative_inf]
  exact notNegative_addUnits (Int.add_nonneg (signedUnits_nonneg hs) (signedUnits_nonneg ht))

/-- The magnitude of a finite number is below that of an infinity. -/
theorem F64.unitsAbs_lt_of_isFinite {x : F64} (h : x.isFinite = true) : x.unitsAbs < (F64.inf false).unitsAbs := by
  have hm : x.magnitude ≤ infMagnitude - 1 := by
    have : x.magnitude < infMagnitude := by simpa [F64.isFinite] using h
    omega
  exact lt_of_le_of_lt (unitsOfMagnitude_mono hm) (by decide +kernel)

/-- What a number that is neither finite nor a NaN is. -/
theorem F64.unitsAbs_of_infinite {x : F64} (hn : x.isNaN = false) (hf : x.isFinite = false) :
    x.unitsAbs = (F64.inf false).unitsAbs := by
  have hm : x.magnitude = infMagnitude := by
    simp only [F64.isNaN, F64.isFinite, decide_eq_false_iff_not] at hn hf
    omega
  simp only [F64.unitsAbs, hm, F64.inf, F64.magnitude_ofParts false infMagnitude_lt]

/-- A difference is not negative when the second number is not above the first. -/
theorem notNegative_sub {a b : F64} (h : F64.ge a b = true) : notNegative (a.sub b) = true := by
  simp only [F64.ge, Bool.and_eq_true, Bool.not_eq_true', decide_eq_true_eq] at h
  obtain ⟨⟨ha, hb⟩, hu⟩ := h
  simp only [F64.sub, F64.view, ha, hb, Bool.false_eq_true, if_false]
  cases hfa : a.isFinite <;> cases hfb : b.isFinite <;> simp only [Bool.false_eq_true, if_false, if_true]
  · have ea := F64.unitsAbs_of_infinite ha hfa
    have eb := F64.unitsAbs_of_infinite hb hfb
    have hp : 0 < (F64.inf false).unitsAbs := by decide +kernel
    split_ifs with hs
    · exact notNegative_nanOf _ _ _
    · have hsa : a.sign = false := by
        cases hsa : a.sign
        · rfl
        · have hsb : b.sign = false := by cases hsb : b.sign <;> simp_all
          simp only [F64.units, hsa, hsb, if_true, Bool.false_eq_true, if_false, ea, eb] at hu
          omega
      rw [hsa]
      exact notNegative_inf
  · have ea := F64.unitsAbs_of_infinite ha hfa
    have lb := F64.unitsAbs_lt_of_isFinite hfb
    have hsa : a.sign = false := by
      cases hsa : a.sign
      · rfl
      · simp only [F64.units, hsa, if_true, ea] at hu
        split_ifs at hu <;> omega
    rw [hsa]
    exact notNegative_inf
  · have eb := F64.unitsAbs_of_infinite hb hfb
    have la := F64.unitsAbs_lt_of_isFinite hfa
    have hsb : b.sign = true := by
      cases hsb : b.sign
      · simp only [F64.units, hsb, Bool.false_eq_true, if_false, eb] at hu
        split_ifs at hu <;> omega
      · rfl
    rw [hsb]
    exact notNegative_inf
  · refine notNegative_addUnits ?_
    simp only [F64.units] at hu
    cases hsa : a.sign <;> cases hsb : b.sign <;>
      simp only [hsa, hsb, Bool.not_true, Bool.not_false, Bool.false_eq_true, if_true, if_false] at hu ⊢ <;> omega

/-! ### Signs -/

/-- The sign that a view shows. -/
theorem F64.sign_of_view {x : F64} {s : Bool} (h : x.view = .inf s ∨ ∃ m, x.view = .fin s m) : x.sign = s := by
  unfold F64.view at h
  split_ifs at h <;> simp at h <;> exact h

theorem F64.sign_inf (s : Bool) : (F64.inf s).sign = s := F64.sign_ofParts s infMagnitude_lt

theorem F64.sign_zero (s : Bool) : (F64.zero s).sign = s := F64.sign_ofParts s (by decide)

/-- A number is a NaN, or its view shows its sign. -/
theorem F64.view_cases (x : F64) :
    x.isNaN = true ∧ x.view = .nan ∨ x.view = .inf x.sign ∨ x.view = .fin x.sign x.unitsAbs := by
  unfold F64.view
  split_ifs with hn hf
  · exact .inl ⟨hn, rfl⟩
  · exact .inr (.inr rfl)
  · exact .inr (.inl rfl)

/-- A product is a NaN or has the product of the signs. -/
theorem F64.sign_mul (a b : F64) : (a.mul b).isNaN = true ∨ (a.mul b).sign = (a.sign ^^ b.sign) := by
  rcases F64.view_cases a with ⟨-, ha⟩ | ha | ha <;> rcases F64.view_cases b with ⟨-, hb⟩ | hb | hb <;>
    simp only [F64.mul, ha, hb] <;>
    (try split_ifs) <;> simp only [F64.isNaN_nanOf, F64.sign_inf, F64.sign_round, true_or, or_true]

/-- A quotient is a NaN or has the product of the signs. -/
theorem F64.sign_div (a b : F64) : (a.div b).isNaN = true ∨ (a.div b).sign = (a.sign ^^ b.sign) := by
  rcases F64.view_cases a with ⟨-, ha⟩ | ha | ha <;> rcases F64.view_cases b with ⟨-, hb⟩ | hb | hb <;>
    simp only [F64.div, ha, hb] <;>
    (try split_ifs) <;>
    simp only [F64.isNaN_nanOf, F64.sign_inf, F64.sign_zero, F64.sign_round, true_or, or_true]

/-- A number above +0 has the sign +. -/
theorem F64.sign_of_gt_posZero {x : F64} (h : F64.gt x F64.posZero = true) : x.sign = false := by
  simp only [F64.gt, F64.lt, Bool.and_eq_true, decide_eq_true_eq, F64.units_posZero] at h
  cases hs : x.sign
  · rfl
  · have := h.2
    simp only [F64.units, hs, if_true] at this
    omega

/-! ### The ranges of the open functions -/

/-- A value kept in a range lies in it. -/
theorem keepWithin_range {lo hi : F64} (hlo : F64.ge lo lo = true) (hhi : F64.ge hi lo = true) (r : F64) :
    F64.ge (keepWithin lo hi r) lo = true ∧ F64.ge hi (keepWithin lo hi r) = true := by
  simp only [keepWithin]
  split_ifs with h
  · simpa using h
  · exact ⟨hlo, hhi⟩

theorem keepWithin_unit (r : F64) :
    F64.ge (keepWithin F64.posZero F64.one r) F64.posZero = true ∧
    F64.ge F64.one (keepWithin F64.posZero F64.one r) = true :=
  keepWithin_range (by decide +kernel) (by decide +kernel) r

theorem keepWithin_from_one (r : F64) : F64.ge (keepWithin F64.one (F64.inf false) r) F64.one = true :=
  (keepWithin_range (by decide +kernel) (by decide +kernel) r).1

/-- A number with the sign - is not at or above one without it that is not 0. -/
theorem F64.ge_eq_false_of_sign {a b : F64} (ha : a.sign = true) (hb : b.sign = false) (hpos : 0 < b.unitsAbs) :
    F64.ge a b = false := by
  have hlt : ¬ b.units ≤ a.units := by
    simp only [F64.units, ha, hb, if_true, Bool.false_eq_true, if_false]
    omega
  simp [F64.ge, hlt]

/-- `EXP` at a number with the sign - is a NaN or in [0, 1]. -/
theorem fnExp_of_sign {x : F64} (h : x.sign = true) :
    (fnExp x).isNaN = true ∨ (F64.ge (fnExp x) F64.posZero = true ∧ F64.ge F64.one (fnExp x) = true) := by
  rcases F64.view_cases x with ⟨-, hx⟩ | hx | hx <;> simp only [fnExp, hx, F64.isNaN_nanOf, true_or, h, if_true]
  · exact .inr (by decide +kernel)
  · rw [F64.ge_eq_false_of_sign h (by decide) (by decide +kernel), if_neg Bool.false_ne_true]
    split_ifs with h0
    · exact .inr (by decide +kernel)
    · exact .inr (keepWithin_unit _)

/-- `EXP` at a number that is not negative is a NaN or at least 1. -/
theorem fnExp_of_notNegative {x : F64} (h : notNegative x = true) :
    (fnExp x).isNaN = true ∨ F64.ge (fnExp x) F64.one = true := by
  rcases view_of_notNegative h with hx | hx | ⟨s, m, hx, hs⟩ <;> simp only [fnExp, hx, F64.isNaN_nanOf, true_or]
  · exact .inr (by decide +kernel)
  · split_ifs with h0 hov hsg
    · exact .inr (by decide +kernel)
    · exact .inr (by decide +kernel)
    · exact absurd (hs.resolve_right h0) (by simp [hsg])
    · exact .inr (keepWithin_from_one _)

/-- `LOG10` of a finite number above 0 is a number in [-324, 309] (41_channel_pipeline.md rule R196). -/
theorem fnLog10_range {x : F64} (hf : x.isFinite = true) (hx : F64.gt x F64.posZero = true) :
    F64.ge (fnLog10 x) log10Lowest = true ∧ F64.ge log10Highest (fnLog10 x) = true := by
  have hs := F64.sign_of_gt_posZero hx
  have h0 : x.unitsAbs ≠ 0 := by
    simp only [F64.gt, F64.lt, Bool.and_eq_true, decide_eq_true_eq, F64.units_posZero] at hx
    have hpos := hx.2
    simp only [F64.units, hs, Bool.false_eq_true, if_false] at hpos
    omega
  simp only [fnLog10, F64.view_of_finite hf, hs, if_neg h0, Bool.false_eq_true, if_false]
  have trans : ∀ {a b c : F64}, F64.ge a b = true → F64.ge b c = true → F64.ge a c = true := by
    intro a b c h1 h2
    simp only [F64.ge, Bool.and_eq_true, Bool.not_eq_true', decide_eq_true_eq] at *
    exact ⟨⟨h1.1.1, h2.1.2⟩, h2.2.trans h1.2⟩
  split_ifs
  · exact ⟨by decide +kernel, by decide +kernel⟩
  · obtain ⟨h1, h2⟩ := keepWithin_range (lo := log10Lowest) (hi := F64.posZero) (by decide +kernel) (by decide +kernel)
      (Config.log10Raw x)
    exact ⟨h1, trans (by decide +kernel) h2⟩
  · obtain ⟨h1, h2⟩ := keepWithin_range (lo := F64.posZero) (hi := log10Highest) (by decide +kernel) (by decide +kernel)
      (Config.log10Raw x)
    exact ⟨trans h1 (by decide +kernel), h2⟩

end Sys2Proof
end

