-- ==== Sys2Proof/Laws/Spectrum.lean ====
section
/-! SUPPORT. The analyzer's arrays: their lengths, and what storing one entry does to another (42_spectrum.md). -/

namespace Sys2Proof.Machine

/-- Reading after storing one entry. -/
theorem entry_set {a : List F64} {i : Nat} (h : i < a.length) (v : F64) (k : Nat) :
    entry (a.set i v) k = if k = i then v else entry a k := by
  simp only [entry, List.getD_eq_getElem?_getD, List.getElem?_set]
  by_cases hik : i = k
  · subst hik
    simp [h]
  · simp [hik, Ne.symm hik]

@[simp] theorem length_butterfly_re (cosT sinT : List F64) (j l k : Nat) (w : Working) :
    (butterfly cosT sinT j l k w).re.length = w.re.length := by simp [butterfly]

@[simp] theorem length_butterfly_im (cosT sinT : List F64) (j l k : Nat) (w : Working) :
    (butterfly cosT sinT j l k w).im.length = w.im.length := by simp [butterfly]

@[simp] theorem length_magnitudes (n : Nat) (w : Working) : (magnitudes n w).length = n / 2 := by simp [magnitudes]

/-- Rule R248's size. -/
theorem analyze_two (bitrev : List Nat) (cosT sinT buf : List F64) : analyze 2 bitrev cosT sinT buf = [F64.posZero] :=
  rfl

/-- Every other size runs the transform (rule R240). -/
theorem analyze_of_ne_two {n : Nat} (h : n ≠ 2) (bitrev : List Nat) (cosT sinT buf : List F64) :
    analyze n bitrev cosT sinT buf = transform n bitrev cosT sinT buf := if_neg h

/-- An analysis has `N/2` magnitudes, whatever the buffer (rule R240). -/
theorem length_analyze (n : Nat) (bitrev : List Nat) (cosT sinT buf : List F64) :
    (analyze n bitrev cosT sinT buf).length = n / 2 := by
  by_cases h : n = 2
  · subst h
    rfl
  · rw [analyze_of_ne_two h, transform, length_magnitudes]

end Sys2Proof.Machine
end

