-- ==== Sys2Proof/Tests/Slice0.lean ====
section
/-! SUPPORT. Small tests.  Every expected value is the spec's: the vectors V-ENC, V-FLT, V-PIPE and V-SPEC of
95_test_vectors.md, the example of the rule a test names, or 30_encoding.md's layout written out by hand (with `BLOCK_LEN = 128`
where the vector has 4).  The last part shows, for every statement with hypotheses, that something meets them. -/

namespace Sys2Proof.Tests

open Sys2Proof.Machine

-- Each `decide +kernel` waits for the kernel to have checked all that stands before it; one after the other they do not
-- hold a thread each.
set_option Elab.async false

/-! ### Helpers -/

/-- Config TC1 of 95_test_vectors.md section 2. -/
def tc1 : ConfigRecord where
  freqRatio := ⟨0x3FD0000000000000⟩
  modulationIndex := ⟨0x3FF0000000000000⟩
  cutoff := ⟨0x40AF400000000000⟩
  q := ⟨0x3FE69FBE76C8B439⟩
  stages := ⟨0x3FF0000000000000⟩
  attackTime := ⟨0x3FE0000000000000⟩
  releaseTime := ⟨0x4049000000000000⟩
  threshold := ⟨0x4024000000000000⟩
  ratio := ⟨0x3FF0000000000000⟩
  compReleaseTime := ⟨0x3FB999999999999A⟩
  makeupGain := ⟨0x3FF0000000000000⟩
  drop := ⟨0x0000000000000000⟩
  vt := ⟨0x3FE0000000000000⟩
  diodeGain := ⟨0x0000000000000000⟩
  blend := ⟨0x0000000000000000⟩
  noiseEnabled := false
  noiseLevel := ⟨0x3F847AE147AE147B⟩

/-- The 35 words of TC1's updateConfig (95_test_vectors.md P1), with slot 15's two words to choose. -/
def tc1Words (noiseLow noiseHigh : Word) : List Word :=
  [0x00220001, 0x00000000, 0x3FD00000, 0x00000000, 0x3FF00000, 0x00000000, 0x40AF4000, 0x76C8B439, 0x3FE69FBE,
   0x00000000, 0x3FF00000, 0x00000000, 0x3FE00000, 0x00000000, 0x40490000, 0x00000000, 0x40240000, 0x00000000] ++
  [0x3FF00000, 0x9999999A, 0x3FB99999, 0x00000000, 0x3FF00000, 0x00000000, 0x00000000, 0x00000000, 0x3FE00000,
   0x00000000, 0x00000000, 0x00000000, 0x00000000, noiseLow, noiseHigh, 0x47AE147B, 0x3F847AE1]

/-- A block of one channel, every sample 0.5. -/
def halfBlock : List F32 := List.replicate 128 ⟨0x3F000000⟩

/-- A stage with the coefficients of V-FLT-1 and zero history. -/
def stageFlt1 : FilterStageState :=
  { newStage with
    a0 := ⟨0x3FA9567DDCDBA7C1⟩, a1 := ⟨0x3FB9567DDCDBA7C1⟩, a2 := ⟨0x3FA9567DDCDBA7C1⟩
    b1 := ⟨0xBFF4792AEAC784E1⟩, b2 := ⟨0x3FDE8FEA998BE764⟩ }

/-- A quiet NaN. -/
def someNaN : F64 := ⟨0x7FF8000000000000⟩

/-- The core with some messages still to come. -/
def queued (messages : List Transaction) : State := { State.reset with queue := messages }

/-- The core with a message in the mailbox. -/
def waiting (d : Control) : State := { State.reset with pending := some d }

/-- The core one block before an emission, capturing with `N = 1`. -/
def capturing : State := { State.reset with capture := true, N := 1, bitrev := [0], frameCount := 3 }

/-- The core with a ring of two entries, the cursor at the last. -/
def twoEntries : State := { State.reset with N := 2, cursor := 1 }

/-- One channel at rest with one stage. -/
def oneStage : ChannelState := { blankChannel with S := 1, stages := [stageFlt1] }

/-! ### Well-formedness -/

theorem test_wf_refuses_33_channels : (Instr.processBlock 33 []).wf = false := by decide
theorem test_wf_refuses_missing_samples : (Instr.processBlock 1 []).wf = false := by decide
theorem test_wf_refuses_samples_without_channel : (Instr.processBlock 0 [⟨0⟩]).wf = false := by decide
theorem test_wf_refuses_blockOut_of_33_channels : (Instr.blockOut 33 []).wf = false := by decide
theorem test_wf_refuses_blockOut_missing_samples : (Instr.blockOut 2 []).wf = false := by decide
theorem test_wf_refuses_three_magnitudes : (Instr.spectrum [⟨0⟩, ⟨0⟩, ⟨0⟩]).wf = false := by decide
theorem test_wf_refuses_magnitudes_above_max_fft_size : isMagnitudeCount 32768 = false := by decide
theorem test_wf_accepts_half_block : (Instr.processBlock 1 halfBlock).wf = true := by decide +kernel

/-! ### Decoding (V-ENC-1 to V-ENC-15) -/

theorem test_decode_stop : decodeWords .ctrlIn [0x00000003] = .instr .stopSpectrum := by decide
theorem test_decode_nonzero_rsv : decodeWords .ctrlIn [0x00000103] = .invalid .reservedField := by decide
theorem test_decode_stop_with_payload : decodeWords .ctrlIn [0x00010003, 0x00000000] = .invalid .wrongLen := by decide
theorem test_decode_wrong_port : decodeWords .audioIn [0x00000003] = .invalid .wrongPort := by decide
theorem test_decode_reserved_opcode : decodeWords .ctrlIn [0x00000004] = .invalid .reservedOpcode := by decide
theorem test_decode_output_kind_as_input : decodeWords .audioIn [0x00010011, 0x00000000] = .invalid .wrongPort := by
  decide
theorem test_decode_start_2048 : decodeWords .ctrlIn [0x00010002, 0x00000800] = .instr (.startSpectrum 2048) := by decide
theorem test_decode_start_minus_one : decodeWords .ctrlIn [0x00010002, 0xFFFFFFFF] = .instr (.startSpectrum (-1)) := by
  decide
theorem test_decode_start_1000 : decodeWords .ctrlIn [0x00010002, 0x000003E8] = .instr (.startSpectrum 1000) := by decide
theorem test_decode_empty_block : decodeWords .audioIn [0x00010010, 0x00000000] = .instr (.processBlock 0 []) := by
  decide
theorem test_decode_channel_word : decodeWords .audioIn (0x00810010 :: 0x00010001 :: List.replicate 128 0x3F000000) =
    .invalid .channelWord := by decide +kernel
theorem test_decode_33_channels : decodeWords .audioIn (0x10810010 :: 0x00000021 :: List.replicate 4224 0x3F000000) =
    .invalid .channelCount := by decide +kernel
theorem test_decode_missing_word : decodeWords .audioIn (0x00810010 :: 0x00000001 :: List.replicate 127 0x3F000000) =
    .invalid .wordCount := by decide +kernel
theorem test_decode_noise_flag_two : decodeWords .ctrlIn (tc1Words 2 0) = .invalid .noiseFlag := by decide +kernel
theorem test_decode_noise_flag_high : decodeWords .ctrlIn (tc1Words 0 1) = .invalid .noiseFlag := by decide +kernel
theorem test_decode_tc1 : decodeWords .ctrlIn (tc1Words 0 0) = .instr (.updateConfig tc1) := by decide +kernel
theorem test_decode_noise_on :
    decodeWords .ctrlIn (tc1Words 1 0) = .instr (.updateConfig { tc1 with noiseEnabled := true }) := by decide +kernel
theorem test_decode_half_block : decodeWords .audioIn (0x00810010 :: 0x00000001 :: List.replicate 128 0x3F000000) =
    .instr (.processBlock 1 halfBlock) := by decide +kernel
theorem test_decode_blockOut : decodeWords .audioOut (0x00810011 :: 0x00000001 :: List.replicate 128 0x3F000000) =
    .instr (.blockOut 1 halfBlock) := by decide +kernel
theorem test_decode_spectrum : decodeWords .eventOut [0x00020020, 0x00000000, 0x3FD80000] =
    .instr (.spectrum [⟨0x3FD8000000000000⟩]) := by decide
theorem test_decode_byte_order : decode .ctrlIn [0x02, 0x00, 0x01, 0x00, 0x00, 0x08, 0x00, 0x00] =
    .instr (.startSpectrum 2048) := by decide
theorem test_decode_odd_bytes : decode .ctrlIn [0x03, 0x00, 0x00] = .invalid .byteLength := by decide
theorem test_encode_tc1 : encodeWords (.updateConfig tc1) = tc1Words 0 0 := by decide +kernel
theorem test_encode_half_block : encodeWords (.processBlock 1 halfBlock) =
    0x00810010 :: 0x00000001 :: List.replicate 128 0x3F000000 := by decide +kernel
theorem test_table_stop : decodeTableWord 32 0x00000003 = some .stopSpectrum := by decide +kernel
theorem test_table_block : decodeTableWord 64 0x0000000100810010 = some (.processBlock 1 (List.replicate 128 ⟨0⟩)) := by
  decide +kernel

/-! ### Assembler text (R128, R129) -/

theorem test_assemble_start : assembleWords "startSpectrum -1   # rejected when applied".toList =
    some [0x00010002, 0xFFFFFFFF] := by decide +kernel
theorem test_assemble_tc1 : assembleLine
    ("updateConfig 0.25, 1, 4000, 0.707, 1, 0.5, 50, 10, 1, 0.1, 1, 0, 0.5, 0, 0, 0, noise.level=0.01").toList =
    some (.updateConfig tc1) := by decide +kernel

/-! ### Arithmetic -/

/-- IEEE: 0.1 + 0.2. -/
theorem test_add_rounds : F64.add ⟨0x3FB999999999999A⟩ ⟨0x3FC999999999999A⟩ = ⟨0x3FD3333333333334⟩ := by decide +kernel
/-- R13: `1/0 = +Inf`, `Inf - Inf = NaN`. -/
theorem test_div_by_zero : F64.div F64.one F64.posZero = F64.inf false := by decide +kernel
theorem test_inf_minus_inf : (F64.sub (F64.inf false) (F64.inf false)).isNaN = true :=
  by rw [F64.sub]; exact F64.isNaN_nanOf _ _ _
/-- R17: `SQRT(-0) = -0`. -/
theorem test_sqrt_neg_zero : F64.sqrt (F64.zero true) = F64.zero true := by decide +kernel
/-- R185's example: `FMOD` of twice `TWO_PI` is 0. -/
theorem test_fmod_exact : F64.fmod ⟨0x402921FB54442D18⟩ F64.twoPi = F64.posZero := by decide +kernel
/-- V-PIPE-3 sample 0 against program P1's first word. -/
theorem test_narrow : F64.narrow ⟨0xBF94C446CAADBC3B⟩ = ⟨0xBCA62236⟩ := by decide +kernel
theorem test_widen : F32.widen ⟨0x3F000000⟩ = F64.half := by decide +kernel
/-- R22: `COS(TWO_PI) = 1.0`. -/
theorem test_cos_two_pi : fnCos F64.twoPi = F64.one := by decide +kernel

/-! ### The channel -/

/-- R182's examples. -/
theorem test_phase_step : phaseStepOf ⟨0x40E7700000000000⟩ ⟨0x3FD0000000000000⟩ = ⟨0x3FF921FB54442D18⟩ := by
  decide +kernel
theorem test_phase_step_clamped : phaseStepOf ⟨0x40E7700000000000⟩ someNaN = ⟨0x3EDA5A84D380747E⟩ := by decide +kernel
/-- V-PIPE-3, the wrap after sample 3. -/
theorem test_phase_wrap : advancePhase ⟨0x4012D97C7F3321D2⟩ ⟨0x3FF921FB54442D18⟩ = F64.posZero := by decide +kernel
/-- V-PIPE-4, freqRatio 1.5: the second reduction. -/
theorem test_phase_fmod : advancePhase ⟨0x400921FB54442D18⟩ ⟨0x4022D97C7F3321D2⟩ = F64.posZero := by decide +kernel
/-- V-PIPE-6. -/
theorem test_xorshift : xorshift32 1 = 0x00042021 ∧ xorshift32 0x00042021 = 0x04080601 := by decide
theorem test_noise : injectNoise true ⟨0x3F847AE147AE147B⟩ F64.one (noiseValue 270369) = ⟨0x3FEFAE171ECD70A6⟩ := by
  decide +kernel
/-- R190's second example: rectified 0.1. -/
theorem test_blend : blendRectified F64.half ⟨0x3FC999999999999A⟩
    (diodeOf ⟨0x3FC999999999999A⟩ F64.half ⟨0x3FB999999999999A⟩ ⟨0x3FC999999999999A⟩) = ⟨0x3FB999999999999A⟩ := by
  decide +kernel
/-- R192's second example: equality and below select release. -/
theorem test_release : followEnvelope F64.posZero ⟨0x3FEF9A3CC26C0F05⟩ F64.one F64.posZero = ⟨0x3FEF9A3CC26C0F05⟩ := by
  decide +kernel
/-- R195's second example. -/
theorem test_track_release :
    trackLevel ⟨0x3FEFFE4B238B1A37⟩ ⟨0x3FDACA1047263BDA⟩ ⟨0xBFAD42999725E280⟩ = ⟨0x3FDAC8D47C19938B⟩ := by decide +kernel
/-- V-PIPE-8's last row: `threshold = 0` gives gain 0. -/
theorem test_gain_threshold_zero : compressorGain F64.posZero ⟨0x4010000000000000⟩ F64.one = F64.posZero := by
  decide +kernel
/-- R197's example. -/
theorem test_apply_gain : applyGain F64.one ⟨0xBFEF3D9166445989⟩ ⟨0x3FE35F8A64CF0073⟩ = ⟨0xBFE2E9D4384DB62E⟩ := by
  decide +kernel
/-- V-PIPE-11. -/
theorem test_clamp : clampOutput (F64.inf true) = F64.negOne ∧ clampOutput (F64.zero true) = F64.zero true := by
  decide +kernel
/-- V-PIPE-10. -/
theorem test_stage_count : stageCount ⟨0x3FF6666666666666⟩ = 1 ∧ stageCount ⟨0x3FF8000000000000⟩ = 2 ∧
    stageCount ⟨0x4004000000000000⟩ = 3 ∧ stageCount ⟨0x404FC00000000000⟩ = 64 ∧ stageCount someNaN = 1 := by
  decide +kernel
/-- R155's example: the first two values of the impulse response. -/
theorem test_impulse : (processStage stageFlt1 F64.one).2 = ⟨0x3FA9567DDCDBA7C1⟩ ∧
    (processStage (processStage stageFlt1 F64.one).1 F64.posZero).2 = ⟨0x3FC4C63EC71DDA40⟩ := by decide +kernel
/-- R158's example. -/
theorem test_cascade : (cascade [stageFlt1, stageFlt1] F64.one).2 = ⟨0x3F64100E6F895E2C⟩ := by decide +kernel
/-- R152, `fc = 0`. -/
theorem test_cutoff_zero : lowPassCoefficients ⟨0x40E7700000000000⟩ F64.posZero ⟨0x3FE69FBE76C8B439⟩ =
    ⟨F64.posZero, F64.posZero, F64.posZero, F64.negTwo, F64.one⟩ := by decide +kernel
/-- R205's example, with `drop = 2` in place of 0, so that the free `EXP` of the diode does not enter (its share is 0 in
the example too). -/
theorem test_process_sample :
    let r := processSample { tc1 with drop := F64.two }
      { oneStage with phaseStep := ⟨0x3FF921FB54442D18⟩, atkCoef := ⟨0x3FE368B2FC6F960A⟩ } F64.half
    r.output = ⟨0xBF94C446CAADBC3B⟩ ∧ r.modulated = ⟨0x3FF8000000000000⟩ ∧ r.channel.rng = 270369 ∧
    r.channel.env = ⟨0x3FE2E2F385589EF1⟩ := by decide +kernel
/-- R157: an input of +Inf gives +Inf, and from then on the stage outputs NaN, also where R155's sum stays infinite (`b1 < 0`
and `b2 < 0`). -/
theorem test_infinity_then_nan :
    let st := { stageFlt1 with b2 := F64.negOne }
    let next := (processStage st (F64.inf false)).1
    next.y1 = F64.inf false ∧ directForm next F64.posZero = F64.inf false ∧
    (processStage next F64.posZero).2.isNaN = true :=
  ⟨by decide +kernel, by decide +kernel, isNaN_stageOutput (by decide +kernel) _⟩
/-- R203's example: 4 stages to 8. -/
theorem test_resize : (resizeStages { oneStage with S := 4, stages := List.replicate 4 stageFlt1 } 8).stages =
    List.replicate 4 stageFlt1 ++ List.replicate 4 newStage := by decide +kernel

/-! ### The analyzer -/

/-- V-SPEC-4. -/
theorem test_bitrev : bitrevTable 8 = [0, 4, 2, 6, 1, 5, 3, 7] := by decide
/-- V-SPEC-2. -/
theorem test_analyze_two : (hann 2 0 = F64.posZero ∧ hann 2 1 = F64.posZero) ∧ (cosTable 2 = [F64.one]) := by
  decide +kernel
/-- R248: the magnitude is 0 "for every buffer". -/
theorem test_analyze_two_infinite : analyze 2 [0, 1] [F64.one] [F64.posZero] [F64.inf false, F64.one] = [F64.posZero] := rfl
/-- R243: `w[N-1] = 0`, where the argument of COS is `TWO_PI` and where (`N = 16`) it is not. -/
theorem test_window_end : hann 4 3 = F64.posZero ∧ hann 16 15 = F64.posZero := by decide +kernel

/-! ### One step -/

/-- R50. -/
theorem test_reset_memory : State.reset.ring.wf = true ∧ memRead State.reset 0 = none := by decide
theorem test_step_idle : step State.reset = .next State.reset := rfl
/-- R272, V-ENC-2: an invalid message leaves the mailbox alone. -/
theorem test_step_invalid : step { waiting .stopSpectrum with queue := [⟨.ctrlIn, [0x03, 0x01, 0x00, 0x00]⟩] } =
    .next (waiting .stopSpectrum) := rfl
/-- R271's example: the later message displaces the earlier. -/
theorem test_updateConfig_displaced : execStartSpectrum 1024 (waiting (.updateConfig tc1)) =
    .next (waiting (.startSpectrum 1024)) := rfl
/-- R283: the Config waits in the mailbox and reaches `cfg` when it is applied. -/
theorem test_updateConfig_applied : (applyPending (waiting (.updateConfig tc1))).cfg = tc1 ∧
    (applyPending (waiting (.updateConfig tc1))).pending = none := ⟨rfl, rfl⟩
/-- R286 and R287's examples. -/
theorem test_startSpectrum_applied : (applyPending (waiting (.startSpectrum 8))).N = 8 ∧
    (applyPending (waiting (.startSpectrum 8))).bitrev = [0, 4, 2, 6, 1, 5, 3, 7] := ⟨rfl, rfl⟩
theorem test_startSpectrum_rejected : validFft 1000 = false ∧ validFft 0 = false ∧ validFft (-1) = false ∧
    validFft 0x80000000 = false ∧ validFft 65536 = false ∧ validFft 32768 = true ∧ validFft 1 = true := by decide
/-- R288. -/
theorem test_stopSpectrum_applied :
    (applyPending { capturing with pending := some .stopSpectrum }) = { State.reset with frameCount := 3 } := rfl
theorem test_stopSpectrum_fetched : step (State.reset.withFetchWord 32 0x00000003) = .next (waiting .stopSpectrum) := rfl
/-- R292: V-ENC-10's block from reset. -/
theorem test_processBlock_empty : exec (.processBlock 0 []) State.reset =
    .next { State.reset with frameCount := 1, output := [.blockOut 0 []] } := rfl
/-- V-SPEC-1 and R279: the fourth block with `N = 1` emits a spectrum without magnitudes, after its blockOut. -/
theorem test_processBlock_emits : exec (.processBlock 0 []) capturing =
    .next { capturing with frameCount := 0, output := [.blockOut 0 [], .spectrum []] } := rfl
/-- R281: the emitted message is the end of the history. -/
theorem test_blockOut_emitted : exec (.blockOut 0 []) State.reset =
    .next { State.reset with output := [.blockOut 0 []] } := rfl
theorem test_spectrum_emitted : exec (.spectrum [F64.half]) State.reset =
    .next { State.reset with output := [.spectrum [F64.half]] } := rfl
/-- R278: the cursor wraps; writing `+0` removes the entry. -/
theorem test_ring_wrap : (ringWrite F64.one twoEntries).map (fun t => (t.ring, t.cursor)) = some ([(1, F64.one)], 0) ∧
    Memory.store [(1, F64.one)] 1 F64.posZero = [] := by decide +kernel

/-! ### Every statement's hypotheses are met

One theorem per statement with hypotheses, `witness_<Name>`, with the boundary value of each clause where there are several. -/

/-- A state with capture on that meets the invariant. -/
theorem capturing_inv : capturing.Inv where
  channels_length := rfl
  chanCount_le := Nat.zero_le _
  channels := fun _ h => absurd h List.not_mem_nil
  capture_iff := ⟨fun _ => Nat.one_ne_zero, fun _ => rfl⟩
  size := fun _ => by decide
  cursor_off := fun _ => rfl
  cursor_on := fun _ => Nat.one_pos
  ring_wf := rfl
  ring_within := rfl
  bitrev_eq := rfl
  cosT_eq := rfl
  sinT_eq := rfl
  frameCount_lt := by decide
  output_good := fun _ h => absurd h List.not_mem_nil
  queue_input := fun _ h => absurd h List.not_mem_nil

/-- A block completes in every state whose mailbox is empty and whose capture is off. -/
theorem block_completes (c : Nat) (xs : List F32) {s : State} (hp : s.pending = none) (hc : s.capture = false) :
    ∃ t, exec (.processBlock c xs) s = .next t := by
  have hoff : (beginBlock c s).capture = false := by
    rcases checkChannels_cases c s with ⟨_, e⟩ | ⟨_, e⟩ <;> simp [beginBlock, applyPending, hp, e, hc]
  obtain ⟨t, ht⟩ := finishBlock_complete c xs (s := beginBlock c s) (by simp [hoff])
  exact ⟨t, execProcessBlock_of_some ht⟩

theorem witness_DecodeInvertsEncode : (Instr.processBlock 1 halfBlock).wf = true ∧
    (Instr.spectrum [F64.one]).wf = true ∧ isBlock 32 (List.replicate 4096 ⟨0⟩) = true ∧
    isMagnitudeCount 16384 = true ∧ isMagnitudeCount 0 = true := by decide +kernel

theorem witness_EncodeInvertsDecode : decode .ctrlIn [0x03, 0x00, 0x00, 0x00] = .instr .stopSpectrum ∧
    decode .eventOut [0x20, 0x00, 0x00, 0x00] = .instr (.spectrum []) := by decide

/-- One message of every kind. -/
theorem witness_AcceptedMessagesHaveRequiredLength :
    decode .ctrlIn (encode (.updateConfig tc1)) = .instr (.updateConfig tc1) ∧
    decode .ctrlIn (encode (.startSpectrum 8)) = .instr (.startSpectrum 8) ∧
    decode .ctrlIn (encode .stopSpectrum) = .instr .stopSpectrum ∧
    decode .audioIn (encode (.processBlock 1 halfBlock)) = .instr (.processBlock 1 halfBlock) ∧
    decode .audioOut (encode (.blockOut 0 [])) = .instr (.blockOut 0 []) ∧
    decode .eventOut (encode (.spectrum [F64.one])) = .instr (.spectrum [F64.one]) := by decide +kernel

/-- A reserved opcode, an output opcode, a nonzero `RSV`, a nonzero high half. -/
theorem witness_ReservedEncodingsAreInvalid : Port.audioIn.isInput = true ∧ headerOpcode 0x00000004 = 0x04 ∧
    headerOpcode 0x00010011 = 0x11 ∧ headerReserved 0x00000103 = 1 ∧ headerOpcode 0x00810010 = 0x10 ∧
    highHalf 0x00010001 = 1 := by decide

theorem witness_StepRunsDecodedInstruction :
    (queued [⟨.ctrlIn, [0x03, 0x00, 0x00, 0x00]⟩]).queue = ⟨.ctrlIn, [0x03, 0x00, 0x00, 0x00]⟩ :: [] ∧
    decode .ctrlIn [0x03, 0x00, 0x00, 0x00] = .instr .stopSpectrum := by decide

theorem witness_StepDiscardsInvalidMessage :
    (queued [⟨.ctrlIn, [0x03, 0x01, 0x00, 0x00]⟩]).queue = ⟨.ctrlIn, [0x03, 0x01, 0x00, 0x00]⟩ :: [] ∧
    decode .ctrlIn [0x03, 0x01, 0x00, 0x00] = .invalid .reservedField := by decide

theorem witness_IdleCoreHoldsItsState : State.reset.queue = [] := rfl

theorem witness_BlockAboveMaxChannelsDiscarded : headerOpcode 0x00010010 = 0x10 ∧
    Config.maxChannels < lowHalf 0x00000021 ∧
    (queued [⟨.audioIn, ([0x00010010, 0x00000021] : List Word).flatMap bytesOfWord⟩]).queue =
      ⟨.audioIn, (0x00010010 :: 0x00000021 :: ([] : List Word)).flatMap bytesOfWord⟩ :: [] := by decide

theorem witness_LatestControlMessageWins : (Instr.updateConfig tc1).kind.port = .ctrlIn ∧
    (Instr.startSpectrum 1024).kind.port = .ctrlIn ∧
    exec (.updateConfig tc1) State.reset = .next (waiting (.updateConfig tc1)) := ⟨rfl, rfl, rfl⟩

theorem witness_PendingMessageAppliedOnce : State.reset.pending = none := rfl

theorem witness_UpdateConfigReplacesConfigWhole : (waiting (.updateConfig tc1)).pending = some (.updateConfig tc1) := rfl

theorem witness_AcceptedStartCreatesZeroRing : (waiting (.startSpectrum 1)).pending = some (.startSpectrum 1) ∧
    validFft 1 = true ∧ validFft 32768 = true := by decide

theorem witness_RejectedStartHasNoEffect : (waiting (.startSpectrum 0)).pending = some (.startSpectrum 0) ∧
    validFft 0 = false ∧ validFft 65536 = false := by decide

theorem witness_StopDiscardsTheAnalyzer : (waiting .stopSpectrum).pending = some .stopSpectrum := rfl

/-- A block that applies a start, and one that applies a stop. -/
theorem witness_CaptureModeChangesOnlyByStartOrStop :
    (∃ t, exec (.processBlock 0 []) (waiting (.startSpectrum 1)) = .next t ∧ t.capture ≠ false) ∧
    ∃ t, exec (.processBlock 0 []) { capturing with pending := some .stopSpectrum } = .next t ∧ t.N ≠ 1 :=
  ⟨⟨_, rfl, by decide⟩, ⟨_, rfl, by decide⟩⟩

theorem witness_StartThenStopEmitsNoSpectrum :
    exec (.startSpectrum 2048) State.reset = .next (waiting (.startSpectrum 2048)) ∧
    exec .stopSpectrum (waiting (.startSpectrum 2048)) = .next (waiting .stopSpectrum) ∧
    ∃ t, exec (.processBlock 0 []) (waiting .stopSpectrum) = .next t := ⟨rfl, rfl, ⟨_, rfl⟩⟩

theorem witness_ConfigHeldBitForBit : exec (.updateConfig tc1) State.reset = .next (waiting (.updateConfig tc1)) ∧
    ∃ t, exec (.processBlock 0 []) (waiting (.updateConfig tc1)) = .next t := ⟨rfl, ⟨_, rfl⟩⟩

/-- A block of one channel while capture is on, one block before an emission; and the largest block. -/
theorem witness_ProcessBlockCompletes : capturing.Inv ∧ (Instr.processBlock 1 halfBlock).wf = true ∧
    (beginBlock 1 capturing).capture = true ∧
    (runChannels (beginBlock 1 capturing).cfg (beginBlock 1 capturing).ch halfBlock).length = 1 ∧
    isBlock 32 (List.replicate 4096 ⟨0⟩) = true :=
  ⟨capturing_inv, by decide +kernel, rfl, length_runChannels _ _ _, by decide +kernel⟩

theorem witness_ChannelCountChangeRecreatesAll : 1 ≠ State.reset.chanCount ∧ 0 = State.reset.chanCount := by decide

theorem witness_RecreatedChannelsForgetThePast : State.reset.pending = none ∧ capturing.cfg = State.reset.cfg ∧
    1 ≠ State.reset.chanCount ∧ (∃ t, exec (.processBlock 1 halfBlock) State.reset = .next t) ∧
    ∃ t, exec (.processBlock 1 halfBlock) { State.reset with frameCount := 2 } = .next t :=
  ⟨rfl, rfl, by decide, block_completes _ _ rfl rfl, block_completes _ _ rfl rfl⟩

theorem witness_ZeroChannelBlockCompletes : capturing.Inv := capturing_inv

/-- The last entry, so that the cursor wraps. -/
theorem witness_RingWriteReplacesOneEntry : twoEntries.ring.wf = true ∧ twoEntries.cursor < twoEntries.N := by decide

/-- As many samples as entries. -/
theorem witness_CapturedSamplesFillTheRing : twoEntries.ring.wf = true ∧ twoEntries.cursor < twoEntries.N ∧
    [F64.one, F64.two].length ≤ twoEntries.N ∧ (∀ j, j < ([] : List F64).length → 0 ≠ (1 + j) % 2) := by decide

theorem witness_FrameCounterPacesTheSpectrum :
    (State.reset.frameCount + 1 < 4 ∧ ({ State.reset with frameCount := 2 } : State).frameCount + 1 < 4) ∧
    (({ State.reset with frameCount := 3 } : State).frameCount + 1 = 4 ∧ State.reset.capture = false) ∧
    (capturing.frameCount + 1 = 4 ∧ capturing.capture = true) := by decide

theorem witness_BlockOutSamplesStayInRange : ∃ t, exec (.processBlock 1 halfBlock) State.reset = .next t :=
  block_completes _ _ rfl rfl

/-- The largest phase below `TWO_PI`, and `+0`, with the default frequency at 48000 Hz. -/
theorem witness_PhaseStaysInRange : isPositive ⟨0x40E7700000000000⟩ = true ∧
    (phaseStepOf ⟨0x40E7700000000000⟩ Config.defaultConfig.freqRatio).isFinite = true ∧
    (⟨0x401921FB54442D17⟩ : F64).inPhaseRange = true ∧ F64.posZero.inPhaseRange = true := by decide +kernel

theorem witness_NoiseGeneratorNeverReachesZero : (1 : BitVec 32) ≠ 0 := by decide

/-- Coefficients 0 and 1 and the largest number; the times +0 and 1; a state with a valid Config whose envelopes are not
negative and a step from it. -/
theorem witness_EnvelopesAreNeverNegative :
    ((F64.ge F64.posZero F64.posZero = true ∧ F64.ge F64.one F64.posZero = true) ∧
      (F64.ge F64.one F64.one = true ∧ F64.ge F64.one F64.half = true) ∧
      isNonNegative F64.posZero = true ∧ isNonNegative ⟨0x7FEFFFFFFFFFFFFF⟩ = true) ∧
    (isNonNegative F64.one = true ∧ F64.one.sign = false ∧ F64.posZero.sign = false) ∧
    capturing.Inv ∧ capturing.ConfigsValid ∧ capturing.EnvelopesNotNegative ∧ ∃ t, step capturing = .next t :=
  ⟨by decide +kernel, by decide +kernel, capturing_inv, ⟨by decide +kernel, fun _ h => by cases h⟩,
    fun _ h => absurd h List.not_mem_nil, _, rfl⟩

theorem witness_NaNEnvelopePersists : ({ oneStage with env := someNaN } : ChannelState).env.isNaN = true := by decide

theorem witness_NaNCompressorEnvelopeBypasses :
    ({ oneStage with compEnv := someNaN } : ChannelState).compEnv.isNaN = true := by decide

/-- An infinity in the output history, and a NaN in the older input of a stage, with a block of one sample and an update that
adds stages. -/
theorem witness_NonFiniteFilterHistoryPersists :
    (∃ st ∈ ({ oneStage with stages := [{ stageFlt1 with y1 := F64.inf false }] } : ChannelState).stages,
      st.finiteHistory = false) ∧
    (∃ st ∈ ({ oneStage with stages := [{ stageFlt1 with x2 := someNaN }] } : ChannelState).stages,
      st.finiteHistory = false) ∧
    ([⟨0x3F000000⟩] : List F32) ≠ [] ∧ oneStage.stages.length = oneStage.S ∧
    oneStage.S ≤ stageCount Config.defaultConfig.stages :=
  ⟨⟨_, List.mem_cons_self .., by decide⟩, ⟨_, List.mem_cons_self .., by decide⟩, by decide, rfl, by decide +kernel⟩

/-- A finite history, an infinite one, an infinite input, a NaN coefficient. -/
theorem witness_StageFollowsDirectFormOne :
    (stageFlt1.x1.isFinite = true ∧ stageFlt1.x2.isFinite = true ∧ stageFlt1.y1.isFinite = true ∧
      stageFlt1.y2.isFinite = true) ∧ ({ stageFlt1 with y2 := F64.inf true } : FilterStageState).y2.isFinite = false ∧
    (F64.inf false).isFinite = false ∧ ({ stageFlt1 with b2 := someNaN } : FilterStageState).b2.isFinite = false := by
  decide

/-- NaN; the neighbours of 1 and -1 on both sides. -/
theorem witness_OutputClampCases : someNaN.isNaN = true ∧ F64.gt ⟨0x3FF0000000000001⟩ F64.one = true ∧
    F64.lt ⟨0xBFF0000000000001⟩ F64.negOne = true ∧ F64.one.inUnitRange = true ∧ F64.negOne.inUnitRange = true := by
  decide +kernel

/-- The neighbours of 1 and of 64. -/
theorem witness_StageCountRoundsToNearest : F64.ge ⟨0x3FEFFFFFFFFFFFFF⟩ F64.one = false ∧
    F64.ge F64.one F64.one = true ∧ F64.ge ⟨0x404FFFFFFFFFFFFF⟩ (F64.ofNat 64) = false ∧
    F64.ge (F64.ofNat 64) (F64.ofNat 64) = true ∧ F64.ge someNaN F64.one = false := by decide +kernel

/-- One stage kept and three added. -/
theorem witness_UpdateKeepsRunningState : oneStage.stages.length = oneStage.S ∧
    (updateChannel sampleRate Config.defaultConfig oneStage).S = 4 ∧ oneStage.stages[0]? = some stageFlt1 ∧
    oneStage.S ≤ 1 := by decide +kernel

theorem witness_UpdateTwiceIsUpdateOnce : oneStage.stages.length = oneStage.S := rfl

/-- The smallest and the largest number as thresholds and levels; the ratio next above 1 and an infinite one. -/
theorem witness_CompressorCorners : someNaN.isNaN = true ∧ isPositive ⟨0x0000000000000001⟩ = true ∧
    isPositive ⟨0x7FEFFFFFFFFFFFFF⟩ = true ∧ F64.gt ⟨0x3FF0000000000001⟩ F64.one = true ∧
    F64.gt (F64.inf false) F64.one = true ∧ F64.lt F64.negOne F64.posZero = true ∧ F64.gt F64.half F64.negOne = true := by
  decide +kernel

/-- `FREQ_EPS` itself, its upper neighbour, NaN. -/
theorem witness_FrequencyRatioClamp : F64.ge Config.freqEps Config.freqEps = true ∧
    F64.gt ⟨0x3EB0C6F7A0B5ED8E⟩ Config.freqEps = true ∧ someNaN.isNaN = true := by decide +kernel

theorem witness_BitReversalReversesBits : (0 < 2 ^ 3 ∧ 7 < 2 ^ 3) ∧ 0 < 3 ∧ 2 < 3 := by decide

/-- The smallest and the largest size with a window; a table entry; an entry of the permutation; a size other than 2. -/
theorem witness_AnalyzerFollowsItsFormulas : (isFftSize 2 = true ∧ isFftSize 32768 = true) ∧ 0 < 2 / 2 ∧
    (bitrevTable 4)[1]? = some 2 ∧ 4 ≠ 2 := by decide

/-- One butterfly on two entries; a group and a pass of them, with the last entry a group reaches; the passes of size 2. -/
theorem witness_ButterflyPassesFollowTheLoopNest :
    (0 ≠ 1 ∧ 0 < [F64.one, F64.two].length ∧ 1 < [F64.one, F64.two].length ∧
      [F64.posZero, F64.posZero].length = [F64.one, F64.two].length) ∧
    (0 + 2 * 1 ≤ [F64.one, F64.two].length ∧ 0 < 1 ∧ [F64.one, F64.two].length = 1 * (2 * 1)) ∧ 0 < 1 := by decide

theorem witness_SmallTransformsGiveNothing : F64.one.isFinite = true ∧ (⟨0xFFEFFFFFFFFFFFFF⟩ : F64).isFinite = true := by
  decide

/-- A tie on each side; the largest value that rounds to a finite number and the smallest that does not; finite operands with
a sum that is 0 and one that is not. -/
theorem witness_RoundingIsToNearestEven : (0 < 2 ∧ 2 * 5 = 2 * (roundNearestEven 5 2 * 2) + 2 ∧
      2 * (roundNearestEven 7 2 * 2) = 2 * 7 + 2) ∧
    ((F64.round false ((2 ^ 54 - 1) * 2 ^ 2044 - 1) 1).isFinite = true ∧
      F64.round true ((2 ^ 54 - 1) * 2 ^ 2044) 1 = F64.inf true) ∧
    (F64.one.isFinite = true ∧ F64.one.units + F64.negOne.units = 0 ∧ F64.one.units + F64.one.units ≠ 0 ∧
      F64.two.unitsAbs ≠ 0 ∧ F64.one.unitsAbs ≠ F64.two.unitsAbs) := by decide +kernel

/-- The smallest number above 0 and a negative one; numbers on both sides of the root of 2. -/
theorem witness_SquareRootIsCorrectlyRounded :
    ((⟨0x0000000000000001⟩ : F64).isFinite = true ∧ (⟨0x0000000000000001⟩ : F64).unitsAbs ≠ 0 ∧
      (⟨0x0000000000000001⟩ : F64).sign = false) ∧ (F64.negOne.unitsAbs ≠ 0 ∧ F64.negOne.sign = true) ∧
    F64.one.unitsAbs < F64.two.sqrt.unitsAbs ∧ F64.two.sqrt.unitsAbs < F64.two.unitsAbs := by decide +kernel

theorem witness_IntegerConversionIsExact : 0 < 2 ^ 53 ∧ 9007199254740991 < 2 ^ 53 := by decide

/-- The largest finite sample and the smallest. -/
theorem witness_WideningIsExact : (⟨0xFF7FFFFF⟩ : F32).magnitude < infMagnitude32 ∧
    (⟨0x00000001⟩ : F32).magnitude < infMagnitude32 := by decide

theorem witness_RemainderIsExact : (⟨0xC02921FB54442D18⟩ : F64).isFinite = true ∧ F64.twoPi.isFinite = true ∧
    F64.twoPi.unitsAbs ≠ 0 := by decide +kernel

theorem witness_StepKeepsTheInvariant : capturing.Inv ∧ ∃ t, step capturing = .next t := ⟨capturing_inv, ⟨_, rfl⟩⟩

theorem witness_NoTransactionStopsPartWay : capturing.Inv := capturing_inv

end Sys2Proof.Tests
end

section
/-! PROOFS. What creation leaves: the state after reset and a fresh channel (10_state.md section 7). -/

namespace Sys2Proof.Machine

/-! ### The derived fields of a channel, written out -/

/-- Rules R181 and R182 as one formula. -/
theorem phaseStepOf_eq (fs freqRatio : F64) :
    phaseStepOf fs freqRatio =
      (F64.twoPi.mul (fs.mul (if F64.gt freqRatio Config.freqEps then freqRatio else Config.freqEps))).div fs := rfl

/-- Rule R200 for a detector time, with the clamped ratio of rule R181. -/
theorem envelopeCoefficient_eq (fs freqRatio time : F64) :
    envelopeCoefficient fs freqRatio time =
      let frc := if F64.gt freqRatio Config.freqEps then freqRatio else Config.freqEps
      fnExp (F64.negOne.div ((fs.mul (F64.one.div (fs.mul frc))).mul time)) := rfl

/-- Rule R200 for the compressor. -/
theorem compressorCoefficient_eq (fs time : F64) :
    compressorCoefficient fs time = fnExp (F64.negOne.div (fs.mul time)) := rfl

/-! ### A fresh channel -/

/-- A channel without stages grows by new ones only (rule R203). -/
theorem resizeStages_blankChannel_stages (n : Nat) :
    (resizeStages blankChannel n).stages = List.replicate n newStage := by
  cases n with
  | zero => rfl
  | succ n => simp [resizeStages, blankChannel]

/-- Every stage of a fresh channel is a new stage with the Config's coefficients (rule R52). -/
theorem freshChannel_stages (fs : F64) (c : ConfigRecord) :
    (freshChannel fs c).stages =
      List.replicate (stageCount c.stages) (updateCoefficients fs c.cutoff c.q newStage) := by
  rw [freshChannel, updateChannel_stages, resizeStages_blankChannel_stages, List.map_replicate]

/-- A fresh channel field by field: the running state is `blankChannel`'s, the rest is derived from the Config (rules
R51 and R201). -/
theorem freshChannel_eq (fs : F64) (c : ConfigRecord) :
    freshChannel fs c =
      { phase := F64.posZero
        phaseStep := phaseStepOf fs c.freqRatio
        env := F64.posZero
        atkCoef := envelopeCoefficient fs c.freqRatio c.attackTime
        relCoef := envelopeCoefficient fs c.freqRatio c.releaseTime
        compEnv := F64.posZero
        compRelCoef := compressorCoefficient fs c.compReleaseTime
        rng := Config.noiseSeed
        S := stageCount c.stages
        stages := List.replicate (stageCount c.stages) (updateCoefficients fs c.cutoff c.q newStage) } := by
  rw [← freshChannel_stages]
  rfl

/-- Settles O24: the fields of a fresh channel, with the formulas of rules R181, R182 and R200 in place of their names. -/
theorem freshChannelHoldsCreationValues : Obligations.FreshChannelHoldsCreationValues := by
  intro cfg frc cp
  rw [freshChannel_eq, phaseStepOf_eq, envelopeCoefficient_eq, envelopeCoefficient_eq, compressorCoefficient_eq]
  rfl

/-! ### Reset -/

/-- Settles O57: each value is the one `State.reset` is built with (rule R50's table). -/
theorem resetState : Obligations.ResetState :=
  ⟨rfl, rfl, rfl, rfl, rfl, rfl, rfl, rfl, rfl, rfl, rfl, rfl, rfl⟩

end Sys2Proof.Machine
end

section
/-! PROOFS. What the decoder accepts: the words of a well-formed message and nothing else, so that the message's length and
the fields of its header are the required ones (30_encoding.md rules R112 to R125). -/

namespace Sys2Proof

/-! ### What the decoder reads from a payload -/

/-- A payload read as a Config is that Config's slots (rules R116, R117). -/
theorem decodeConfig_eq_instr {payload : List Word} {i : Instr} (h : decodeConfig payload = .instr i) :
    ∃ c, i = .updateConfig c ∧ payloadWords i = payload := by
  unfold decodeConfig at h
  split at h
  case h_2 => cases h
  case h_1 hslots =>
    split_ifs at h with hflag
    cases h
    refine ⟨_, rfl, ?_⟩
    rw [wordsOfSlots_of_slotsOfWords hslots]
    rcases hflag with rfl | rfl <;> rfl

/-- A payload read as a block is its channel count in word 1 and its samples (rule R120). -/
theorem decodeBlock_eq_instr {build : Nat → List F32 → Instr} {payload : List Word} {i : Instr}
    (h : decodeBlock build payload = .instr i) :
    ∃ c xs, i = build c xs ∧ isBlock c xs = true ∧ BitVec.ofNat 32 c :: xs.map F32.bits = payload := by
  unfold decodeBlock at h
  split at h
  case h_1 => cases h
  case h_2 word1 samples =>
    split_ifs at h with hhigh hcount hlen
    cases h
    refine ⟨lowHalf word1, samples.map F32.mk, rfl, ?_, ?_⟩
    · rw [isBlock_iff, List.length_map]
      exact ⟨not_lt.1 hcount, not_not.1 hlen⟩
    · rw [map_bits_map_mk32, ← word_eq_ofNat_lowHalf (not_not.1 hhigh)]

/-- A payload read as a spectrum is that spectrum's magnitudes (rule R122). -/
theorem decodeMagnitudes_eq_instr {payload : List Word} {i : Instr} (h : decodeMagnitudes payload = .instr i) :
    ∃ ms, i = .spectrum ms ∧ isMagnitudeCount ms.length = true ∧ payloadWords i = payload := by
  unfold decodeMagnitudes at h
  split at h
  case h_2 => cases h
  case h_1 xs hslots =>
    split_ifs at h with hcount
    cases h
    refine ⟨xs.map F64.mk, rfl, by rwa [List.length_map], ?_⟩
    rw [wordsOfSlots_of_slotsOfWords hslots, payloadWords, List.flatMap_map]

/-- A payload read as a message of a kind is the payload of that message, which is well-formed and of that kind. -/
theorem decodePayload_eq_instr {kind : Kind} {payload : List Word} {i : Instr} (h : decodePayload kind payload = .instr i) :
    i.kind = kind ∧ i.wf = true ∧ payloadWords i = payload := by
  cases kind <;> simp only [decodePayload] at h
  case updateConfig =>
    obtain ⟨c, rfl, hwords⟩ := decodeConfig_eq_instr h
    exact ⟨rfl, rfl, hwords⟩
  case startSpectrum =>
    split at h <;> cases h
    exact ⟨rfl, rfl, rfl⟩
  case stopSpectrum =>
    split at h <;> cases h
    exact ⟨rfl, rfl, rfl⟩
  case processBlock =>
    obtain ⟨c, xs, rfl, hblock, hwords⟩ := decodeBlock_eq_instr h
    exact ⟨rfl, hblock, hwords⟩
  case blockOut =>
    obtain ⟨c, xs, rfl, hblock, hwords⟩ := decodeBlock_eq_instr h
    exact ⟨rfl, hblock, hwords⟩
  case spectrum =>
    obtain ⟨ms, rfl, hcount, hwords⟩ := decodeMagnitudes_eq_instr h
    exact ⟨rfl, hcount, hwords⟩

/-! ### What the decoder reads from a whole message -/

/-- The checks of rule R123, all of them passed. -/
theorem decodeWords_cons_eq_instr {port : Port} {header : Word} {payload : List Word} {i : Instr}
    (h : decodeWords port (header :: payload) = .instr i) :
    headerOpcode header = i.kind.opcode ∧ i.kind.port = port ∧ headerReserved header = 0 ∧
      payload.length = headerLen header ∧ i.wf = true ∧ payloadWords i = payload := by
  simp only [decodeWords] at h
  split at h
  case h_1 => cases h
  case h_2 kind hkind =>
    split_ifs at h with hport hrsv hlen
    obtain ⟨rfl, hwf, hwords⟩ := decodePayload_eq_instr h
    exact ⟨opcode_of_kindOfOpcode hkind, not_not.1 hport, not_not.1 hrsv, not_not.1 hlen, hwf, hwords⟩

/-- What decodes is a header word and its payload words. -/
theorem decode_eq_instr {port : Port} {bytes : List Byte} {i : Instr} (h : decode port bytes = .instr i) :
    ∃ header payload, bytes = (header :: payload).flatMap bytesOfWord ∧
      decodeWords port (header :: payload) = .instr i := by
  unfold decode at h
  split at h
  case h_1 => cases h
  case h_2 words hwords =>
    cases words with
    | nil => cases h
    | cons header payload => exact ⟨header, payload, bytesOfWords_of_wordsOfBytes hwords, h⟩

/-- Whole words are decoded as words. -/
theorem decode_bytesOfWords (port : Port) (words : List Word) :
    decode port (words.flatMap bytesOfWord) = decodeWords port words := by
  simp only [decode, wordsOfBytes_bytesOfWords]

/-- The decoder answers one or the other: what is no message is invalid. -/
theorem Decoded.exists_invalid {d : Decoded} (h : ∀ i, d ≠ .instr i) : ∃ why, d = .invalid why := by
  cases d with
  | instr i => exact absurd rfl (h i)
  | invalid why => exact ⟨why, rfl⟩

/-! ### The length of a message -/

theorem length_bytesOfWords (words : List Word) : (words.flatMap bytesOfWord).length = 4 * words.length := by
  induction words with
  | nil => rfl
  | cons w rest ih =>
    rw [List.flatMap_cons, List.length_append, ih, List.length_cons]
    simp only [bytesOfWord, List.length_cons, List.length_nil]
    omega

/-- A block has its word 1 and its samples (rule R120). -/
theorem length_payloadWords_block {c : Nat} {xs : List F32} (h : isBlock c xs = true) :
    (BitVec.ofNat 32 c :: xs.map F32.bits).length = 1 + c * Config.blockLen := by
  rw [List.length_cons, List.length_map, ((isBlock_iff c xs).1 h).2, Nat.add_comm]
  rfl

theorem length_payloadWords_spectrum (ms : List F64) : (payloadWords (.spectrum ms)).length = 2 * ms.length := by
  rw [payloadWords, ← List.flatMap_map, length_wordsOfSlots, List.length_map]

/-- `C` fits word 1's low half. -/
theorem lowHalf_ofNat_of_isBlock {c : Nat} {xs : List F32} (h : isBlock c xs = true) : lowHalf (BitVec.ofNat 32 c) = c :=
  lowHalf_ofNat (by have := ((isBlock_iff c xs).1 h).1; omega)

/-- Word 1 of a block has a zero high half (rule R120). -/
theorem highHalf_ofNat_of_isBlock {c : Nat} {xs : List F32} (h : isBlock c xs = true) :
    highHalf (BitVec.ofNat 32 c) = 0 :=
  highHalf_ofNat (by have := ((isBlock_iff c xs).1 h).1; omega)

/-- Doubling keeps a power of two one. -/
theorem two_mul_and_pred {m : Nat} (hm : 0 < m) (h : m &&& (m - 1) = 0) : (2 * m) &&& (2 * m - 1) = 0 := by
  have hpred : 2 * m - 1 = Nat.bit true (m - 1) := by rw [Nat.bit_true_apply]; omega
  rw [hpred, ← Nat.bit_false_apply m, Nat.land_bit, h]
  rfl

theorem isFftSize_iff (n : Nat) : Machine.isFftSize n = true ↔ 1 ≤ n ∧ n ≤ 32768 ∧ n &&& (n - 1) = 0 := by
  rw [Machine.isFftSize, Bool.and_eq_true, Bool.and_eq_true, decide_eq_true_eq, decide_eq_true_eq, beq_iff_eq, and_assoc]
  exact Iff.rfl

/-- A number of magnitudes is half a transform size; none at all is what the size 1 gives (rule R122). -/
theorem exists_isFftSize_of_isMagnitudeCount {m : Nat} (h : isMagnitudeCount m = true) :
    ∃ n, Machine.isFftSize n = true ∧ n / 2 = m := by
  obtain ⟨hmax, hpow⟩ := (isMagnitudeCount_iff m).1 h
  rcases Nat.eq_zero_or_pos m with rfl | hm
  · exact ⟨1, by decide, rfl⟩
  · exact ⟨2 * m, (isFftSize_iff _).2 ⟨by omega, hmax, two_mul_and_pred hm hpow⟩, by omega⟩

/-- Settles O3: the payload of an accepted message is the one the encoder writes for it, and that one's length is the
`LEN` of the kind (rules R113, R114). -/
theorem acceptedMessagesHaveRequiredLength : Obligations.AcceptedMessagesHaveRequiredLength := by
  intro port bytes i h
  obtain ⟨header, payload, rfl, hdec⟩ := decode_eq_instr h
  obtain ⟨-, -, -, hlen, hwf, rfl⟩ := decodeWords_cons_eq_instr hdec
  refine ⟨header, payloadWords i, rfl, ?_, ?_⟩
  · rw [length_bytesOfWords, List.length_cons, hlen, Nat.add_comm]
  · rw [← hlen]
    cases i with
    | updateConfig _ => rfl
    | startSpectrum _ => rfl
    | stopSpectrum => rfl
    | processBlock c xs => exact ⟨(lowHalf_ofNat_of_isBlock hwf).symm, length_payloadWords_block hwf⟩
    | blockOut c xs => exact ⟨(lowHalf_ofNat_of_isBlock hwf).symm, length_payloadWords_block hwf⟩
    | spectrum ms =>
      obtain ⟨n, hn, hhalf⟩ := exists_isFftSize_of_isMagnitudeCount hwf
      exact ⟨n, hn, by rw [hhalf, length_payloadWords_spectrum]⟩

/-! ### Reserved encodings -/

/-- The kinds of the two input ports have these four opcodes (rule R110). -/
theorem Kind.opcode_of_isInput {kind : Kind} (h : kind.port.isInput = true) :
    kind.opcode = 0x01 ∨ kind.opcode = 0x02 ∨ kind.opcode = 0x03 ∨ kind.opcode = 0x10 := by
  cases kind with
  | updateConfig => exact .inl rfl
  | startSpectrum => exact .inr (.inl rfl)
  | stopSpectrum => exact .inr (.inr (.inl rfl))
  | processBlock => exact .inr (.inr (.inr rfl))
  | blockOut => exact absurd h Bool.false_ne_true
  | spectrum => exact absurd h Bool.false_ne_true

/-- `OPC` 0x10 is processBlock's alone (rule R110). -/
theorem Instr.eq_processBlock_of_opcode {i : Instr} (h : i.kind.opcode = 0x10) : ∃ c xs, i = .processBlock c xs := by
  cases i with
  | processBlock c xs => exact ⟨c, xs, rfl⟩
  | _ => simp [Instr.kind, Kind.opcode] at h

/-- Settles O4: were the bytes a message, its header would have an input kind's opcode and `RSV = 0`, and a processBlock's
word 1 would be its channel count (rules R123, R125). -/
theorem reservedEncodingsAreInvalid : Obligations.ReservedEncodingsAreInvalid := by
  intro port header payload hin hbad
  rw [decode_bytesOfWords]
  refine Decoded.exists_invalid fun i hdec => ?_
  obtain ⟨hopc, rfl, hrsv, -, hwf, hwords⟩ := decodeWords_cons_eq_instr hdec
  rcases hbad with ⟨h1, h2, h3, h4⟩ | hrsv' | ⟨hblock, word1, rest, rfl, hhigh⟩
  · rw [hopc] at h1 h2 h3 h4
    exact (Kind.opcode_of_isInput hin).elim h1 (·.elim h2 (·.elim h3 h4))
  · exact hrsv' hrsv
  · obtain ⟨c, xs, rfl⟩ := Instr.eq_processBlock_of_opcode (hopc.symm.trans hblock)
    obtain ⟨rfl, -⟩ := List.cons.inj hwords
    exact hhigh (highHalf_ofNat_of_isBlock hwf)

end Sys2Proof
end

section
/-! PROOFS. The order in which the cascade runs its stages, and what a recomputation of the coefficients writes and keeps
(40_filter_stage.md rules R151, R153, R158). -/

namespace Sys2Proof.Machine

/-! ### The cascade -/

@[simp] theorem cascade_nil (v : F64) : cascade [] v = ([], v) := rfl

/-- The first stage runs on the input and the rest on its output (rule R158). -/
@[simp] theorem cascade_cons (st : FilterStageState) (rest : List FilterStageState) (v : F64) :
    cascade (st :: rest) v =
      ((processStage st v).1 :: (cascade rest (processStage st v).2).1, (cascade rest (processStage st v).2).2) := rfl

theorem cascade_singleton (st : FilterStageState) (v : F64) :
    cascade [st] v = ([(processStage st v).1], (processStage st v).2) := by rw [cascade_cons, cascade_nil]

/-- Two parts in series: the back part runs on the output of the front part (rule R158). -/
theorem cascade_append (front back : List FilterStageState) (v : F64) :
    cascade (front ++ back) v =
      ((cascade front v).1 ++ (cascade back (cascade front v).2).1, (cascade back (cascade front v).2).2) := by
  induction front generalizing v with
  | nil => rfl
  | cons st rest ih => simp only [List.cons_append, cascade_cons, ih]

/-! ### updateCoefficients -/

/-- A recomputation writes the five coefficients of the low-pass form, whatever the stage held (rule R151). -/
@[simp] theorem updateCoefficients_coefficients (fs fc q : F64) (st : FilterStageState) :
    (updateCoefficients fs fc q st).coefficients = lowPassCoefficients fs fc q := rfl

/-- A recomputation keeps the history (rule R153). -/
theorem sameHistory_updateCoefficients (fs fc q : F64) (st : FilterStageState) :
    st.sameHistory (updateCoefficients fs fc q st) :=
  ⟨updateCoefficients_x1 .., updateCoefficients_x2 .., updateCoefficients_y1 .., updateCoefficients_y2 ..⟩

/-- A stage is its coefficients and its history (10_state.md rule R39). -/
theorem FilterStageState.eq_of_coefficients_of_history {st st' : FilterStageState}
    (hcoef : st'.coefficients = st.coefficients) (hhist : st.sameHistory st') : st' = st := by
  cases st
  cases st'
  obtain ⟨rfl, rfl, rfl, rfl⟩ := hhist
  cases hcoef
  rfl

end Sys2Proof.Machine

namespace Sys2Proof

open Sys2Proof.Machine

/-- Settles O40: the equations of the cascade by length, and its law for two parts, by induction on the front part. -/
theorem cascadeRunsStagesInSeries : Obligations.CascadeRunsStagesInSeries :=
  ⟨cascade_nil, cascade_singleton, cascade_append⟩

/-- Settles O41: both sides have the coefficients of the low-pass form (rule R151) and the history of `st` (rule R153). -/
theorem coefficientsFollowTheLowPassForm : Obligations.CoefficientsFollowTheLowPassForm := by
  intro fs fc q st w al a0r
  apply FilterStageState.eq_of_coefficients_of_history
  case hcoef => exact updateCoefficients_coefficients fs fc q st
  case hhist => exact sameHistory_updateCoefficients fs fc q st

end Sys2Proof
end

section
/-! PROOFS. The order that the comparisons decide (00_scope.md rule R18), and the integer arithmetic of rounding to nearest
with ties upward. -/

namespace Sys2Proof

/-! ### The order of the comparisons (00_scope.md rule R18) -/

theorem F64.lt_iff (a b : F64) : F64.lt a b = true ↔ a.isNaN = false ∧ b.isNaN = false ∧ a.units < b.units := by
  simp [F64.lt, and_assoc]

theorem F64.ge_iff (a b : F64) : F64.ge a b = true ↔ a.isNaN = false ∧ b.isNaN = false ∧ b.units ≤ a.units := by
  simp [F64.ge, and_assoc]

theorem F64.ge_trans {a b c : F64} (hab : F64.ge a b = true) (hbc : F64.ge b c = true) : F64.ge a c = true := by
  obtain ⟨ha, -, hba⟩ := (F64.ge_iff a b).1 hab
  obtain ⟨-, hc, hcb⟩ := (F64.ge_iff b c).1 hbc
  exact (F64.ge_iff a c).2 ⟨ha, hc, hcb.trans hba⟩

theorem F64.ge_of_lt {a b : F64} (h : F64.lt b a = true) : F64.ge a b = true := by
  obtain ⟨hb, ha, hu⟩ := (F64.lt_iff b a).1 h
  exact (F64.ge_iff a b).2 ⟨ha, hb, hu.le⟩

theorem F64.lt_eq_false_of_ge {a b : F64} (h : F64.ge a b = true) : F64.lt a b = false := by
  obtain ⟨-, -, hba⟩ := (F64.ge_iff a b).1 h
  refine Bool.eq_false_iff.2 fun hlt => ?_
  obtain ⟨-, -, hab⟩ := (F64.lt_iff a b).1 hlt
  omega

/-- Two numbers that are no NaN are comparable. -/
theorem F64.ge_of_lt_eq_false {a b : F64} (ha : a.isNaN = false) (hb : b.isNaN = false) (h : F64.lt a b = false) :
    F64.ge a b = true :=
  (F64.ge_iff a b).2 ⟨ha, hb, not_lt.1 fun hab => Bool.eq_false_iff.1 h ((F64.lt_iff a b).2 ⟨ha, hb, hab⟩)⟩

theorem F64.ge_one_negOne : F64.ge F64.one F64.negOne = true := by decide +kernel

/-! ### Rounding to nearest, ties upward -/

/-- Rounding `n / d` to the nearest integer, ties upward, is the floor of `n / d + 1 / 2`. -/
theorem two_mul_add_div_two_mul (n : Nat) {d : Nat} (hd : 0 < d) :
    (2 * n + d) / (2 * d) = if 2 * (n % d) < d then n / d else n / d + 1 := by
  have hr : n % d < d := Nat.mod_lt n hd
  have hsplit : 2 * n + d = 2 * (n % d) + d + 2 * d * (n / d) := by
    have hn : d * (n / d) + n % d = n := Nat.div_add_mod n d
    rw [Nat.mul_assoc]
    omega
  rw [hsplit, Nat.add_mul_div_left _ _ (by omega : 0 < 2 * d)]
  split_ifs with hlow
  · rw [Nat.div_eq_of_lt (by omega), Nat.zero_add]
  · rw [Nat.div_eq_of_lt_le (k := 1) (by omega) (by omega), Nat.add_comm]

end Sys2Proof
end

section
/-! PROOFS. The clamps of a channel and its stage count: what each gives in each case of its rule (41_channel_pipeline.md
rules R181, R199, R202). -/

namespace Sys2Proof.Machine

/-! ### The output clamp (rule R199) -/

theorem clampOutput_of_isNaN {y : F64} (h : y.isNaN = true) : clampOutput y = nanOut := by simp [clampOutput, h]

theorem clampOutput_of_gt_one {y : F64} (h : F64.gt y F64.one = true) : clampOutput y = F64.one := by
  obtain ⟨-, hn, -⟩ := (F64.lt_iff F64.one y).1 h
  simp [clampOutput, hn, h]

/-- A number below -1 is not above 1, so the clamp's second test does not catch it. -/
theorem clampOutput_of_lt_negOne {y : F64} (h : F64.lt y F64.negOne = true) : clampOutput y = F64.negOne := by
  obtain ⟨hn, -, -⟩ := (F64.lt_iff y F64.negOne).1 h
  have hgt : F64.gt y F64.one = false :=
    F64.lt_eq_false_of_ge (F64.ge_trans F64.ge_one_negOne (F64.ge_of_lt h))
  simp [clampOutput, hn, hgt, h]

theorem clampOutput_of_inUnitRange {y : F64} (h : y.inUnitRange = true) : clampOutput y = y := by
  obtain ⟨hlo, hhi⟩ : F64.ge y F64.negOne = true ∧ F64.ge F64.one y = true := by simpa [F64.inUnitRange] using h
  obtain ⟨hn, -, -⟩ := (F64.ge_iff y F64.negOne).1 hlo
  have hgt : F64.gt y F64.one = false := F64.lt_eq_false_of_ge hhi
  simp [clampOutput, hn, hgt, F64.lt_eq_false_of_ge hlo]

/-- Every number falls under one of the clamp's four cases. -/
theorem clampOutput_cases (y : F64) :
    y.isNaN = true ∨ F64.gt y F64.one = true ∨ F64.lt y F64.negOne = true ∨ y.inUnitRange = true := by
  cases hn : y.isNaN with
  | true => exact .inl rfl
  | false =>
    cases hgt : F64.gt y F64.one with
    | true => exact .inr (.inl rfl)
    | false =>
      cases hlt : F64.lt y F64.negOne with
      | true => exact .inr (.inr (.inl rfl))
      | false =>
        have hlo : F64.ge y F64.negOne = true := F64.ge_of_lt_eq_false hn (by decide) hlt
        have hhi : F64.ge F64.one y = true := F64.ge_of_lt_eq_false F64.isNaN_one hn hgt
        exact .inr (.inr (.inr (by simp [F64.inUnitRange, hlo, hhi])))

theorem clampOutput_inUnitRange (y : F64) : (clampOutput y).inUnitRange = true := by
  rcases clampOutput_cases y with h | h | h | h
  · rw [clampOutput_of_isNaN h]
    exact nanOut_inUnitRange
  · rw [clampOutput_of_gt_one h]
    decide +kernel
  · rw [clampOutput_of_lt_negOne h]
    decide +kernel
  · rwa [clampOutput_of_inUnitRange h]

/-- Settles O42: one lemma per case of rule R199; the range follows since the four cases are all there are. -/
theorem outputClampCases : Obligations.OutputClampCases := fun y =>
  ⟨clampOutput_of_isNaN, clampOutput_of_gt_one, clampOutput_of_lt_negOne, clampOutput_of_inUnitRange,
    clampOutput_inUnitRange y⟩

/-! ### The frequency ratio clamp (rule R181) -/

theorem clampFreq_of_gt {fr : F64} (h : F64.gt fr Config.freqEps = true) : clampFreq fr = fr := by
  simp [clampFreq, h]

theorem clampFreq_of_not_gt {fr : F64} (h : F64.gt fr Config.freqEps = false) : clampFreq fr = Config.freqEps := by
  simp [clampFreq, h]

theorem clampFreq_ge_freqEps (fr : F64) : F64.ge (clampFreq fr) Config.freqEps = true := by
  cases h : F64.gt fr Config.freqEps with
  | true =>
    rw [clampFreq_of_gt h]
    exact F64.ge_of_lt h
  | false =>
    rw [clampFreq_of_not_gt h]
    decide +kernel

/-- Settles O47: a ratio at most `FREQ_EPS` and a NaN both fail the clamp's one test. -/
theorem frequencyRatioClamp : Obligations.FrequencyRatioClamp := by
  intro fr
  refine ⟨clampFreq_of_gt, ?_, clampFreq_ge_freqEps fr⟩
  rintro (hle | hn)
  · exact clampFreq_of_not_gt (F64.lt_eq_false_of_ge hle)
  · exact clampFreq_of_not_gt (F64.gt_of_nan_left _ hn)

/-! ### The stage count (rule R202) -/

theorem units_one : F64.one.units = unitsPerOne := by decide +kernel

theorem units_ofNat_maxStages : (F64.ofNat Config.maxStages).units = 64 * unitsPerOne := by decide +kernel

/-- A number at or above 1 has the sign +, so its units are its magnitude. -/
theorem units_eq_unitsAbs_of_ge_one {v : F64} (h : F64.ge v F64.one = true) : v.units = v.unitsAbs := by
  obtain ⟨-, -, hu⟩ := (F64.ge_iff v F64.one).1 h
  rw [units_one] at hu
  have hpos := unitsPerOne_pos
  unfold F64.units at hu ⊢
  split_ifs at hu ⊢
  · omega
  · rfl

/-- A number in `[1, MAX_STAGES)` has at least `unitsPerOne` units and fewer than 64 times as many. -/
theorem unitsAbs_between {v : F64} (hlo : F64.ge v F64.one = true)
    (hhi : F64.ge v (F64.ofNat Config.maxStages) = false) :
    unitsPerOne ≤ v.unitsAbs ∧ v.unitsAbs < 64 * unitsPerOne := by
  obtain ⟨hn, -, h1⟩ := (F64.ge_iff v F64.one).1 hlo
  have h64 : ¬ (F64.ofNat Config.maxStages).units ≤ v.units := fun hu =>
    Bool.eq_false_iff.1 hhi ((F64.ge_iff _ _).2 ⟨hn, by decide +kernel, hu⟩)
  rw [units_eq_unitsAbs_of_ge_one hlo, units_one] at h1
  rw [units_eq_unitsAbs_of_ge_one hlo, units_ofNat_maxStages] at h64
  omega

theorem stageCount_of_not_ge_one {v : F64} (h : F64.ge v F64.one = false) : stageCount v = 1 := by
  simp [stageCount, h]

theorem stageCount_of_ge_maxStages {v : F64} (h : F64.ge v (F64.ofNat Config.maxStages) = true) :
    stageCount v = Config.maxStages := by
  have hone : F64.ge v F64.one = true := F64.ge_trans h (by decide +kernel)
  simp [stageCount, hone, h]

/-- The floor of the value plus one half of a number in `[1, MAX_STAGES)` lies in `1..MAX_STAGES`. -/
theorem nearest_between {v : F64} (hlo : F64.ge v F64.one = true)
    (hhi : F64.ge v (F64.ofNat Config.maxStages) = false) :
    1 ≤ (2 * v.unitsAbs + unitsPerOne) / (2 * unitsPerOne) ∧
      (2 * v.unitsAbs + unitsPerOne) / (2 * unitsPerOne) ≤ Config.maxStages := by
  obtain ⟨h1, h64⟩ := unitsAbs_between hlo hhi
  have hden : 0 < 2 * unitsPerOne := Nat.mul_pos Nat.two_pos unitsPerOne_pos
  constructor
  · exact (Nat.le_div_iff_mul_le hden).2 (by omega)
  · refine Nat.le_of_lt_succ ((Nat.div_lt_iff_lt_mul hden).2 ?_)
    simp only [Config.maxStages]
    omega

/-- Between the two ends the count is the floor of the value plus one half; the cap at `MAX_STAGES` is never below it. -/
theorem stageCount_of_between {v : F64} (hlo : F64.ge v F64.one = true)
    (hhi : F64.ge v (F64.ofNat Config.maxStages) = false) :
    stageCount v = (2 * v.unitsAbs + unitsPerOne) / (2 * unitsPerOne) := by
  have hcap := (nearest_between hlo hhi).2
  rw [two_mul_add_div_two_mul _ unitsPerOne_pos] at hcap ⊢
  simpa [stageCount, hlo, hhi] using hcap

theorem stageCount_range (v : F64) : 1 ≤ stageCount v ∧ stageCount v ≤ Config.maxStages := by
  cases hlo : F64.ge v F64.one with
  | false =>
    rw [stageCount_of_not_ge_one hlo]
    decide
  | true =>
    cases hhi : F64.ge v (F64.ofNat Config.maxStages) with
    | true =>
      rw [stageCount_of_ge_maxStages hhi]
      decide
    | false =>
      rw [stageCount_of_between hlo hhi]
      exact nearest_between hlo hhi

/-- Settles O43: one lemma per case of rule R202, and the range of the count. -/
theorem stageCountRoundsToNearest : Obligations.StageCountRoundsToNearest := fun v =>
  ⟨stageCount_of_not_ge_one, stageCount_of_ge_maxStages, stageCount_of_between, stageCount_range v⟩

end Sys2Proof.Machine
end

section
/-! PROOFS. What an update of a channel keeps and derives, and the steps of one sample (41_channel_pipeline.md rules R201,
R203 to R205). -/

namespace Sys2Proof.Machine

/-! ### The stages through an update (rules R201, R203, R204) -/

/-- The stages a resize keeps are the lowest, as they were. -/
theorem resizeStages_getElem?_of_lt {ch : ChannelState} {n k : Nat} {st : FilterStageState} (hk : k < n)
    (hst : ch.stages[k]? = some st) : (resizeStages ch n).stages[k]? = some st := by
  have hlen : k < ch.stages.length := (List.getElem?_eq_some_iff.1 hst).1
  simp only [resizeStages]
  split_ifs
  · rwa [List.getElem?_append_left hlen]
  · rwa [List.getElem?_take_of_lt hk]
  · exact hst

/-- The stages a resize adds are new ones. -/
theorem resizeStages_getElem?_of_le {ch : ChannelState} (hS : ch.stages.length = ch.S) {n k : Nat} (hle : ch.S ≤ k)
    (hk : k < n) : (resizeStages ch n).stages[k]? = some newStage := by
  have hgrow : ch.S < n := hle.trans_lt hk
  simp only [resizeStages, if_pos hgrow]
  rw [List.getElem?_append_right (hS.trans_le hle), hS, List.getElem?_replicate, if_pos (by omega)]

theorem zeroHistory_newStage : newStage.zeroHistory := ⟨rfl, rfl, rfl, rfl⟩

theorem zeroHistory_of_sameHistory {st st' : FilterStageState} (h : st.zeroHistory) (hsame : st.sameHistory st') :
    st'.zeroHistory := by
  obtain ⟨hx1, hx2, hy1, hy2⟩ := h
  obtain ⟨ex1, ex2, ey1, ey2⟩ := hsame
  exact ⟨ex1.trans hx1, ex2.trans hx2, ey1.trans hy1, ey2.trans hy2⟩

theorem length_updateChannel_stages (fs : F64) (c : ConfigRecord) {ch : ChannelState} (hS : ch.stages.length = ch.S) :
    (updateChannel fs c ch).stages.length = stageCount c.stages := by
  rw [updateChannel_stages, List.length_map, length_resizeStages hS]

/-- A stage that an update keeps has its history afterwards. -/
theorem updateChannel_keeps_history (fs : F64) {c : ConfigRecord} {ch : ChannelState} {k : Nat} {st : FilterStageState}
    (hk : k < stageCount c.stages) (hst : ch.stages[k]? = some st) :
    ∃ st', (updateChannel fs c ch).stages[k]? = some st' ∧ st.sameHistory st' :=
  ⟨updateCoefficients fs c.cutoff c.q st,
    by rw [updateChannel_stages, List.getElem?_map, resizeStages_getElem?_of_lt hk hst, Option.map_some],
    sameHistory_updateCoefficients _ _ _ st⟩

/-- A stage that an update adds starts at zero history. -/
theorem updateChannel_adds_zeroHistory (fs : F64) {c : ConfigRecord} {ch : ChannelState}
    (hS : ch.stages.length = ch.S) {k : Nat} (hle : ch.S ≤ k) (hk : k < stageCount c.stages) :
    ∃ st', (updateChannel fs c ch).stages[k]? = some st' ∧ st'.zeroHistory :=
  ⟨updateCoefficients fs c.cutoff c.q newStage,
    by rw [updateChannel_stages, List.getElem?_map, resizeStages_getElem?_of_le hS hle hk, Option.map_some],
    zeroHistory_of_sameHistory zeroHistory_newStage (sameHistory_updateCoefficients _ _ _ newStage)⟩

/-- Every stage has the Config's coefficients after an update. -/
theorem updateChannel_coefficients (fs : F64) (c : ConfigRecord) (ch : ChannelState) :
    ∀ st' ∈ (updateChannel fs c ch).stages, st'.coefficients = lowPassCoefficients fs c.cutoff c.q := by
  intro st' hst'
  rw [updateChannel_stages] at hst'
  obtain ⟨st, -, rfl⟩ := List.mem_map.1 hst'
  exact updateCoefficients_coefficients _ _ _ st

/-- Settles O44: the running state is not written, the derived fields are the formulas of rules R181, R182 and R200, and
the stages are those of the resize with their coefficients written again. -/
theorem updateKeepsRunningState : Obligations.UpdateKeepsRunningState := by
  intro c ch hS u frc cp
  refine ⟨updateChannel_phase .., updateChannel_env .., updateChannel_compEnv .., updateChannel_rng .., ?phaseStep,
    ?atkCoef, ?relCoef, ?compRelCoef, updateChannel_S .., length_updateChannel_stages sampleRate c hS,
    fun k st hk hst => updateChannel_keeps_history sampleRate hk hst,
    fun k hle hk => updateChannel_adds_zeroHistory sampleRate hS hle hk, updateChannel_coefficients sampleRate c ch⟩
  case phaseStep => exact (updateChannel_phaseStep ..).trans (phaseStepOf_eq ..)
  case atkCoef => exact (updateChannel_atkCoef ..).trans (envelopeCoefficient_eq ..)
  case relCoef => exact (updateChannel_relCoef ..).trans (envelopeCoefficient_eq ..)
  case compRelCoef => exact (updateChannel_compRelCoef ..).trans (compressorCoefficient_eq ..)

/-! ### The steps of one sample (rule R205) -/

/-- Settles O32: each step function is the formula of its own rule, and `processSample` composes them in the order of rule
R205, each on the results of the steps before it. -/
theorem processSampleFollowsTheEightSteps : Obligations.ProcessSampleFollowsTheEightSteps := by
  intro cfg ch a signal p₀ p₁ p x₀ x₁ x₂ x n modulated d diode rectified c env dem lvl compEnv grDb gain filtered
  have hsignal : modulate cfg.modulationIndex a (carrierOf ch.phase) = signal := rfl
  have hphase : advancePhase ch.phase ch.phaseStep = p := rfl
  have hrng : xorshift32 ch.rng = x := rfl
  have hmodulated : injectNoise cfg.noiseEnabled cfg.noiseLevel signal (noiseValue x) = modulated := rfl
  have hrectified : blendRectified cfg.blend (halfWaveOf modulated)
      (diodeOf cfg.drop cfg.vt cfg.diodeGain modulated) = rectified := rfl
  have henv : followEnvelope ch.atkCoef ch.relCoef ch.env rectified = env := rfl
  have hdem : demodulate cfg.modulationIndex env = dem := rfl
  have hcompEnv : trackLevel ch.compRelCoef ch.compEnv dem = compEnv := rfl
  have hgain : compressorGain cfg.threshold cfg.ratio compEnv = gain := rfl
  have hfiltered : cascade ch.stages (applyGain cfg.makeupGain dem gain) = filtered := rfl
  simp only [processSample, hsignal, hphase, hrng, hmodulated, hrectified, henv, hdem, hcompEnv, hgain, hfiltered]

end Sys2Proof.Machine
end

section
/-! PROOFS. The bit-reversal table: where each bit of an entry comes from (42_spectrum.md rule R241). -/

namespace Sys2Proof.Machine

@[simp] theorem bitReverse_zero (i : Nat) : bitReverse 0 i = 0 := rfl

theorem bitReverse_succ (bits i : Nat) :
    bitReverse (bits + 1) i = 2 ^ bits * (i % 2) + bitReverse bits (i / 2) := by
  rw [bitReverse, Nat.mul_comm]

/-- A reversal has no bit above the `bits` low ones. -/
theorem bitReverse_lt_two_pow (bits i : Nat) : bitReverse bits i < 2 ^ bits := by
  induction bits generalizing i with
  | zero => exact Nat.one_pos
  | succ bits ih =>
    have hrest : bitReverse bits (i / 2) < 2 ^ bits := ih (i / 2)
    have hbit : 2 ^ bits * (i % 2) ≤ 2 ^ bits * 1 := Nat.mul_le_mul_left _ (by omega)
    rw [bitReverse_succ, Nat.pow_succ]
    omega

/-- The top bit of a reversal is the lowest bit of its argument, and the bits below are the reversal of the argument's
other bits. -/
theorem testBit_bitReverse_succ (bits i j : Nat) :
    (bitReverse (bits + 1) i).testBit j =
      if j < bits then (bitReverse bits (i / 2)).testBit j else (i % 2).testBit (j - bits) := by
  rw [bitReverse_succ, Nat.testBit_two_pow_mul_add _ (bitReverse_lt_two_pow bits (i / 2))]

/-- Bit `j` of the `bits`-bit reversal of `i` is bit `bits - 1 - j` of `i`. -/
theorem testBit_bitReverse {bits j : Nat} (i : Nat) (hj : j < bits) :
    (bitReverse bits i).testBit j = i.testBit (bits - 1 - j) := by
  induction bits generalizing i with
  | zero => exact absurd hj (Nat.not_lt_zero j)
  | succ bits ih =>
    rw [testBit_bitReverse_succ]
    split
    case isTrue hlt =>
      have hindex : bits + 1 - 1 - j = bits - 1 - j + 1 := by omega
      rw [ih (i / 2) hlt, hindex, Nat.testBit_succ]
    case isFalse hge =>
      obtain rfl : j = bits := by omega
      simp [Nat.testBit_zero]

theorem length_bitrevTable (n : Nat) : (bitrevTable n).length = n := by simp [bitrevTable]

/-- Entry `i` of the table of size `2 ^ bits` is the `bits`-bit reversal of `i`. -/
theorem bitrevTable_two_pow_getElem? {bits i : Nat} (hi : i < 2 ^ bits) :
    (bitrevTable (2 ^ bits))[i]? = some (bitReverse bits i) := by
  rw [bitrevTable, Nat.log2_two_pow, List.getElem?_map, List.getElem?_range hi, Option.map_some]

/-- Settles O48: entry `i` is the reversal of `i`, whose bits are found by induction on their number. -/
theorem bitReversalReversesBits : Obligations.BitReversalReversesBits := by
  intro bits
  refine ⟨length_bitrevTable (2 ^ bits), fun i hi => ⟨bitReverse bits i, ?entry, ?bound, ?reversed⟩⟩
  case entry => exact bitrevTable_two_pow_getElem? hi
  case bound => exact bitReverse_lt_two_pow bits i
  case reversed => exact fun j hj => testBit_bitReverse i hj

end Sys2Proof.Machine
end

section
/-! PROOFS. The control messages and the block's begin: what enters the mailbox, which transform sizes are accepted, what
the channel-count check replaces, and the block without channels (43_engine.md rules R271 to R292). -/

namespace Sys2Proof.Machine

/-! ### The mailbox -/

theorem exec_updateConfig (c : ConfigRecord) (s : State) :
    exec (.updateConfig c) s = .next (s.withPending (some (.updateConfig c))) := rfl

theorem exec_startSpectrum (n : BitVec 32) (s : State) :
    exec (.startSpectrum n) s = .next (s.withPending (some (.startSpectrum n))) := rfl

theorem exec_stopSpectrum (s : State) : exec .stopSpectrum s = .next (s.withPending (some .stopSpectrum)) := rfl

/-- Settles O11: each control message is one write of the mailbox, which is the update of that field alone. -/
theorem controlMessagesEnterTheMailbox : Obligations.ControlMessagesEnterTheMailbox :=
  fun s => ⟨fun c => exec_updateConfig c s, fun n => exec_startSpectrum n s, exec_stopSpectrum s⟩

/-! ### The transform sizes -/

/-- A word read as an i32 is in `1..32768` exactly when the word read unsigned is: no negative number is accepted. -/
theorem toInt_mem_iff_toNat_mem (n : BitVec 32) :
    (1 ≤ n.toInt ∧ n.toInt ≤ 32768) ↔ (1 ≤ n.toNat ∧ n.toNat ≤ 32768) := by
  have hlt : n.toNat < 2 ^ 32 := n.isLt
  rw [BitVec.toInt_eq_toNat_cond]
  split_ifs <;> omega

/-- The bit test of `validFft` on words is the one on numbers. -/
theorem and_pred_eq_zero_iff_toNat {n : BitVec 32} (hpos : 1 ≤ n.toNat) :
    n &&& (n - 1) = 0 ↔ n.toNat &&& (n.toNat - 1) = 0 := by
  have hone : (1 : BitVec 32) ≤ n := BitVec.le_def.2 hpos
  rw [← BitVec.toNat_inj, BitVec.toNat_and, BitVec.toNat_sub_of_le hone]
  rfl

/-- The sizes accepted as an i32 are the transform sizes read unsigned (rule R285). -/
theorem validFft_iff_isFftSize (n : BitVec 32) : validFft n = true ↔ isFftSize n.toNat = true := by
  have hvalid : validFft n = true ↔ (1 ≤ n.toInt ∧ n.toInt ≤ 32768) ∧ n &&& (n - 1) = 0 := by
    rw [validFft, Bool.and_eq_true, Bool.and_eq_true, decide_eq_true_eq, decide_eq_true_eq, beq_iff_eq]
    exact Iff.rfl
  rw [hvalid, isFftSize_iff, toInt_mem_iff_toNat_mem, and_assoc]
  exact and_congr_right fun hpos => and_congr_right fun _ => and_pred_eq_zero_iff_toNat hpos

/-- The transform sizes are the powers of two up to `MAX_FFT_SIZE`. -/
theorem isFftSize_iff_two_pow (n : Nat) : isFftSize n = true ↔ ∃ k, 2 ^ k ≤ Config.maxFftSize ∧ n = 2 ^ k := by
  rw [isFftSize_iff]
  constructor
  · rintro ⟨hpos, hmax, hand⟩
    obtain ⟨k, rfl⟩ := (Nat.and_sub_one_eq_zero_iff_isPowerOfTwo (Nat.ne_of_gt hpos)).1 hand
    exact ⟨k, hmax, rfl⟩
  · rintro ⟨k, hmax, rfl⟩
    have hpos : 1 ≤ 2 ^ k := Nat.one_le_two_pow
    exact ⟨hpos, hmax, (Nat.and_sub_one_eq_zero_iff_isPowerOfTwo (Nat.ne_of_gt hpos)).2 ⟨k, rfl⟩⟩

/-- A word is the same power of two up to `MAX_FFT_SIZE` read as an i32 and read unsigned. -/
theorem toInt_eq_two_pow_iff {n : BitVec 32} {k : Nat} (hk : 2 ^ k ≤ Config.maxFftSize) :
    n.toInt = 2 ^ k ↔ n.toNat = 2 ^ k := by
  have hmax : 2 ^ k ≤ 32768 := hk
  have hpos : 1 ≤ 2 ^ k := Nat.one_le_two_pow
  have hlt : n.toNat < 2 ^ 32 := n.isLt
  have hcast : (2 : Int) ^ k = ((2 ^ k : Nat) : Int) := by norm_cast
  rw [hcast, BitVec.toInt_eq_toNat_cond]
  split_ifs <;> omega

/-- Settles O15: the accepted words are the transform sizes, those are the powers of two up to `MAX_FFT_SIZE`, and such a
number has one reading. -/
theorem acceptedSizesArePowersOfTwo : Obligations.AcceptedSizesArePowersOfTwo := by
  intro n
  rw [validFft_iff_isFftSize, isFftSize_iff_two_pow]
  exact exists_congr fun k => and_congr_right fun hk => (toInt_eq_two_pow_iff hk).symm

/-! ### The pending startSpectrum -/

theorem applyPending_startSpectrum {s : State} {n : BitVec 32} (h : s.pending = some (.startSpectrum n)) :
    applyPending s = applyStart n (s.withPending none) := by simp only [applyPending, h, applyControl]

theorem applyStart_of_not_validFft {n : BitVec 32} (h : validFft n = false) (s : State) : applyStart n s = s := by
  rw [applyStart, if_neg (Bool.eq_false_iff.1 h)]

/-- Settles O17: only the mailbox is written before the size is refused. -/
theorem rejectedStartHasNoEffect : Obligations.RejectedStartHasNoEffect := by
  intro s n hpending hinvalid
  rw [applyPending_startSpectrum hpending, applyStart_of_not_validFft hinvalid]
  rfl

/-! ### The channel count -/

theorem checkChannels_of_ne {c : Nat} {s : State} (h : c ≠ s.chanCount) :
    checkChannels c s = s.withChannels c (List.replicate c (freshChannel sampleRate s.cfg)) := if_neg h

theorem checkChannels_of_eq {c : Nat} {s : State} (h : c = s.chanCount) : checkChannels c s = s := if_pos h

/-- Settles O23: the two cases of the check (rule R276). -/
theorem channelCountChangeRecreatesAll : Obligations.ChannelCountChangeRecreatesAll :=
  fun _ _ => ⟨checkChannels_of_ne, checkChannels_of_eq⟩

/-! ### The block without channels -/

/-- The pending message keeps the number of channels: an updateConfig updates each of them, the others touch none. -/
theorem applyPending_keeps_channels_length {s : State} (h : s.ch.length = s.chanCount) :
    (applyPending s).ch.length = (applyPending s).chanCount := by
  rcases applyPending_cases s with ⟨-, e⟩ | ⟨c, -, e⟩ | ⟨n, -, e⟩ | ⟨-, e⟩
  case inl => rwa [e]
  case inr.inl => simp [e, applyConfig, h]
  case inr.inr.inl =>
    rw [e, applyStart]
    split <;> simpa using h
  case inr.inr.inr => simpa [e, applyStop] using h

/-- Whether it recreates the set or finds it empty already, the check for no channels leaves none (rule R292). -/
theorem checkChannels_zero {s : State} (h : s.ch.length = s.chanCount) : checkChannels 0 s = s.withChannels 0 [] := by
  rcases checkChannels_cases 0 s with ⟨hcount, e⟩ | ⟨-, e⟩
  · have hnone : s.ch = [] := List.eq_nil_of_length_eq_zero (h.trans hcount.symm)
    rw [e, hcount, ← hnone]
    rfl
  · rw [e, List.replicate_zero]

/-- Without a channel no sample is processed and none captured: what is left is the blockOut and the counter. -/
theorem finishBlock_of_no_channels (c : Nat) (xs : List F32) {s : State} (h : s.ch = []) :
    finishBlock c xs s = some (advanceFrame (emit (.blockOut c []) s)) := by
  have hruns : runChannels s.cfg s.ch xs = [] := by rw [h, runChannels]
  have hkept : s.withChannels s.chanCount [] = s := by rw [← h]; rfl
  simp only [finishBlock, hruns, captureBlock, List.map_nil, List.flatMap_nil, Option.map_some, hkept]

/-- Settles O26: the begin of the block leaves no channels, and the rest of it is then the empty blockOut and the frame
counter. -/
theorem zeroChannelBlockCompletes : Obligations.ZeroChannelBlockCompletes := by
  refine ⟨(isBlock_iff 0 []).2 ⟨Nat.zero_le 32, rfl⟩, fun s hinv => ?_⟩
  have hbegin : beginBlock 0 s = (applyPending s).withChannels 0 [] :=
    checkChannels_zero (applyPending_keeps_channels_length hinv.channels_length)
  refine execProcessBlock_of_some ?_
  rw [hbegin, finishBlock_of_no_channels 0 [] (State.withChannels_ch ..)]
  rfl

end Sys2Proof.Machine
end

section
/-! PROOFS. The range of the output samples (60_exceptions.md rule R331): what the clamp keeps in [-1, 1] the narrowing
keeps there, and a completed block adds to the output history its blockOut and at most one spectrum. -/

namespace Sys2Proof

/-! ### Packed samples -/

theorem F32.magnitude_ofParts (neg : Bool) {m : Nat} (h : m < 2 ^ 31) : (F32.ofParts neg m).magnitude = m := by
  cases neg <;> simp only [F32.ofParts, F32.magnitude, BitVec.toNat_ofNat] <;> norm_num <;> omega

/-- The magnitude field of 1 is below that of the infinities, and every NaN's is above it. -/
theorem F32.isNaN_of_inUnitRange {y : F32} (h : y.inUnitRange = true) : y.isNaN = false := by
  have hone : y.magnitude ≤ 0x3F800000 := of_decide_eq_true h
  exact decide_eq_false (Nat.not_lt.2 (hone.trans (by decide)))

/-! ### Narrowing keeps the range (00_scope.md rule R14) -/

theorem units_negOne : F64.negOne.units = -(unitsPerOne : Int) := by decide +kernel

theorem unitsPerOne_lt_inf : unitsPerOne < (F64.inf false).unitsAbs := by decide +kernel

/-- The magnitude field of the binary32 number 1 stands for exactly 1. -/
theorem units_one32 : unitsOfMagnitude 23 0x3F800000 * unitsPerUnit32 = unitsPerOne := by decide +kernel

/-- A number lies in [-1, 1] when it is no NaN and its units lie between those of -1 and 1. -/
theorem F64.inUnitRange_iff (x : F64) :
    x.inUnitRange = true ↔ x.isNaN = false ∧ -(unitsPerOne : Int) ≤ x.units ∧ x.units ≤ unitsPerOne := by
  have hneg : F64.negOne.isNaN = false := by decide
  simp only [F64.inUnitRange, Bool.and_eq_true, F64.ge_iff, units_negOne, Machine.units_one, F64.isNaN_one, hneg]
  tauto

theorem unitsAbs_le_of_inUnitRange {x : F64} (h : x.inUnitRange = true) : x.unitsAbs ≤ unitsPerOne := by
  obtain ⟨-, hlow, hhigh⟩ := (F64.inUnitRange_iff x).1 h
  unfold F64.units at hlow hhigh
  split_ifs at hlow hhigh <;> omega

theorem isFinite_of_inUnitRange {x : F64} (h : x.inUnitRange = true) : x.isFinite = true := by
  obtain ⟨hn, -, -⟩ := (F64.inUnitRange_iff x).1 h
  cases hf : x.isFinite with
  | true => rfl
  | false =>
    have hinf := F64.unitsAbs_of_infinite hn hf
    have hle := unitsAbs_le_of_inUnitRange h
    have hlt := unitsPerOne_lt_inf
    omega

/-- 1 is a binary32 value, so no number of [-1, 1] rounds past it. -/
theorem inUnitRange_narrow {x : F64} (h : x.inUnitRange = true) : x.narrow.inUnitRange = true := by
  have hround : roundMagnitude 23 x.unitsAbs unitsPerUnit32 ≤ 0x3F800000 :=
    roundMagnitude_le (by decide +kernel) (units_one32 ▸ unitsAbs_le_of_inUnitRange h)
  have hmin : min (roundMagnitude 23 x.unitsAbs unitsPerUnit32) infMagnitude32 ≤ 0x3F800000 :=
    (min_le_left _ _).trans hround
  simp only [F64.narrow, F64.view_of_finite (isFinite_of_inUnitRange h), F32.inUnitRange,
    F32.magnitude_ofParts _ (lt_of_le_of_lt hmin (by decide)), hmin, decide_true]

end Sys2Proof

namespace Sys2Proof.Machine

/-! ### The samples of a block -/

theorem runChannel_outputs_inUnitRange (cfg : ConfigRecord) (ch : ChannelState) (xs : List F32) :
    ∀ y ∈ (runChannel cfg ch xs).outputs, y.inUnitRange = true :=
  runChannel_forall_outputs cfg (fun _ _ => inUnitRange_narrow (clampOutput_inUnitRange _)) ch xs

theorem runChannels_outputs_inUnitRange (cfg : ConfigRecord) (chs : List ChannelState) (xs : List F32) :
    ∀ y ∈ (runChannels cfg chs xs).flatMap ChannelRun.outputs, y.inUnitRange = true := by
  intro y hy
  obtain ⟨run, hrun, hyrun⟩ := List.mem_flatMap.1 hy
  obtain ⟨ch, -, ys, rfl⟩ := mem_runChannels hrun
  exact runChannel_outputs_inUnitRange cfg ch ys y hyrun

/-! ### The output history over a block -/

@[simp] theorem applyPending_output (s : State) : (applyPending s).output = s.output := by
  rcases applyPending_cases s with ⟨-, e⟩ | ⟨c, -, e⟩ | ⟨n, -, e⟩ | ⟨-, e⟩
  case inl => rw [e]
  case inr.inl => simp [e, applyConfig]
  case inr.inr.inl =>
    rw [e, applyStart]
    split <;> simp
  case inr.inr.inr => simp [e, applyStop]

@[simp] theorem checkChannels_output (c : Nat) (s : State) : (checkChannels c s).output = s.output := by
  rcases checkChannels_cases c s with ⟨-, e⟩ | ⟨-, e⟩ <;> simp [e]

theorem beginBlock_output (c : Nat) (s : State) : (beginBlock c s).output = s.output := by simp [beginBlock]

theorem captureBlock_output {runs : List ChannelRun} {s t : State} (h : captureBlock runs s = some t) :
    t.output = s.output := by
  rcases captureBlock_eq_some h with ⟨rfl, -⟩ | ⟨-, first, rest, -, hw⟩
  · rfl
  · rw [ringWrites_eq_some hw, State.withRing_output]

/-- The frame counter's step adds nothing or one spectrum (43_engine.md rule R279). -/
theorem advanceFrame_output (s : State) :
    ∃ rest, (advanceFrame s).output = s.output ++ rest ∧ (rest = [] ∨ ∃ m, rest = [.spectrum m]) := by
  rcases advanceFrame_cases s with ⟨-, e⟩ | ⟨-, -, e⟩ | ⟨-, -, e⟩
  · exact ⟨[], by simp [e], .inl rfl⟩
  · exact ⟨[], by simp [e], .inl rfl⟩
  · exact ⟨[.spectrum (analyzeRing s)], by simp [e], .inr ⟨_, rfl⟩⟩

/-- What a block after its begin adds to the output history: its blockOut, then nothing or one spectrum. -/
theorem finishBlock_output {c : Nat} {xs : List F32} {s t : State} (h : finishBlock c xs s = some t) :
    ∃ rest, t.output =
        s.output ++ .blockOut c ((runChannels s.cfg s.ch xs).flatMap ChannelRun.outputs) :: rest ∧
      (rest = [] ∨ ∃ m, rest = [.spectrum m]) := by
  obtain ⟨u, hcapture, rfl⟩ := finishBlock_eq_some h
  obtain ⟨rest, hout, hrest⟩ :=
    advanceFrame_output (emit (.blockOut c ((runChannels s.cfg s.ch xs).flatMap ChannelRun.outputs)) u)
  have hu : u.output = s.output := (captureBlock_output hcapture).trans (State.withChannels_output ..)
  exact ⟨rest, by rw [hout]; simp [hu], hrest⟩

/-- Settles O30: the clamp, the narrowing after it and the runs of all channels keep every sample in [-1, 1], and the
begin of the block emits nothing. -/
theorem blockOutSamplesStayInRange : Obligations.BlockOutSamplesStayInRange := by
  intro s t c xs h
  obtain ⟨rest, hout, hrest⟩ := finishBlock_output (execProcessBlock_eq_next h)
  rw [beginBlock_output] at hout
  refine ⟨_, rest, hout, fun y hy => ?_, hrest⟩
  have hrange := runChannels_outputs_inUnitRange _ _ xs y hy
  exact ⟨hrange, F32.isNaN_of_inUnitRange hrange⟩

end Sys2Proof.Machine
end

section
/-! PROOFS. The decoder and the encoder are inverse on the messages of the transaction set (30_encoding.md rules R112 to
R123), and the words and the text that the rules write out (rules R129, R130). -/

namespace Sys2Proof

/-! ### A payload read back -/

/-- The words of a Config are read as it, the Boolean of slot 15 included (rules R116, R117). -/
theorem decodeConfig_payloadWords (c : ConfigRecord) :
    decodeConfig (payloadWords (.updateConfig c)) = .instr (.updateConfig c) := by
  simp only [payloadWords, decodeConfig, slotsOfWords_wordsOfSlots, ConfigRecord.slots]
  cases c with
  | mk _ _ _ _ _ _ _ _ _ _ _ _ _ _ _ noiseEnabled _ => cases noiseEnabled <;> rfl

/-- The words of a block are read as its channel count and its samples (rule R120). -/
theorem decodeBlock_of_isBlock (build : Nat → List F32 → Instr) {c : Nat} {xs : List F32} (h : isBlock c xs = true) :
    decodeBlock build (BitVec.ofNat 32 c :: xs.map F32.bits) = .instr (build c xs) := by
  obtain ⟨hmax, hlen⟩ := (isBlock_iff c xs).1 h
  have hcount : ¬ Config.maxChannels < c := Nat.not_lt.2 hmax
  have hsamples : ¬ (xs.map F32.bits).length ≠ c * Config.blockLen := not_not.2 ((List.length_map _).trans hlen)
  simp only [decodeBlock, highHalf_ofNat_of_isBlock h, lowHalf_ofNat_of_isBlock h, ne_eq, not_true, if_false,
    if_neg hcount, if_neg hsamples, map_mk_map_bits32]

/-- The words of a spectrum are read as its magnitudes (rule R122). -/
theorem decodeMagnitudes_of_isMagnitudeCount {ms : List F64} (h : isMagnitudeCount ms.length = true) :
    decodeMagnitudes (payloadWords (.spectrum ms)) = .instr (.spectrum ms) := by
  have hslots : slotsOfWords (payloadWords (.spectrum ms)) = some (ms.map F64.bits) := by
    rw [payloadWords, ← List.flatMap_map, slotsOfWords_wordsOfSlots]
  simp only [decodeMagnitudes, hslots, List.length_map, h, if_true, map_mk_map_bits64]

/-- The payload of a well-formed message is read, for its kind, as that message. -/
theorem decodePayload_payloadWords {i : Instr} (h : i.wf = true) : decodePayload i.kind (payloadWords i) = .instr i := by
  cases i with
  | updateConfig c => exact decodeConfig_payloadWords c
  | startSpectrum n => rfl
  | stopSpectrum => rfl
  | processBlock c xs => exact decodeBlock_of_isBlock _ h
  | blockOut c xs => exact decodeBlock_of_isBlock _ h
  | spectrum ms => exact decodeMagnitudes_of_isMagnitudeCount h

/-! ### A whole message -/

/-- The header of a well-formed message says how many payload words follow it (rule R114). -/
theorem headerLen_of_wf {i : Instr} (h : i.wf = true) :
    headerLen (headerWord i.kind (payloadWords i).length) = (payloadWords i).length := by
  have law : Laws.EncodedLength.Statement i := by
    cases i with
    | updateConfig c => exact Laws.EncodedLength.updateConfig c
    | startSpectrum n => exact Laws.EncodedLength.startSpectrum n
    | stopSpectrum => exact Laws.EncodedLength.stopSpectrum
    | processBlock c xs => exact Laws.EncodedLength.processBlock c xs
    | blockOut c xs => exact Laws.EncodedLength.blockOut c xs
    | spectrum ms => exact Laws.EncodedLength.spectrum ms
  exact (law h).2

/-- A header that passes the checks of rule R123 leaves the payload to be read. -/
theorem decodeWords_headerWord {kind : Kind} {payload : List Word}
    (hlen : headerLen (headerWord kind payload.length) = payload.length) :
    decodeWords kind.port (headerWord kind payload.length :: payload) = decodePayload kind payload := by
  simp only [decodeWords, headerOpcode_headerWord, kindOfOpcode_opcode, headerReserved_headerWord, hlen, ne_eq, not_true,
    if_false]

/-- Settles O1: the bytes are the words again, the header passes every check on the port of the kind, and the payload is
read back kind by kind. -/
theorem decodeInvertsEncode : Obligations.DecodeInvertsEncode := by
  intro i hwf
  rw [encode, decode_bytesOfWords, encodeWords, decodeWords_headerWord (headerLen_of_wf hwf),
    decodePayload_payloadWords hwf]

/-- Settles O2: what decodes has passed every check, so its header is the one the encoder writes for its kind and length,
and its payload is the encoder's. -/
theorem encodeInvertsDecode : Obligations.EncodeInvertsDecode := by
  intro port bytes i h
  obtain ⟨header, payload, rfl, hdec⟩ := decode_eq_instr h
  obtain ⟨hopc, hport, hrsv, hlen, hwf, rfl⟩ := decodeWords_cons_eq_instr hdec
  have hheader : header = headerWord i.kind (payloadWords i).length := by
    rw [hlen]
    exact header_eq_of_fields hopc hrsv
  exact ⟨hwf, hport, by rw [encode, encodeWords, ← hheader]⟩

/-! ### Words and text written out -/

/-- Settles O5: the model evaluated on the words of rule R130 and on one message of each other kind. -/
theorem specWordsDecode : Obligations.SpecWordsDecode := by
  unfold Obligations.SpecWordsDecode
  refine ⟨?_, ?_, ?_, ?_, ?_, ?_, ?_, ?_, ?_, ?_⟩ <;> decide

/-- The mnemonic `resetConfig` without operands is the pseudo-instruction (rule R129). -/
theorem assembleLine_resetConfig : assembleLine "resetConfig".toList = some resetConfig := by decide +kernel

/-- Settles O6: the line assembles to the pseudo-instruction, whose words are the encoder's. -/
theorem resetConfigAssemblesToTheDefaults : Obligations.ResetConfigAssemblesToTheDefaults :=
  ⟨assembleLine_resetConfig, by rw [assembleWords, assembleLine_resetConfig]; rfl⟩

end Sys2Proof
end

section
/-! PROOFS. The step, the mailbox and the ring: what one transaction does (43_engine.md sections 1 to 4; 20_memory.md rule
R82). -/

namespace Sys2Proof.Machine

/-! ### The step (43_engine.md section 1) -/

theorem step_of_queue_nil {s : State} (hq : s.queue = []) : step s = .next s := by simp only [step, hq]

theorem step_of_decode_instr {s : State} {m : Transaction} {rest : List Transaction} {i : Instr}
    (hq : s.queue = m :: rest) (hd : decode m.port m.bytes = .instr i) : step s = exec i (s.withQueue rest) := by
  simp only [step, hq, hd, takeMessage]

theorem step_of_decode_invalid {s : State} {m : Transaction} {rest : List Transaction} {why : Malformed}
    (hq : s.queue = m :: rest) (hd : decode m.port m.bytes = .invalid why) : step s = .next (s.withQueue rest) := by
  simp only [step, hq, hd, takeMessage, discard_eq]

/-- Settles O7: the branch of a message that decodes. -/
theorem stepRunsDecodedInstruction : Obligations.StepRunsDecodedInstruction :=
  fun _ _ _ _ hq hd => step_of_decode_instr hq hd

/-- Settles O8: the branch of an invalid message, which discards it. -/
theorem stepDiscardsInvalidMessage : Obligations.StepDiscardsInvalidMessage :=
  fun _ _ _ _ hq hd => step_of_decode_invalid hq hd

/-- Settles O9: the branch of an empty queue. -/
theorem idleCoreHoldsItsState : Obligations.IdleCoreHoldsItsState := fun _ hq => step_of_queue_nil hq

/-- A processBlock that decodes has at most `MAX_CHANNELS` in its word 1 (30_encoding.md rule R123 item 5). -/
theorem decode_block_invalid_of_channelCount {header word1 : Word} (samples : List Word)
    (hopc : headerOpcode header = 0x10) (hcount : Config.maxChannels < lowHalf word1) :
    ∃ why, decode .audioIn ((header :: word1 :: samples).flatMap bytesOfWord) = .invalid why := by
  rw [decode_bytesOfWords]
  refine Decoded.exists_invalid fun i hdec => ?_
  obtain ⟨hkind, -, -, -, hwf, hwords⟩ := decodeWords_cons_eq_instr hdec
  obtain ⟨c, xs, rfl⟩ := Instr.eq_processBlock_of_opcode (hkind.symm.trans hopc)
  obtain ⟨rfl, -⟩ := List.cons.inj hwords
  rw [lowHalf_ofNat_of_isBlock hwf] at hcount
  exact absurd ((isBlock_iff c xs).1 hwf).1 (Nat.not_le.2 hcount)

/-- Settles O10: such a message is invalid, and an invalid message is discarded. -/
theorem blockAboveMaxChannelsDiscarded : Obligations.BlockAboveMaxChannelsDiscarded := by
  intro s rest header word1 samples hopc hcount hq
  obtain ⟨why, hd⟩ := decode_block_invalid_of_channelCount samples hopc hcount
  exact step_of_decode_invalid hq hd

/-! ### Messages that only write one field -/

/-- A message of CTRL_IN is one write of the mailbox (43_engine.md rule R271). -/
theorem exec_of_ctrlIn {i : Instr} (h : i.kind.port = .ctrlIn) :
    ∃ d, ∀ s, exec i s = .next (s.withPending (some d)) := by
  cases i with
  | updateConfig c => exact ⟨.updateConfig c, exec_updateConfig c⟩
  | startSpectrum n => exact ⟨.startSpectrum n, exec_startSpectrum n⟩
  | stopSpectrum => exact ⟨.stopSpectrum, exec_stopSpectrum⟩
  | processBlock c xs => cases h
  | blockOut c xs => cases h
  | spectrum ms => cases h

/-- Settles O12: the second write of the mailbox covers the first. -/
theorem latestControlMessageWins : Obligations.LatestControlMessageWins := by
  intro s t i j hi hj hexec
  obtain ⟨d, hd⟩ := exec_of_ctrlIn hi
  obtain ⟨e, he⟩ := exec_of_ctrlIn hj
  rw [hd] at hexec
  cases hexec
  rw [he, he]
  rfl

theorem exec_blockOut (c : Nat) (xs : List F32) (s : State) :
    exec (.blockOut c xs) s = .next (s.withOutput (s.output ++ [.blockOut c xs])) := rfl

theorem exec_spectrum (ms : List F64) (s : State) :
    exec (.spectrum ms) s = .next (s.withOutput (s.output ++ [.spectrum ms])) := rfl

/-- Settles O31: each output message is one `emit`, which writes the output history alone. -/
theorem outputMessagesJoinTheHistory : Obligations.OutputMessagesJoinTheHistory :=
  fun s => ⟨fun c xs => exec_blockOut c xs s, fun ms => exec_spectrum ms s⟩

/-! ### The pending message (43_engine.md rules R274, R283 to R288) -/

theorem applyPending_of_none {s : State} (h : s.pending = none) : applyPending s = s := by simp only [applyPending, h]

theorem applyPending_updateConfig {s : State} {c : ConfigRecord} (h : s.pending = some (.updateConfig c)) :
    applyPending s = applyConfig c (s.withPending none) := by simp only [applyPending, h, applyControl]

theorem applyPending_stopSpectrum {s : State} (h : s.pending = some .stopSpectrum) :
    applyPending s = applyStop (s.withPending none) := by simp only [applyPending, h, applyControl]

theorem applyStart_of_validFft {n : BitVec 32} (h : validFft n = true) (s : State) :
    applyStart n s =
      s.withAnalyzer true n.toNat (bitrevTable n.toNat) (cosTable n.toNat) (sinTable n.toNat) := if_pos h

/-- A start of any size writes no field that `withAnalyzer` does not write. -/
theorem applyStart_cases (n : BitVec 32) (s : State) :
    (validFft n = true ∧ applyStart n s =
      s.withAnalyzer true n.toNat (bitrevTable n.toNat) (cosTable n.toNat) (sinTable n.toNat)) ∨
    (validFft n = false ∧ applyStart n s = s) := by
  cases h : validFft n with
  | true => exact .inl ⟨rfl, applyStart_of_validFft h s⟩
  | false => exact .inr ⟨rfl, applyStart_of_not_validFft h s⟩

/-- The fields that the application of the pending message can write; the mailbox is emptied. -/
theorem applyPending_frame (s : State) :
    applyPending s =
      { s with
        pending := none, cfg := (applyPending s).cfg, ch := (applyPending s).ch, capture := (applyPending s).capture,
        N := (applyPending s).N, ring := (applyPending s).ring, cursor := (applyPending s).cursor,
        bitrev := (applyPending s).bitrev, cosT := (applyPending s).cosT, sinT := (applyPending s).sinT } := by
  rcases applyPending_cases s with ⟨hp, e⟩ | ⟨c, -, e⟩ | ⟨n, -, e⟩ | ⟨-, e⟩
  case inl => rw [e, ← hp]
  case inr.inl => rw [e]; rfl
  case inr.inr.inl =>
    rw [e]
    rcases applyStart_cases n (s.withPending none) with ⟨-, e'⟩ | ⟨-, e'⟩ <;> rw [e'] <;> rfl
  case inr.inr.inr => rw [e]; rfl

@[simp] theorem applyPending_pending (s : State) : (applyPending s).pending = none := by rw [applyPending_frame]
@[simp] theorem applyPending_chanCount (s : State) : (applyPending s).chanCount = s.chanCount := by
  rw [applyPending_frame]
@[simp] theorem applyPending_frameCount (s : State) : (applyPending s).frameCount = s.frameCount := by
  rw [applyPending_frame]
@[simp] theorem applyPending_queue (s : State) : (applyPending s).queue = s.queue := by rw [applyPending_frame]

/-- Settles O13: the mailbox is emptied before the message takes effect, and an empty one has no message to apply. -/
theorem pendingMessageAppliedOnce : Obligations.PendingMessageAppliedOnce :=
  fun s => ⟨applyPending_pending s, applyPending_of_none⟩

/-- Settles O14: the effect of an updateConfig, field by field. -/
theorem updateConfigReplacesConfigWhole : Obligations.UpdateConfigReplacesConfigWhole :=
  fun _ _ h => applyPending_updateConfig h

/-- A new ring of `n` entries reads `+0` in each (43_engine.md rule R286). -/
theorem memRead_of_ring_nil {s : State} (h : s.ring = []) (i : Nat) :
    memRead s i = if i < s.N then some F64.posZero else none := by
  rw [memRead, h]
  rfl

/-- Settles O16: an accepted start is one `withAnalyzer`, whose ring has no listed entry. -/
theorem acceptedStartCreatesZeroRing : Obligations.AcceptedStartCreatesZeroRing := by
  intro s n hpending hvalid t
  have ht : t = (s.withPending none).withAnalyzer true n.toNat (bitrevTable n.toNat) (cosTable n.toNat)
      (sinTable n.toNat) := (applyPending_startSpectrum hpending).trans (applyStart_of_validFft hvalid _)
  rw [ht]
  exact ⟨rfl, rfl, memRead_of_ring_nil rfl⟩

/-- Settles O18: a stop is one `withAnalyzer` of size 0, and a ring of size 0 has no entry to read. -/
theorem stopDiscardsTheAnalyzer : Obligations.StopDiscardsTheAnalyzer := by
  intro s hpending t
  have ht : t = (s.withPending none).withAnalyzer false 0 [] [] [] := applyPending_stopSpectrum hpending
  rw [ht]
  exact ⟨rfl, memRead_of_ring_nil rfl⟩

/-! ### The ring (43_engine.md rule R278) -/

theorem memRead_withRing_store {s : State} (hwf : s.ring.wf = true) (hc : s.cursor < s.N) (v : F64) (k i : Nat) :
    memRead (s.withRing (s.ring.store s.cursor v) k) i = if i = s.cursor then some v else memRead s i := by
  simp only [memRead, State.withRing_N, State.withRing_ring, Memory.lookup_store hwf]
  by_cases hi : i = s.cursor
  · rw [hi, if_pos hc, if_pos rfl, if_pos rfl]
  · rw [if_neg hi, if_neg hi]

/-- Settles O27: the write completes since the cursor is in the ring; the storage's laws say what reads back. -/
theorem ringWriteReplacesOneEntry : Obligations.RingWriteReplacesOneEntry := fun s v hwf hc =>
  ⟨_, ringWrite_of_lt hc v, rfl, Memory.wf_store hwf s.cursor v, memRead_withRing_store hwf hc v _⟩

theorem ringWrites_cons {s : State} (hc : s.cursor < s.N) (v : F64) (rest : List F64) :
    ringWrites (v :: rest) s =
      ringWrites rest (s.withRing (s.ring.store s.cursor v) ((s.cursor + 1) % s.N)) := by
  rw [ringWrites, ringWrite_of_lt hc, Option.bind_some]

/-- The cursor after one write is in the ring again. -/
theorem cursor_succ_mod_lt {s : State} (hc : s.cursor < s.N) : (s.cursor + 1) % s.N < s.N :=
  Nat.mod_lt _ (Nat.zero_lt_of_lt hc)

/-- The entry `j` places after the next one. -/
theorem next_add_mod (c j n : Nat) : ((c + 1) % n + j) % n = (c + (j + 1)) % n := by
  rw [Nat.mod_add_mod, Nat.add_assoc, Nat.add_comm 1 j]

/-- Several writes move the cursor on by their number modulo `N`. -/
theorem ringWrites_cursor {vs : List F64} {s t : State} (hc : s.cursor < s.N) (h : ringWrites vs s = some t) :
    t.cursor = (s.cursor + vs.length) % s.N := by
  induction vs generalizing s with
  | nil =>
    cases h
    exact (Nat.mod_eq_of_lt hc).symm
  | cons v rest ih =>
    rw [ringWrites_cons hc] at h
    exact (ih (cursor_succ_mod_lt hc) h).trans (next_add_mod ..)

/-- Several writes leave every entry alone that none of them is at. -/
theorem ringWrites_memRead_other {vs : List F64} {s t : State} (hwf : s.ring.wf = true) (hc : s.cursor < s.N)
    (h : ringWrites vs s = some t) {i : Nat} (hi : ∀ j, j < vs.length → i ≠ (s.cursor + j) % s.N) :
    memRead t i = memRead s i := by
  induction vs generalizing s with
  | nil => cases h; rfl
  | cons v rest ih =>
    rw [ringWrites_cons hc] at h
    have hne : i ≠ s.cursor := by simpa [Nat.mod_eq_of_lt hc] using hi 0 (Nat.succ_pos _)
    have hrest := ih (Memory.wf_store hwf _ _) (cursor_succ_mod_lt hc) h fun j hj => by
      simpa only [State.withRing_cursor, State.withRing_N, next_add_mod] using hi (j + 1) (Nat.succ_lt_succ hj)
    rw [hrest, memRead_withRing_store hwf hc, if_neg hne]

/-- Fewer than `N` places on is another entry. -/
theorem ne_add_mod {c k n : Nat} (hc : c < n) (hk : 0 < k) (hkn : k < n) : c ≠ (c + k) % n := by
  rw [Nat.add_mod_eq_ite, Nat.mod_eq_of_lt hc, Nat.mod_eq_of_lt hkn]
  split_ifs <;> omega

/-- At most `N` samples stand where they were written: no later one reaches an earlier one's entry. -/
theorem ringWrites_memRead_written {vs : List F64} {s t : State} (hwf : s.ring.wf = true) (hc : s.cursor < s.N)
    (hlen : vs.length ≤ s.N) (h : ringWrites vs s = some t) {j : Nat} (hj : j < vs.length) :
    memRead t ((s.cursor + j) % s.N) = vs[j]? := by
  induction vs generalizing s j with
  | nil => exact absurd hj (Nat.not_lt_zero j)
  | cons v rest ih =>
    rw [List.length_cons] at hlen hj
    rw [ringWrites_cons hc] at h
    have hwf' := Memory.wf_store hwf s.cursor v
    cases j with
    | zero =>
      rw [Nat.add_zero, Nat.mod_eq_of_lt hc, ringWrites_memRead_other hwf' (cursor_succ_mod_lt hc) h,
        memRead_withRing_store hwf hc, if_pos rfl, List.getElem?_cons_zero]
      intro k hk
      rw [State.withRing_cursor, State.withRing_N, next_add_mod]
      exact ne_add_mod hc (Nat.succ_pos k) (by omega)
    | succ j =>
      rw [List.getElem?_cons_succ, ← next_add_mod]
      exact ih (s := s.withRing _ _) hwf' (cursor_succ_mod_lt hc) (Nat.le_of_succ_le hlen) h (Nat.lt_of_succ_lt_succ hj)

/-- Settles O28: each clause is one induction over the samples. -/
theorem capturedSamplesFillTheRing : Obligations.CapturedSamplesFillTheRing := by
  intro s vs hwf hc hlen
  obtain ⟨t, ht⟩ := ringWrites_complete vs hc
  exact ⟨t, ht, ringWrites_cursor hc ht, fun j hj => ringWrites_memRead_written hwf hc hlen ht hj,
    fun i hi => ringWrites_memRead_other hwf hc ht hi⟩

end Sys2Proof.Machine
end

section
/-! PROOFS. The noise generator's states and what a channel keeps through samples, updates and creation
(41_channel_pipeline.md rules R187, R201; 10_state.md rules R36, R38, R53). -/

namespace Sys2Proof.Machine

/-! ### The noise generator (rule R187) -/

/-- A word that a shift by at least one place gives back is 0: after enough such shifts no bit is left. -/
theorem eq_zero_of_shiftLeft_eq {w k : Nat} {x : BitVec w} (hk : 0 < k) (h : x <<< k = x) : x = 0 := by
  have hrep : ∀ n, x <<< (n * k) = x := by
    intro n
    induction n with
    | zero => rw [Nat.zero_mul, BitVec.shiftLeft_zero]
    | succ n ih => rw [Nat.succ_mul, BitVec.shiftLeft_add, ih, h]
  rw [← hrep w, BitVec.shiftLeft_eq_zero (Nat.le_mul_of_pos_right w hk)]
  rfl

theorem eq_zero_of_ushiftRight_eq {w k : Nat} {x : BitVec w} (hk : 0 < k) (h : x >>> k = x) : x = 0 := by
  have hrep : ∀ n, x >>> (n * k) = x := by
    intro n
    induction n with
    | zero => rw [Nat.zero_mul, BitVec.ushiftRight_zero]
    | succ n ih => rw [Nat.succ_mul, BitVec.shiftRight_add, ih, h]
  rw [← hrep w, BitVec.ushiftRight_eq_zero (Nat.le_mul_of_pos_right w hk)]
  rfl

theorem xor_shiftLeft_ne_zero {w k : Nat} {x : BitVec w} (hk : 0 < k) (hx : x ≠ 0) : x ^^^ (x <<< k) ≠ 0 :=
  fun h => hx (eq_zero_of_shiftLeft_eq hk (BitVec.xor_eq_zero_iff.1 h).symm)

theorem xor_ushiftRight_ne_zero {w k : Nat} {x : BitVec w} (hk : 0 < k) (hx : x ≠ 0) : x ^^^ (x >>> k) ≠ 0 :=
  fun h => hx (eq_zero_of_ushiftRight_eq hk (BitVec.xor_eq_zero_iff.1 h).symm)

theorem xorshift32_ne_zero {x : BitVec 32} (hx : x ≠ 0) : xorshift32 x ≠ 0 :=
  xor_shiftLeft_ne_zero (by decide) (xor_ushiftRight_ne_zero (by decide) (xor_shiftLeft_ne_zero (by decide) hx))

/-- Settles O34: each of the three steps xors a word with a shift of itself, which is 0 only for the word 0. -/
theorem noiseGeneratorNeverReachesZero : Obligations.NoiseGeneratorNeverReachesZero := fun _ => xorshift32_ne_zero

/-! ### The invariant of a channel -/

/-- A sample writes the phase, the envelopes, the generator and the stages' histories, and no derived field. -/
theorem processSample_inv {cfg : ConfigRecord} {ch : ChannelState} (a : F64) (h : ch.Inv cfg) :
    (processSample cfg ch a).channel.Inv cfg where
  stages_length := (processSample_stages_length cfg ch a).trans h.stages_length
  stages_pos := h.stages_pos
  stages_le := h.stages_le
  rng_ne := xorshift32_ne_zero h.rng_ne
  phaseStep_eq := h.phaseStep_eq
  atkCoef_eq := h.atkCoef_eq
  relCoef_eq := h.relCoef_eq
  compRelCoef_eq := h.compRelCoef_eq
  coefficients_eq := cascade_forall_coefficients
    (P := fun a0 a1 a2 b1 b2 => (⟨a0, a1, a2, b1, b2⟩ : Coefficients) = lowPassCoefficients sampleRate cfg.cutoff cfg.q)
    ch.stages _ h.coefficients_eq

theorem runChannel_inv {cfg : ConfigRecord} {ch : ChannelState} (xs : List F32) (h : ch.Inv cfg) :
    (runChannel cfg ch xs).channel.Inv cfg :=
  runChannel_induct cfg (fun _ a => processSample_inv a) ch xs h

/-- An update derives every field that the invariant ties to the Config, whatever Config was held before. -/
theorem updateChannel_inv (cfg : ConfigRecord) {ch : ChannelState} (hlen : ch.stages.length = ch.S) (hrng : ch.rng ≠ 0) :
    (updateChannel sampleRate cfg ch).Inv cfg where
  stages_length := length_updateChannel_stages sampleRate cfg hlen
  stages_pos := (stageCount_range cfg.stages).1
  stages_le := (stageCount_range cfg.stages).2
  rng_ne := hrng
  phaseStep_eq := rfl
  atkCoef_eq := rfl
  relCoef_eq := rfl
  compRelCoef_eq := rfl
  coefficients_eq := updateChannel_coefficients sampleRate cfg ch

theorem freshChannel_inv (cfg : ConfigRecord) : (freshChannel sampleRate cfg).Inv cfg :=
  updateChannel_inv cfg rfl (by decide)

end Sys2Proof.Machine
end

section
/-! PROOFS. The block: what each of its parts writes, and so which fields a whole processBlock leaves alone (43_engine.md
sections 2, 5 and 6). -/

namespace Sys2Proof.Machine

/-! ### The channel-count check and the frame counter -/

/-- The check writes the channel set alone. -/
theorem checkChannels_frame (c : Nat) (s : State) : checkChannels c s = s.withChannels c (checkChannels c s).ch := by
  rcases checkChannels_cases c s with ⟨rfl, e⟩ | ⟨-, e⟩ <;> rw [e] <;> rfl

@[simp] theorem checkChannels_cfg (c : Nat) (s : State) : (checkChannels c s).cfg = s.cfg := by
  rw [checkChannels_frame]; rfl
@[simp] theorem checkChannels_pending (c : Nat) (s : State) : (checkChannels c s).pending = s.pending := by
  rw [checkChannels_frame]; rfl
@[simp] theorem checkChannels_chanCount (c : Nat) (s : State) : (checkChannels c s).chanCount = c := by
  rw [checkChannels_frame]; rfl
@[simp] theorem checkChannels_capture (c : Nat) (s : State) : (checkChannels c s).capture = s.capture := by
  rw [checkChannels_frame]; rfl
@[simp] theorem checkChannels_N (c : Nat) (s : State) : (checkChannels c s).N = s.N := by
  rw [checkChannels_frame]; rfl
@[simp] theorem checkChannels_frameCount (c : Nat) (s : State) : (checkChannels c s).frameCount = s.frameCount := by
  rw [checkChannels_frame]; rfl
@[simp] theorem checkChannels_queue (c : Nat) (s : State) : (checkChannels c s).queue = s.queue := by
  rw [checkChannels_frame]; rfl

/-- The emission that falls due when a block ends (rule R279). -/
def dueSpectrum (s : State) : List Emission :=
  if s.frameCount + 1 = Config.spectrumInterval ∧ s.capture = true then [.spectrum (analyzeRing s)] else []

/-- The frame counter after a block (rule R279). -/
def nextFrameCount (s : State) : Nat := if s.frameCount + 1 = Config.spectrumInterval then 0 else s.frameCount + 1

/-- The frame counter's step as one write of the output history and one of the counter. -/
theorem advanceFrame_eq (s : State) :
    advanceFrame s = (s.withOutput (s.output ++ dueSpectrum s)).withFrameCount (nextFrameCount s) := by
  rcases advanceFrame_cases s with ⟨hne, e⟩ | ⟨heq, hoff, e⟩ | ⟨heq, hon, e⟩
  case inl => simp only [e, dueSpectrum, nextFrameCount, hne, false_and, if_false, List.append_nil]; rfl
  case inr.inl =>
    simp only [e, dueSpectrum, nextFrameCount, heq, hoff, Bool.false_eq_true, and_false, if_false, if_true,
      List.append_nil]
    rfl
  case inr.inr => simp only [e, dueSpectrum, nextFrameCount, heq, hon, and_self, if_true, emit_eq]

/-- Settles O29: the counter below the interval, at it with capture off, and at it with capture on. -/
theorem frameCounterPacesTheSpectrum : Obligations.FrameCounterPacesTheSpectrum := by
  intro s _
  rcases advanceFrame_cases s with ⟨hne, e⟩ | ⟨heq, hoff, e⟩ | ⟨heq, hon, e⟩
  case inl => exact ⟨fun _ => e, fun h => absurd h hne, fun h => absurd h hne⟩
  case inr.inl =>
    refine ⟨fun h => absurd heq (Nat.ne_of_lt h), fun _ _ => e, fun _ hon => ?_⟩
    rw [hoff] at hon
    cases hon
  case inr.inr =>
    refine ⟨fun h => absurd heq (Nat.ne_of_lt h), fun _ hoff => ?_, fun _ _ => e⟩
    rw [hon] at hoff
    cases hoff

/-! ### The samples and the capture -/

theorem captureBlock_frame {runs : List ChannelRun} {s t : State} (h : captureBlock runs s = some t) :
    t = s.withRing t.ring t.cursor := by
  rcases captureBlock_eq_some h with ⟨rfl, -⟩ | ⟨-, first, rest, -, hw⟩
  · rfl
  · exact ringWrites_eq_some hw

/-- The ring writes neither read the channels nor write them. -/
theorem ringWrites_withChannels (vs : List F64) (s : State) (n : Nat) (chs : List ChannelState) :
    ringWrites vs (s.withChannels n chs) = (ringWrites vs s).map (fun t => t.withChannels n chs) := by
  induction vs generalizing s with
  | nil => rfl
  | cons v rest ih =>
    by_cases hc : s.cursor < s.N
    · rw [ringWrites_cons hc, ringWrites_cons (s := s.withChannels n chs) hc, ← ih]
      rfl
    · have hnone : memWrite s s.cursor v = none := if_neg hc
      have hnone' : memWrite (s.withChannels n chs) s.cursor v = none := if_neg hc
      simp only [ringWrites, ringWrite, State.withChannels_cursor, hnone, hnone', Option.map_none, Option.bind_none]

/-- Run `k` is that of channel `k` on the samples from `k * BLOCK_LEN` on (rule R277). -/
theorem runChannels_getElem? (cfg : ConfigRecord) (chs : List ChannelState) (xs : List F32) (k : Nat) :
    (runChannels cfg chs xs)[k]? =
      chs[k]?.map (fun ch => runChannel cfg ch ((xs.drop (k * Config.blockLen)).take Config.blockLen)) := by
  induction chs generalizing xs k with
  | nil => rfl
  | cons ch rest ih =>
    cases k with
    | zero => rw [Nat.zero_mul, List.drop_zero]; rfl
    | succ k =>
      rw [runChannels, List.getElem?_cons_succ, List.getElem?_cons_succ, ih, List.drop_drop, Nat.succ_mul,
        Nat.add_comm Config.blockLen]

/-! ### A block after its begin -/

/-- A completed block after its begin: the captured state, the blockOut, then the frame counter's step. -/
theorem finishBlock_cases {c : Nat} {xs : List F32} {s t : State} (h : finishBlock c xs s = some t) :
    ∃ ring cursor,
      captureBlock (runChannels s.cfg s.ch xs)
        (s.withChannels s.chanCount ((runChannels s.cfg s.ch xs).map ChannelRun.channel)) =
        some ((s.withChannels s.chanCount ((runChannels s.cfg s.ch xs).map ChannelRun.channel)).withRing ring cursor) ∧
      t = advanceFrame (emit (.blockOut c ((runChannels s.cfg s.ch xs).flatMap ChannelRun.outputs))
        ((s.withChannels s.chanCount ((runChannels s.cfg s.ch xs).map ChannelRun.channel)).withRing ring cursor)) := by
  obtain ⟨u, hu, ht⟩ := finishBlock_eq_some h
  have hframe := captureBlock_frame hu
  exact ⟨u.ring, u.cursor, by rw [← hframe]; exact hu, by rw [← hframe]; exact ht⟩

/-- The ring and the cursor that a block leaves are those of its capture. -/
theorem finishBlock_captureBlock {c : Nat} {xs : List F32} {s t : State} (h : finishBlock c xs s = some t) :
    captureBlock (runChannels s.cfg s.ch xs)
      (s.withChannels s.chanCount ((runChannels s.cfg s.ch xs).map ChannelRun.channel)) =
      some ((s.withChannels s.chanCount ((runChannels s.cfg s.ch xs).map ChannelRun.channel)).withRing t.ring t.cursor) := by
  obtain ⟨ring, cursor, hcap, rfl⟩ := finishBlock_cases h
  rw [advanceFrame_eq]
  exact hcap

/-- The fields that a block after its begin can write. -/
theorem finishBlock_frame {c : Nat} {xs : List F32} {s t : State} (h : finishBlock c xs s = some t) :
    t = { s with
          ch := (runChannels s.cfg s.ch xs).map ChannelRun.channel, ring := t.ring, cursor := t.cursor,
          frameCount := nextFrameCount s, output := t.output } := by
  obtain ⟨ring, cursor, -, rfl⟩ := finishBlock_cases h
  rw [advanceFrame_eq]
  rfl

/-- What a completed processBlock leaves of the fields that only its begin writes. -/
theorem execProcessBlock_frame {c : Nat} {xs : List F32} {s t : State} (h : exec (.processBlock c xs) s = .next t) :
    t.cfg = (applyPending s).cfg ∧ t.capture = (applyPending s).capture ∧ t.N = (applyPending s).N := by
  rw [finishBlock_frame (execProcessBlock_eq_next h)]
  exact ⟨checkChannels_cfg .., checkChannels_capture .., checkChannels_N ..⟩

/-- Settles O21: the block applies the mailbox's Config, and no later part of it writes the configuration register. -/
theorem configHeldBitForBit : Obligations.ConfigHeldBitForBit := by
  intro s u t c k xs hu ht
  rw [exec_updateConfig] at hu
  cases hu
  obtain ⟨hcfg, -, -⟩ := execProcessBlock_frame ht
  rw [hcfg, applyPending_updateConfig rfl]
  rfl

/-- The pending message changes the capture mode or `N` only if it is an accepted start or a stop (rule R290). -/
theorem applyPending_capture_cases (s : State) :
    ((applyPending s).capture = s.capture ∧ (applyPending s).N = s.N) ∨
    (∃ n, s.pending = some (.startSpectrum n) ∧ validFft n = true ∧
      (applyPending s).capture = true ∧ (applyPending s).N = n.toNat) ∨
    (s.pending = some .stopSpectrum ∧ (applyPending s).capture = false ∧ (applyPending s).N = 0) := by
  rcases applyPending_cases s with ⟨-, e⟩ | ⟨c, -, e⟩ | ⟨n, hp, e⟩ | ⟨hp, e⟩
  case inl => exact .inl (by rw [e]; exact ⟨rfl, rfl⟩)
  case inr.inl => exact .inl (by rw [e]; exact ⟨rfl, rfl⟩)
  case inr.inr.inl =>
    rcases applyStart_cases n (s.withPending none) with ⟨hvalid, e'⟩ | ⟨-, e'⟩
    · exact .inr (.inl ⟨n, hp, hvalid, by rw [e, e']; exact ⟨rfl, rfl⟩⟩)
    · exact .inl (by rw [e, e']; exact ⟨rfl, rfl⟩)
  case inr.inr.inr => exact .inr (.inr ⟨hp, by rw [e]; exact ⟨rfl, rfl⟩⟩)

/-- Every message but processBlock writes the mailbox or the output history alone. -/
theorem exec_keeps_capture {s t : State} {i : Instr} (h : exec i s = .next t) :
    (∃ c xs, i = .processBlock c xs) ∨ (t.capture = s.capture ∧ t.N = s.N) := by
  cases i with
  | processBlock c xs => exact .inl ⟨c, xs, rfl⟩
  | updateConfig c => rw [exec_updateConfig] at h; cases h; exact .inr ⟨rfl, rfl⟩
  | startSpectrum n => rw [exec_startSpectrum] at h; cases h; exact .inr ⟨rfl, rfl⟩
  | stopSpectrum => rw [exec_stopSpectrum] at h; cases h; exact .inr ⟨rfl, rfl⟩
  | blockOut c xs => rw [exec_blockOut] at h; cases h; exact .inr ⟨rfl, rfl⟩
  | spectrum ms => rw [exec_spectrum] at h; cases h; exact .inr ⟨rfl, rfl⟩

/-- Settles O19: no message but processBlock writes the two fields, and it writes them through its pending message. -/
theorem captureModeChangesOnlyByStartOrStop : Obligations.CaptureModeChangesOnlyByStartOrStop := by
  intro s t i h hchange
  rcases exec_keeps_capture h with ⟨c, xs, rfl⟩ | ⟨hcapture, hN⟩
  case inr => exact absurd hchange (by simp only [hcapture, hN, ne_eq, not_true, or_self, not_false_iff])
  case inl =>
    obtain ⟨-, hcapture, hN⟩ := execProcessBlock_frame h
    rw [hcapture, hN] at hchange ⊢
    refine ⟨⟨c, xs, rfl⟩, ?_⟩
    rcases applyPending_capture_cases s with ⟨e, e'⟩ | hstart | hstop
    · exact absurd hchange (by simp only [e, e', ne_eq, not_true, or_self, not_false_iff])
    · exact .inl hstart
    · exact .inr hstop

/-- The output history after a block after its begin. -/
theorem finishBlock_output_eq {c : Nat} {xs : List F32} {s t : State} (h : finishBlock c xs s = some t) :
    t.output = s.output ++ .blockOut c ((runChannels s.cfg s.ch xs).flatMap ChannelRun.outputs) ::
      (if s.frameCount + 1 = Config.spectrumInterval ∧ t.capture = true then [.spectrum (analyzeRing t)] else []) := by
  obtain ⟨ring, cursor, -, rfl⟩ := finishBlock_cases h
  rw [advanceFrame_eq]
  simp only [State.withFrameCount_output, State.withOutput_output, emit_eq, State.withRing_output,
    State.withChannels_output, List.append_assoc, List.singleton_append]
  rfl

/-- Settles O20: the stop displaces the start in the mailbox, and a block with capture off emits its blockOut alone. -/
theorem startThenStopEmitsNoSpectrum : Obligations.StartThenStopEmitsNoSpectrum := by
  intro s u v t n c xs hu hv ht
  cases hu
  cases hv
  obtain ⟨-, hcapture, -⟩ := execProcessBlock_frame ht
  rw [applyPending_stopSpectrum rfl] at hcapture
  have hoff : t.capture = false := hcapture
  have hout := finishBlock_output_eq (execProcessBlock_eq_next ht)
  rw [if_neg (by simp [hoff]), beginBlock_output] at hout
  exact ⟨hoff, _, hout⟩

theorem finishBlock_ch {c : Nat} {xs : List F32} {s t : State} (h : finishBlock c xs s = some t) :
    t.ch = (runChannels s.cfg s.ch xs).map ChannelRun.channel := by rw [finishBlock_frame h]

/-- The runs of a block that recreates its channels from a Config. -/
def freshRuns (cfg : ConfigRecord) (c : Nat) (xs : List F32) : List ChannelRun :=
  runChannels cfg (List.replicate c (freshChannel sampleRate cfg)) xs

/-- A block that finds an empty mailbox and another channel count runs fresh channels. -/
theorem execProcessBlock_of_recreated {c : Nat} {xs : List F32} {s t : State} (hp : s.pending = none)
    (hne : c ≠ s.chanCount) (h : exec (.processBlock c xs) s = .next t) :
    t.ch = (freshRuns s.cfg c xs).map ChannelRun.channel ∧
      ∃ rest, t.output = s.output ++ .blockOut c ((freshRuns s.cfg c xs).flatMap ChannelRun.outputs) :: rest := by
  have hbegin : beginBlock c s = s.withChannels c (List.replicate c (freshChannel sampleRate s.cfg)) := by
    rw [beginBlock, applyPending_of_none hp, checkChannels_of_ne hne]
  have hfinish := execProcessBlock_eq_next h
  rw [hbegin] at hfinish
  obtain ⟨rest, hout, -⟩ := finishBlock_output hfinish
  exact ⟨finishBlock_ch hfinish, rest, hout⟩

/-- Settles O25: the runs are those of fresh channels of the same Config on the same samples. -/
theorem recreatedChannelsForgetThePast : Obligations.RecreatedChannelsForgetThePast := by
  intro s₁ s₂ t₁ t₂ c xs hp₁ hp₂ hcfg hne₁ hne₂ h₁ h₂
  obtain ⟨hch₁, r₁, hout₁⟩ := execProcessBlock_of_recreated hp₁ hne₁ h₁
  obtain ⟨hch₂, r₂, hout₂⟩ := execProcessBlock_of_recreated hp₂ hne₂ h₂
  rw [hcfg] at hch₁ hout₁
  exact ⟨hch₁.trans hch₂.symm, _, r₁, r₂, hout₁, hout₂⟩

end Sys2Proof.Machine
end

section
/-! PROOFS. The engine's invariant: it holds at reset, every operation on the state keeps it, and from it every step
completes (10_state.md sections 3, 4, 7 and 8; 60_exceptions.md section 1). -/

namespace Sys2Proof.Machine

/-! ### Reset -/

theorem reset_inv : State.reset.Inv where
  channels_length := rfl
  chanCount_le := Nat.zero_le _
  channels := fun _ h => absurd h List.not_mem_nil
  capture_iff := ⟨fun h => absurd h Bool.false_ne_true, fun h => absurd rfl h⟩
  size := fun h => absurd rfl h
  cursor_off := fun _ => rfl
  cursor_on := fun h => absurd rfl h
  ring_wf := rfl
  ring_within := rfl
  bitrev_eq := rfl
  cosT_eq := rfl
  sinT_eq := rfl
  frameCount_lt := by decide
  output_good := fun _ h => absurd h List.not_mem_nil
  queue_input := fun _ h => absurd h List.not_mem_nil

/-- Settles O58: most clauses speak of channels, a ring or messages, of which there are none; the default Config is
evaluated. -/
theorem resetMeetsTheInvariant : Obligations.ResetMeetsTheInvariant :=
  ⟨reset_inv, ⟨by decide +kernel, fun _ h => by cases h⟩, fun _ h => absurd h List.not_mem_nil⟩

/-! ### One field update each -/

theorem State.Inv.withPending {s : State} (h : s.Inv) (p : Option Control) : (s.withPending p).Inv := { h with }

theorem State.Inv.withQueue {s : State} (h : s.Inv) {q : List Transaction} (hq : ∀ m ∈ q, m.port.isInput = true) :
    (s.withQueue q).Inv := { h with queue_input := hq }

theorem State.Inv.withFrameCount {s : State} (h : s.Inv) {k : Nat} (hk : k < Config.spectrumInterval) :
    (s.withFrameCount k).Inv := { h with frameCount_lt := hk }

theorem State.Inv.withOutput {s : State} (h : s.Inv) {o : List Emission} (ho : ∀ e ∈ o, e.good) :
    (s.withOutput o).Inv := { h with output_good := ho }

theorem State.Inv.withChannels {s : State} (h : s.Inv) {c : Nat} {chs : List ChannelState} (hlen : chs.length = c)
    (hc : c ≤ Config.maxChannels) (hchs : ∀ ch ∈ chs, ch.Inv s.cfg) : (s.withChannels c chs).Inv :=
  { h with channels_length := hlen, chanCount_le := hc, channels := hchs }

/-- A new analyzer of a legal size (43_engine.md rule R286). -/
theorem State.Inv.withAnalyzer_on {s : State} (h : s.Inv) {n : Nat} (hn : isFftSize n = true) :
    (s.withAnalyzer true n (bitrevTable n) (cosTable n) (sinTable n)).Inv :=
  have hpos : 0 < n := ((isFftSize_iff n).1 hn).1
  { h with
    capture_iff := ⟨fun _ => Nat.ne_of_gt hpos, fun _ => rfl⟩
    size := fun _ => hn
    cursor_off := fun _ => rfl
    cursor_on := fun _ => hpos
    ring_wf := rfl
    ring_within := rfl
    bitrev_eq := rfl
    cosT_eq := rfl
    sinT_eq := rfl }

theorem cosTable_zero : cosTable 0 = [] := by simp [cosTable]

theorem sinTable_zero : sinTable 0 = [] := by simp [sinTable]

/-- No analyzer (43_engine.md rule R288): the tables of size 0 are empty. -/
theorem State.Inv.withAnalyzer_off {s : State} (h : s.Inv) : (s.withAnalyzer false 0 [] [] []).Inv :=
  { h with
    capture_iff := ⟨fun h => absurd h Bool.false_ne_true, fun h => absurd rfl h⟩
    size := fun h => absurd rfl h
    cursor_off := fun _ => rfl
    cursor_on := fun h => absurd rfl h
    ring_wf := rfl
    ring_within := rfl
    bitrev_eq := rfl
    cosT_eq := cosTable_zero.symm
    sinT_eq := sinTable_zero.symm }

theorem State.Inv.ringReady {s : State} (h : s.Inv) : s.ringReady := fun hc => h.cursor_on (h.capture_iff.1 hc)

/-! ### The begin of a block -/

theorem applyConfig_inv {s : State} (c : ConfigRecord) (h : s.Inv) : (applyConfig c s).Inv :=
  { h with
    channels_length := (List.length_map _).trans h.channels_length
    channels := fun ch hch => by
      obtain ⟨old, hold, rfl⟩ := List.mem_map.1 hch
      exact updateChannel_inv c (h.channels old hold).stages_length (h.channels old hold).rng_ne }

theorem applyStart_inv {s : State} (n : BitVec 32) (h : s.Inv) : (applyStart n s).Inv := by
  rcases applyStart_cases n s with ⟨hvalid, e⟩ | ⟨-, e⟩ <;> rw [e]
  · exact h.withAnalyzer_on ((validFft_iff_isFftSize n).1 hvalid)
  · exact h

theorem applyPending_inv {s : State} (h : s.Inv) : (applyPending s).Inv := by
  rcases applyPending_cases s with ⟨-, e⟩ | ⟨c, -, e⟩ | ⟨n, -, e⟩ | ⟨-, e⟩ <;> rw [e]
  case inl => exact h
  case inr.inl => exact applyConfig_inv c (h.withPending none)
  case inr.inr.inl => exact applyStart_inv n (h.withPending none)
  case inr.inr.inr => exact (h.withPending none).withAnalyzer_off

theorem checkChannels_inv {s : State} {c : Nat} (hc : c ≤ Config.maxChannels) (h : s.Inv) : (checkChannels c s).Inv := by
  rcases checkChannels_cases c s with ⟨-, e⟩ | ⟨-, e⟩ <;> rw [e]
  · exact h
  · refine h.withChannels List.length_replicate hc fun ch hch => ?_
    rw [List.eq_of_mem_replicate hch]
    exact freshChannel_inv s.cfg

theorem beginBlock_inv {s : State} {c : Nat} (hc : c ≤ Config.maxChannels) (h : s.Inv) : (beginBlock c s).Inv :=
  checkChannels_inv hc (applyPending_inv h)

/-! ### The rest of a block -/

theorem runChannels_inv {cfg : ConfigRecord} {chs : List ChannelState} (xs : List F32) (h : ∀ ch ∈ chs, ch.Inv cfg) :
    ∀ ch ∈ (runChannels cfg chs xs).map ChannelRun.channel, ch.Inv cfg := by
  intro ch hch
  obtain ⟨run, hrun, rfl⟩ := List.mem_map.1 hch
  obtain ⟨old, hold, ys, rfl⟩ := mem_runChannels hrun
  exact runChannel_inv ys (h old hold)

theorem captureBlock_inv {runs : List ChannelRun} {s t : State} (hcap : captureBlock runs s = some t) (h : s.Inv) :
    t.Inv := by
  rcases captureBlock_eq_some hcap with ⟨rfl, -⟩ | ⟨hon, first, rest, -, hw⟩
  · exact h
  · have hN := h.capture_iff.1 hon
    obtain ⟨hwf, hin, hcursor, hsize⟩ := ringWrites_keeps hw h.ring_wf h.ring_within (h.cursor_on hN)
    rw [hsize] at hin hcursor
    rw [ringWrites_eq_some hw]
    exact { h with
      cursor_off := fun h0 => absurd h0 hN
      cursor_on := fun _ => hcursor
      ring_wf := hwf
      ring_within := hin }

/-- Half a transform size is a number of magnitudes (30_encoding.md rule R122). -/
theorem isMagnitudeCount_of_isFftSize {n : Nat} (h : isFftSize n = true) : isMagnitudeCount (n / 2) = true := by
  obtain ⟨k, hmax, rfl⟩ := (isFftSize_iff_two_pow n).1 h
  cases k with
  | zero => decide
  | succ k =>
    have hhalf : 2 ^ (k + 1) / 2 = 2 ^ k := by rw [Nat.pow_succ, Nat.mul_div_cancel _ Nat.two_pos]
    have hne : 2 ^ k ≠ 0 := Nat.ne_of_gt Nat.one_le_two_pow
    rw [hhalf, isMagnitudeCount_iff, ← Nat.pow_succ']
    exact ⟨hmax, (Nat.and_sub_one_eq_zero_iff_isPowerOfTwo hne).2 ⟨k, rfl⟩⟩

/-- With capture on the analysis of the ring is a message of the transaction set. -/
theorem analyzeRing_good {s : State} (h : s.Inv) (hon : s.capture = true) :
    (Emission.spectrum (analyzeRing s)).good := by
  have hlen : (analyzeRing s).length = s.N / 2 := length_analyze ..
  rw [Emission.good, hlen]
  exact isMagnitudeCount_of_isFftSize (h.size (h.capture_iff.1 hon))

theorem State.Inv.emit {s : State} {e : Emission} (h : s.Inv) (he : e.good) :
    (s.withOutput (s.output ++ [e])).Inv :=
  h.withOutput fun e' he' => by
    rcases List.mem_append.1 he' with hold | hnew
    · exact h.output_good e' hold
    · rwa [List.mem_singleton.1 hnew]

theorem advanceFrame_inv {s : State} (h : s.Inv) : (advanceFrame s).Inv := by
  rcases advanceFrame_cases s with ⟨hne, e⟩ | ⟨-, -, e⟩ | ⟨-, hon, e⟩ <;> rw [e]
  case inl =>
    have := h.frameCount_lt
    exact h.withFrameCount (by omega)
  case inr.inl => exact h.withFrameCount (by decide)
  case inr.inr => exact (h.emit (analyzeRing_good h hon)).withFrameCount (by decide)

/-- The blockOut of a block that has one channel per input channel is a message of the transaction set, with its samples
in [-1, 1] (60_exceptions.md rule R331). -/
theorem blockOut_good {cfg : ConfigRecord} {chs : List ChannelState} {c : Nat} {xs : List F32} (hlen : chs.length = c)
    (hblock : isBlock c xs = true) :
    (Emission.blockOut c ((runChannels cfg chs xs).flatMap ChannelRun.outputs)).good := by
  obtain ⟨hmax, hxs⟩ := (isBlock_iff c xs).1 hblock
  have hxs' : xs.length = chs.length * Config.blockLen := by rw [hlen]; exact hxs
  refine ⟨(isBlock_iff _ _).2 ⟨hmax, ?_⟩, runChannels_outputs_inUnitRange cfg chs xs⟩
  rw [length_flatMap_outputs cfg chs xs hxs', hxs]

theorem finishBlock_inv {c : Nat} {xs : List F32} {s t : State} (hfinish : finishBlock c xs s = some t)
    (hcount : s.chanCount = c) (hblock : isBlock c xs = true) (h : s.Inv) : t.Inv := by
  obtain ⟨u, hcap, rfl⟩ := finishBlock_eq_some hfinish
  have hprocessed : (s.withChannels s.chanCount ((runChannels s.cfg s.ch xs).map ChannelRun.channel)).Inv :=
    h.withChannels (by rw [List.length_map, length_runChannels, h.channels_length]) h.chanCount_le
      (runChannels_inv xs h.channels)
  have hu : u.Inv := captureBlock_inv hcap hprocessed
  exact advanceFrame_inv (hu.emit (blockOut_good (h.channels_length.trans hcount) hblock))

/-! ### Every message and every step -/

/-- A well-formed message of an input port keeps the invariant. -/
theorem exec_inv {i : Instr} {s t : State} (hin : i.kind.port.isInput = true) (hwf : i.wf = true) (h : s.Inv)
    (hexec : exec i s = .next t) : t.Inv := by
  cases i with
  | updateConfig c => rw [exec_updateConfig] at hexec; cases hexec; exact h.withPending _
  | startSpectrum n => rw [exec_startSpectrum] at hexec; cases hexec; exact h.withPending _
  | stopSpectrum => rw [exec_stopSpectrum] at hexec; cases hexec; exact h.withPending _
  | processBlock c xs =>
    exact finishBlock_inv (execProcessBlock_eq_next hexec) (checkChannels_chanCount ..) hwf
      (beginBlock_inv ((isBlock_iff c xs).1 hwf).1 h)
  | blockOut c xs => exact absurd hin Bool.false_ne_true
  | spectrum ms => exact absurd hin Bool.false_ne_true

/-- A well-formed processBlock completes: its begin keeps the cursor in the ring. -/
theorem execProcessBlock_complete {c : Nat} {xs : List F32} {s : State} (hwf : isBlock c xs = true) (h : s.Inv) :
    ∃ t, exec (.processBlock c xs) s = .next t := by
  obtain ⟨t, ht⟩ := finishBlock_complete c xs (beginBlock_inv ((isBlock_iff c xs).1 hwf).1 h).ringReady
  exact ⟨t, execProcessBlock_of_some ht⟩

theorem exec_complete {i : Instr} {s : State} (hwf : i.wf = true) (h : s.Inv) : ∃ t, exec i s = .next t := by
  cases i with
  | updateConfig c => exact ⟨_, exec_updateConfig c s⟩
  | startSpectrum n => exact ⟨_, exec_startSpectrum n s⟩
  | stopSpectrum => exact ⟨_, exec_stopSpectrum s⟩
  | processBlock c xs => exact execProcessBlock_complete hwf h
  | blockOut c xs => exact ⟨_, exec_blockOut c xs s⟩
  | spectrum ms => exact ⟨_, exec_spectrum ms s⟩

/-- Taking the next message keeps the invariant. -/
theorem State.Inv.takeMessage {s : State} {m : Transaction} {rest : List Transaction} (h : s.Inv)
    (hq : s.queue = m :: rest) : (s.withQueue rest).Inv :=
  h.withQueue fun m' hm' => h.queue_input m' (hq ▸ List.mem_cons_of_mem m hm')

/-- What the step runs from a state that meets the invariant: a well-formed message of an input port, in a state that
meets the invariant. -/
theorem step_inv_cases {s : State} (h : s.Inv) :
    step s = .next s ∨ (∃ rest, step s = .next (s.withQueue rest) ∧ (s.withQueue rest).Inv) ∨
    ∃ i rest, step s = exec i (s.withQueue rest) ∧ (s.withQueue rest).Inv ∧ i.wf = true ∧
      i.kind.port.isInput = true := by
  rcases step_cases s with ⟨-, e⟩ | ⟨m, rest, why, hq, -, e⟩ | ⟨m, rest, i, hq, hd, e⟩
  · exact .inl e
  · exact .inr (.inl ⟨rest, e, h.takeMessage hq⟩)
  · obtain ⟨hwf, hport, -⟩ := encodeInvertsDecode m.port m.bytes i hd
    refine .inr (.inr ⟨i, rest, e, h.takeMessage hq, hwf, ?_⟩)
    rw [hport]
    exact h.queue_input m (hq ▸ List.mem_cons_self ..)

/-- Settles O59: every operation that a step is made of keeps every clause, and what it emits is a message of the
transaction set. -/
theorem stepKeepsTheInvariant : Obligations.StepKeepsTheInvariant := by
  intro s t h hstep
  rcases step_inv_cases h with e | ⟨rest, e, h'⟩ | ⟨i, rest, e, h', hwf, hin⟩ <;> rw [e] at hstep
  · cases hstep; exact h
  · cases hstep; exact h'
  · exact exec_inv hin hwf h' hstep

/-- Settles O60: the one place that can fault is the ring write, and the invariant keeps the cursor in the ring. -/
theorem noTransactionStopsPartWay : Obligations.NoTransactionStopsPartWay := by
  intro s h
  rcases step_inv_cases h with e | ⟨rest, e, -⟩ | ⟨i, rest, e, h', hwf, -⟩ <;> rw [e]
  · exact ⟨s, rfl⟩
  · exact ⟨_, rfl⟩
  · exact exec_complete hwf h'

/-! ### What a processBlock does to every piece of state -/

/-- The capture of a block's runs, which neither reads the channels nor writes them: nothing, or channel 0's pre-detector
samples written from the cursor on (rules R277, R278). -/
theorem captureBlock_withChannels_cases {runs : List ChannelRun} {s : State} {n : Nat} {chs : List ChannelState}
    {ring : Memory} {cursor : Nat}
    (h : captureBlock runs (s.withChannels n chs) = some ((s.withChannels n chs).withRing ring cursor)) :
    ((s.capture = false ∨ runs = []) ∧ ring = s.ring ∧ cursor = s.cursor) ∨
    (s.capture = true ∧ ∃ first rest, runs = first :: rest ∧
      ringWrites first.modulated s = some (s.withRing ring cursor)) := by
  rcases captureBlock_eq_some h with ⟨e, hoff⟩ | ⟨hon, first, rest, hruns, hw⟩
  · exact .inl ⟨hoff, congrArg State.ring e, congrArg State.cursor e⟩
  · rw [ringWrites_withChannels, Option.map_eq_some_iff] at hw
    obtain ⟨v, hv, e⟩ := hw
    have hring : v.ring = ring := congrArg State.ring e
    have hcursor : v.cursor = cursor := congrArg State.cursor e
    refine .inr ⟨hon, first, rest, hruns, ?_⟩
    rw [hv, ringWrites_eq_some hv, hring, hcursor]

/-- Channel 0 has one pre-detector sample per input sample of its `BLOCK_LEN`. -/
theorem length_modulated_of_runChannels {cfg : ConfigRecord} {chs : List ChannelState} {xs : List F32} {first : ChannelRun}
    {rest : List ChannelRun} (hlen : xs.length = chs.length * Config.blockLen)
    (h : runChannels cfg chs xs = first :: rest) : first.modulated.length = Config.blockLen := by
  cases chs with
  | nil => cases h
  | cons ch chs =>
    obtain ⟨rfl, -⟩ := List.cons.inj h
    rw [length_runChannel_modulated, List.length_take, hlen, List.length_cons, Nat.succ_mul]
    exact min_eq_left (Nat.le_add_left _ _)

theorem runChannels_eq_nil_iff (cfg : ConfigRecord) (chs : List ChannelState) (xs : List F32) :
    runChannels cfg chs xs = [] ↔ chs.length = 0 := by
  rw [← List.length_eq_zero_iff, length_runChannels]

theorem beginBlock_pending (c : Nat) (s : State) : (beginBlock c s).pending = none := by simp [beginBlock]

theorem beginBlock_chanCount (c : Nat) (s : State) : (beginBlock c s).chanCount = c := checkChannels_chanCount ..

theorem beginBlock_frameCount (c : Nat) (s : State) : (beginBlock c s).frameCount = s.frameCount := by simp [beginBlock]

theorem beginBlock_queue (c : Nat) (s : State) : (beginBlock c s).queue = s.queue := by simp [beginBlock]

/-- The ring's cursor after the capture of a well-formed block moves by `BLOCK_LEN` exactly when something is captured, and
otherwise the ring stays too. -/
theorem captureBlock_cursor {s : State} {c : Nat} {xs : List F32} {n : Nat} {chs : List ChannelState} {ring : Memory}
    {cursor : Nat} (hinv : s.Inv) (hchs : s.ch.length = c) (hxs : xs.length = s.ch.length * Config.blockLen)
    (h : captureBlock (runChannels s.cfg s.ch xs) (s.withChannels n chs) =
      some ((s.withChannels n chs).withRing ring cursor)) :
    if s.capture = true ∧ c ≠ 0 then cursor = (s.cursor + Config.blockLen) % s.N
    else cursor = s.cursor ∧ ring = s.ring := by
  rcases captureBlock_withChannels_cases h with ⟨hoff, hring, hcursor⟩ | ⟨hon, first, rest, hruns, hw⟩
  · rw [runChannels_eq_nil_iff, hchs] at hoff
    rw [if_neg (by rcases hoff with hoff | rfl <;> simp_all)]
    exact ⟨hcursor, hring⟩
  · have hne : c ≠ 0 := fun h0 => by
      rw [(runChannels_eq_nil_iff ..).2 (hchs.trans h0)] at hruns
      cases hruns
    rw [if_pos ⟨hon, hne⟩, ← length_modulated_of_runChannels hxs hruns]
    exact ringWrites_cursor (hinv.ringReady hon) hw

/-- What the capture of a well-formed block writes: channel 0's samples from the cursor on, and no other entry. -/
theorem captureBlock_written {s : State} {xs : List F32} {n : Nat} {chs : List ChannelState} {ring : Memory}
    {cursor : Nat} {first : ChannelRun} {rest : List ChannelRun} (hinv : s.Inv)
    (hxs : xs.length = s.ch.length * Config.blockLen) (hruns : runChannels s.cfg s.ch xs = first :: rest)
    (hon : s.capture = true)
    (h : captureBlock (runChannels s.cfg s.ch xs) (s.withChannels n chs) =
      some ((s.withChannels n chs).withRing ring cursor)) :
    ringWrites first.modulated s = some (s.withRing ring cursor) ∧
    ∀ i, (∀ j, j < Config.blockLen → i ≠ (s.cursor + j) % s.N) → memRead (s.withRing ring cursor) i = memRead s i := by
  rcases captureBlock_withChannels_cases h with ⟨hoff, -, -⟩ | ⟨-, first', rest', hruns', hw⟩
  · rw [hon, hruns] at hoff
    simp at hoff
  · obtain ⟨rfl, -⟩ := List.cons.inj (hruns.symm.trans hruns')
    refine ⟨hw, fun i hi => ringWrites_memRead_other hinv.ring_wf (hinv.ringReady hon) hw fun j hj => hi j ?_⟩
    rwa [length_modulated_of_runChannels hxs hruns] at hj

/-- Settles O22: the block completes, and each clause is the law of the part that writes the field; the capture is either
no write at all or channel 0's samples written from the cursor on. -/
theorem processBlockCompletes : Obligations.ProcessBlockCompletes := by
  refine ⟨fun cfg ch => ⟨runChannel_nil cfg ch, fun x xs => runChannel_cons cfg ch x xs⟩, ?_⟩
  intro s c xs hinv hwf b runs
  obtain ⟨hmax, hxs⟩ := (isBlock_iff c xs).1 hwf
  have hb : b.Inv := beginBlock_inv hmax hinv
  have hchs : b.ch.length = c := hb.channels_length.trans (beginBlock_chanCount c s)
  have hlen : xs.length = b.ch.length * Config.blockLen := by rw [hchs]; exact hxs
  refine ⟨⟨length_runChannels .., fun k ch hk => ?_⟩, ?_⟩
  · rw [runChannels_getElem?, hk, Option.map_some]
  obtain ⟨t, ht⟩ := execProcessBlock_complete hwf hinv
  have hfinish : finishBlock c xs b = some t := execProcessBlock_eq_next ht
  have hcap := finishBlock_captureBlock hfinish
  have hframe := finishBlock_frame hfinish
  have hcount : t.frameCount = nextFrameCount b := by rw [hframe]
  have hcapture : t.capture = b.capture := by rw [hframe]
  have hN : t.N = b.N := by rw [hframe]
  have hqueue : t.queue = b.queue := by rw [hframe]
  refine ⟨t, ht, ?record, ?pending, ?chanCount, ?channels, hqueue.trans (beginBlock_queue c s), ?output, ?frameCount,
    ?cursor, fun first rest hruns hon => ?written⟩
  case record => rw [hcount]; exact hframe
  case pending => rw [hframe]; exact beginBlock_pending c s
  case chanCount => rw [hframe]; exact beginBlock_chanCount c s
  case channels => rw [finishBlock_ch hfinish, List.length_map, length_runChannels, hchs]
  case output =>
    rw [finishBlock_output_eq hfinish, beginBlock_output, beginBlock_frameCount]
  case frameCount => rw [hcount, nextFrameCount, beginBlock_frameCount]
  case cursor => rw [hcapture]; exact captureBlock_cursor hb hchs hlen hcap
  case written =>
    obtain ⟨hw, hother⟩ := captureBlock_written hb hlen hruns (hcapture ▸ hon) hcap
    refine ⟨hw, fun i hi => ?_⟩
    rw [← hother i hi, memRead, memRead, hN]
    rfl

end Sys2Proof.Machine
end

section
/-! PROOFS. Infinities and NaNs through a channel: what an operand that is not finite does to a sum, a difference and a
product, and so to a stage, to the cascade and to the envelopes (40_filter_stage.md rules R155 to R157;
41_channel_pipeline.md rules R193, R195; 70_reset_and_hazards.md rule R357). -/

namespace Sys2Proof

/-! ### Operands that are not finite -/

theorem F64.isFinite_of_isNaN {x : F64} (h : x.isNaN = true) : x.isFinite = false := by
  simp only [F64.isNaN, F64.isFinite, decide_eq_true_eq, decide_eq_false_iff_not] at h ⊢
  omega

@[simp] theorem F64.isFinite_inf (s : Bool) : (F64.inf s).isFinite = false := by cases s <;> decide

@[simp] theorem F64.isFinite_nanOf (src : NanSource) (a b : F64) : (F64.nanOf src a b).isFinite = false :=
  F64.isFinite_of_isNaN (F64.isNaN_nanOf src a b)

/-- What is not finite is a NaN or an infinity. -/
theorem F64.nan_or_inf_of_not_finite {x : F64} (h : x.isFinite = false) : x.isNaN = true ∨ x.view = .inf x.sign := by
  unfold F64.view
  rw [h]
  cases x.isNaN with
  | true => exact .inl rfl
  | false => exact .inr rfl

theorem F64.isFinite_add_left {a : F64} (b : F64) (h : a.isFinite = false) : (a.add b).isFinite = false := by
  rcases F64.nan_or_inf_of_not_finite h with hn | ha
  · exact F64.isFinite_of_isNaN (F64.isNaN_add_left b hn)
  · cases hb : b.view <;> simp only [F64.add, ha, hb]
    case nan => exact F64.isFinite_nanOf ..
    case inf => split_ifs <;> simp only [F64.isFinite_inf, F64.isFinite_nanOf]
    case fin => exact F64.isFinite_inf _

theorem F64.isFinite_add_right (a : F64) {b : F64} (h : b.isFinite = false) : (a.add b).isFinite = false := by
  rcases F64.nan_or_inf_of_not_finite h with hn | hb
  · exact F64.isFinite_of_isNaN (F64.isNaN_add_right a hn)
  · cases ha : a.view <;> simp only [F64.add, ha, hb]
    case nan => exact F64.isFinite_nanOf ..
    case inf => split_ifs <;> simp only [F64.isFinite_inf, F64.isFinite_nanOf]
    case fin => exact F64.isFinite_inf _

theorem F64.isFinite_sub_left {a : F64} (b : F64) (h : a.isFinite = false) : (a.sub b).isFinite = false := by
  rcases F64.nan_or_inf_of_not_finite h with hn | ha
  · exact F64.isFinite_of_isNaN (F64.isNaN_sub_left b hn)
  · cases hb : b.view <;> simp only [F64.sub, ha, hb]
    case nan => exact F64.isFinite_nanOf ..
    case inf => split_ifs <;> simp only [F64.isFinite_inf, F64.isFinite_nanOf]
    case fin => exact F64.isFinite_inf _

theorem F64.isFinite_sub_right (a : F64) {b : F64} (h : b.isFinite = false) : (a.sub b).isFinite = false := by
  rcases F64.nan_or_inf_of_not_finite h with hn | hb
  · exact F64.isFinite_of_isNaN (F64.isNaN_sub_right a hn)
  · cases ha : a.view <;> simp only [F64.sub, ha, hb]
    case nan => exact F64.isFinite_nanOf ..
    case inf => split_ifs <;> simp only [F64.isFinite_inf, F64.isFinite_nanOf]
    case fin => exact F64.isFinite_inf _

theorem F64.isFinite_mul_left {a : F64} (b : F64) (h : a.isFinite = false) : (a.mul b).isFinite = false := by
  rcases F64.nan_or_inf_of_not_finite h with hn | ha
  · exact F64.isFinite_of_isNaN (F64.isNaN_mul_left b hn)
  · cases hb : b.view <;> simp only [F64.mul, ha, hb]
    case nan => exact F64.isFinite_nanOf ..
    case inf => exact F64.isFinite_inf _
    case fin => split_ifs <;> simp only [F64.isFinite_inf, F64.isFinite_nanOf]

theorem F64.isFinite_mul_right (a : F64) {b : F64} (h : b.isFinite = false) : (a.mul b).isFinite = false := by
  rcases F64.nan_or_inf_of_not_finite h with hn | hb
  · exact F64.isFinite_of_isNaN (F64.isNaN_mul_right a hn)
  · cases ha : a.view <;> simp only [F64.mul, ha, hb]
    case nan => exact F64.isFinite_nanOf ..
    case inf => exact F64.isFinite_inf _
    case fin => split_ifs <;> simp only [F64.isFinite_inf, F64.isFinite_nanOf]

end Sys2Proof

namespace Sys2Proof.Machine

/-! ### One stage (40_filter_stage.md rules R155 to R157) -/

/-- An input or a coefficient that is not finite makes its product and so the whole sum not finite. -/
theorem isFinite_directForm {st : FilterStageState} {x : F64}
    (h : x.isFinite = false ∨ st.a0.isFinite = false ∨ st.a1.isFinite = false ∨ st.a2.isFinite = false ∨
      st.b1.isFinite = false ∨ st.b2.isFinite = false) : (directForm st x).isFinite = false := by
  unfold directForm
  rcases h with h | h | h | h | h | h
  · exact F64.isFinite_sub_left _ (F64.isFinite_sub_left _ (F64.isFinite_add_left _ (F64.isFinite_add_left _
      (F64.isFinite_mul_right _ h))))
  · exact F64.isFinite_sub_left _ (F64.isFinite_sub_left _ (F64.isFinite_add_left _ (F64.isFinite_add_left _
      (F64.isFinite_mul_left _ h))))
  · exact F64.isFinite_sub_left _ (F64.isFinite_sub_left _ (F64.isFinite_add_left _ (F64.isFinite_add_right _
      (F64.isFinite_mul_left _ h))))
  · exact F64.isFinite_sub_left _ (F64.isFinite_sub_left _ (F64.isFinite_add_right _ (F64.isFinite_mul_left _ h)))
  · exact F64.isFinite_sub_left _ (F64.isFinite_sub_right _ (F64.isFinite_mul_left _ h))
  · exact F64.isFinite_sub_right _ (F64.isFinite_mul_left _ h)

theorem finiteHistory_iff (st : FilterStageState) :
    st.finiteHistory = true ↔
      st.x1.isFinite = true ∧ st.x2.isFinite = true ∧ st.y1.isFinite = true ∧ st.y2.isFinite = true := by
  simp only [FilterStageState.finiteHistory, Bool.and_eq_true, and_assoc]

theorem finiteHistory_eq_false_iff (st : FilterStageState) :
    st.finiteHistory = false ↔
      st.x1.isFinite = false ∨ st.x2.isFinite = false ∨ st.y1.isFinite = false ∨ st.y2.isFinite = false := by
  simp only [FilterStageState.finiteHistory, Bool.and_eq_false_iff, or_assoc]

/-- A stage's output is not finite where the sum is not: it is the sum or a NaN. -/
theorem isFinite_stageOutput {st : FilterStageState} {x : F64} (h : (directForm st x).isFinite = false) :
    (stageOutput st x).isFinite = false := by
  cases hf : st.finiteHistory with
  | true => rwa [stageOutput_of_finiteHistory hf]
  | false => exact F64.isFinite_of_isNaN (isNaN_stageOutput hf x)

theorem processStage_fst (st : FilterStageState) (x : F64) :
    (processStage st x).1 = { st with x1 := x, x2 := st.x1, y1 := stageOutput st x, y2 := st.y1 } := rfl

/-- Settles O39: the output with a finite history and without one, and the products that an operand that is not finite
spoils. -/
theorem stageFollowsDirectFormOne : Obligations.StageFollowsDirectFormOne := by
  intro st x y
  refine ⟨processStage_fst st x, fun h => ?_, fun h => ?_, fun h => ?_⟩
  · exact stageOutput_of_finiteHistory ((finiteHistory_iff st).2 h) x
  · exact isNaN_stageOutput ((finiteHistory_eq_false_iff st).2 h) x
  · exact isFinite_stageOutput (isFinite_directForm h)

/-! ### The cascade with an infinity or a NaN in a history -/

/-- The cascade hands a NaN on from stage to stage. -/
theorem isNaN_cascade_of_input (stages : List FilterStageState) {v : F64} (h : v.isNaN = true) :
    (cascade stages v).2.isNaN = true := by
  induction stages generalizing v with
  | nil => exact h
  | cons st rest ih => exact ih (isNaN_stageOutput_of_input st h)

/-- A stage whose history is not finite makes the cascade's output a NaN. -/
theorem isNaN_cascade {stages : List FilterStageState} (v : F64) (h : ∃ st ∈ stages, st.finiteHistory = false) :
    (cascade stages v).2.isNaN = true := by
  obtain ⟨st, hst, hf⟩ := h
  induction stages generalizing v with
  | nil => exact absurd hst List.not_mem_nil
  | cons first rest ih =>
    rw [cascade_cons]
    rcases List.mem_cons.1 hst with rfl | hrest
    · exact isNaN_cascade_of_input rest (isNaN_stageOutput hf v)
    · exact ih _ hrest

/-- Such a stage holds a NaN as its last output afterwards. -/
theorem cascade_leaves_nan {stages : List FilterStageState} (v : F64) (h : ∃ st ∈ stages, st.finiteHistory = false) :
    ∃ st ∈ (cascade stages v).1, st.y1.isNaN = true := by
  obtain ⟨st, hst, hf⟩ := h
  induction stages generalizing v with
  | nil => exact absurd hst List.not_mem_nil
  | cons first rest ih =>
    rw [cascade_cons]
    rcases List.mem_cons.1 hst with rfl | hrest
    · exact ⟨_, List.mem_cons_self .., isNaN_stageOutput hf v⟩
    · obtain ⟨st', hst', hn⟩ := ih (processStage first v).2 hrest
      exact ⟨st', List.mem_cons_of_mem _ hst', hn⟩

theorem finiteHistory_of_y1_nan {st : FilterStageState} (h : st.y1.isNaN = true) : st.finiteHistory = false :=
  (finiteHistory_eq_false_iff st).2 (.inr (.inr (.inl (F64.isFinite_of_isNaN h))))

theorem exists_not_finiteHistory {stages : List FilterStageState} (h : ∃ st ∈ stages, st.y1.isNaN = true) :
    ∃ st ∈ stages, st.finiteHistory = false := by
  obtain ⟨st, hst, hn⟩ := h
  exact ⟨st, hst, finiteHistory_of_y1_nan hn⟩

/-! ### A channel with such a stage -/

/-- The value a sample feeds to the cascade. -/
theorem processSample_cascade (cfg : ConfigRecord) (ch : ChannelState) (a : F64) :
    ∃ v, (processSample cfg ch a).channel.stages = (cascade ch.stages v).1 ∧
      (processSample cfg ch a).output = clampOutput (cascade ch.stages v).2 := ⟨_, rfl, rfl⟩

theorem processSample_leaves_nan {cfg : ConfigRecord} {ch : ChannelState} (a : F64)
    (h : ∃ st ∈ ch.stages, st.finiteHistory = false) :
    ∃ st ∈ (processSample cfg ch a).channel.stages, st.y1.isNaN = true := by
  obtain ⟨v, hstages, -⟩ := processSample_cascade cfg ch a
  rw [hstages]
  exact cascade_leaves_nan v h

theorem processSample_output_nanOut {cfg : ConfigRecord} {ch : ChannelState} (a : F64)
    (h : ∃ st ∈ ch.stages, st.finiteHistory = false) : (processSample cfg ch a).output = nanOut := by
  obtain ⟨v, -, hout⟩ := processSample_cascade cfg ch a
  rw [hout, clampOutput_of_isNaN (isNaN_cascade v h)]

theorem runChannel_outputs_nanOut (cfg : ConfigRecord) {ch : ChannelState} (xs : List F32)
    (h : ∃ st ∈ ch.stages, st.finiteHistory = false) : ∀ y ∈ (runChannel cfg ch xs).outputs, y = nanOut.narrow := by
  induction xs generalizing ch with
  | nil => exact fun y hy => absurd hy List.not_mem_nil
  | cons x xs ih =>
    intro y hy
    rw [runChannel_cons] at hy
    rcases List.mem_cons.1 hy with rfl | hrest
    · rw [processSample_output_nanOut _ h]
    · exact ih (exists_not_finiteHistory (processSample_leaves_nan _ h)) y hrest

theorem runChannel_keeps_not_finiteHistory (cfg : ConfigRecord) {ch : ChannelState} (xs : List F32)
    (h : ∃ st ∈ ch.stages, st.finiteHistory = false) :
    ∃ st ∈ (runChannel cfg ch xs).channel.stages, st.finiteHistory = false :=
  runChannel_induct (P := fun ch => ∃ st ∈ ch.stages, st.finiteHistory = false) cfg
    (fun _ a h => exists_not_finiteHistory (processSample_leaves_nan a h)) ch xs h

theorem runChannel_leaves_nan (cfg : ConfigRecord) {ch : ChannelState} {xs : List F32} (hne : xs ≠ [])
    (h : ∃ st ∈ ch.stages, st.finiteHistory = false) :
    ∃ st ∈ (runChannel cfg ch xs).channel.stages, st.y1.isNaN = true := by
  cases xs with
  | nil => exact absurd rfl hne
  | cons x xs =>
    exact runChannel_induct (P := fun ch => ∃ st ∈ ch.stages, st.y1.isNaN = true) cfg
      (fun _ a h => processSample_leaves_nan a (exists_not_finiteHistory h)) _ xs (processSample_leaves_nan x.widen h)

theorem finiteHistory_of_sameHistory {st st' : FilterStageState} (h : st.sameHistory st') :
    st'.finiteHistory = st.finiteHistory := by
  obtain ⟨hx1, hx2, hy1, hy2⟩ := h
  simp only [FilterStageState.finiteHistory, hx1, hx2, hy1, hy2]

/-- An update that does not lower the stage count keeps every stage's history. -/
theorem updateChannel_keeps_not_finiteHistory (fs : F64) {cfg : ConfigRecord} {ch : ChannelState}
    (hS : ch.stages.length = ch.S) (hcount : ch.S ≤ stageCount cfg.stages)
    (h : ∃ st ∈ ch.stages, st.finiteHistory = false) :
    ∃ st ∈ (updateChannel fs cfg ch).stages, st.finiteHistory = false := by
  obtain ⟨st, hst, hf⟩ := h
  obtain ⟨k, hk, hget⟩ := List.getElem_of_mem hst
  obtain ⟨st', hst', hsame⟩ := updateChannel_keeps_history fs (c := cfg) (ch := ch) (k := k) (st := st) (by omega)
    (by rw [List.getElem?_eq_getElem hk, hget])
  exact ⟨st', List.mem_of_getElem? hst', (finiteHistory_of_sameHistory hsame).trans hf⟩

/-- Settles O38: such a stage outputs a NaN, the cascade hands it to the clamp, and the stage holds it as its last
output. -/
theorem nonFiniteFilterHistoryPersists : Obligations.NonFiniteFilterHistoryPersists := fun cfg _ _ xs h =>
  ⟨runChannel_outputs_nanOut cfg xs h, fun hne => runChannel_leaves_nan cfg hne h,
    runChannel_keeps_not_finiteHistory cfg xs h,
    fun hS hcount => updateChannel_keeps_not_finiteHistory sampleRate hS hcount h⟩

/-! ### A NaN envelope (41_channel_pipeline.md rules R193, R195) -/

/-- The rectified signal of a sample (rules R189, R190). -/
def rectifiedOf (cfg : ConfigRecord) (modulated : F64) : F64 :=
  blendRectified cfg.blend (halfWaveOf modulated) (diodeOf cfg.drop cfg.vt cfg.diodeGain modulated)

theorem processSample_env (cfg : ConfigRecord) (ch : ChannelState) (a : F64) :
    (processSample cfg ch a).channel.env =
      followEnvelope ch.atkCoef ch.relCoef ch.env (rectifiedOf cfg (processSample cfg ch a).modulated) := rfl

theorem processSample_compEnv (cfg : ConfigRecord) (ch : ChannelState) (a : F64) :
    (processSample cfg ch a).channel.compEnv =
      trackLevel ch.compRelCoef ch.compEnv
        (demodulate cfg.modulationIndex (processSample cfg ch a).channel.env) := rfl

theorem isNaN_onePole_of_old (c : F64) {old : F64} (target : F64) (h : old.isNaN = true) :
    (onePole c old target).isNaN = true := F64.isNaN_add_left _ (F64.isNaN_mul_right c h)

theorem isNaN_followEnvelope (atk rel : F64) {env : F64} (rectified : F64) (h : env.isNaN = true) :
    (followEnvelope atk rel env rectified).isNaN = true := isNaN_onePole_of_old _ _ h

/-- No level is above a NaN, so the tracker takes its one-pole branch. -/
theorem isNaN_trackLevel (coef : F64) {compEnv : F64} (dem : F64) (h : compEnv.isNaN = true) :
    (trackLevel coef compEnv dem).isNaN = true := by
  simp only [trackLevel, F64.gt_of_nan_right _ h, Bool.false_eq_true, if_false]
  exact isNaN_onePole_of_old _ _ h

/-- Settles O36: the one-pole form hands the NaN on, and an update writes no envelope. -/
theorem naNEnvelopePersists : Obligations.NaNEnvelopePersists := fun cfg _ ch xs h =>
  ⟨runChannel_induct (P := fun ch => ch.env.isNaN = true) cfg
    (fun _ _ h => by rw [processSample_env]; exact isNaN_followEnvelope _ _ _ h) ch xs h, h⟩

theorem compressorGain_of_nan (threshold ratio : F64) {compEnv : F64} (h : compEnv.isNaN = true) :
    compressorGain threshold ratio compEnv = F64.one := by
  rw [compressorGain, F64.gt_of_nan_left _ h, if_neg Bool.false_ne_true]

/-- Settles O37: the tracker hands the NaN on, and a NaN is above no threshold. -/
theorem naNCompressorEnvelopeBypasses : Obligations.NaNCompressorEnvelopeBypasses := by
  intro cfg ch xs h
  have hnan : (runChannel cfg ch xs).channel.compEnv.isNaN = true :=
    runChannel_induct (P := fun ch => ch.compEnv.isNaN = true) cfg
      (fun _ _ h => by rw [processSample_compEnv]; exact isNaN_trackLevel _ _ h) ch xs h
  exact ⟨hnan, compressorGain_of_nan _ _ hnan⟩

/-! ### Updating twice (20_memory.md rule R97) -/

/-- A resize to the count held changes nothing. -/
theorem resizeStages_self (ch : ChannelState) : resizeStages ch ch.S = ch := by
  simp only [resizeStages, Nat.lt_irrefl, if_false]

theorem updateCoefficients_twice (fs fc q : F64) (st : FilterStageState) :
    updateCoefficients fs fc q (updateCoefficients fs fc q st) = updateCoefficients fs fc q st := rfl

/-- Settles O45: the second update finds its own derived fields, stage count and coefficients. -/
theorem updateTwiceIsUpdateOnce : Obligations.UpdateTwiceIsUpdateOnce := by
  intro c ch _
  have hresize : resizeStages (updateChannel sampleRate c ch) (stageCount c.stages) = updateChannel sampleRate c ch :=
    resizeStages_self (updateChannel sampleRate c ch)
  have hstages : (updateChannel sampleRate c (updateChannel sampleRate c ch)).stages =
      (updateChannel sampleRate c ch).stages := by
    rw [updateChannel_stages, hresize, updateChannel_stages, List.map_map]
    exact List.map_congr_left fun st _ => updateCoefficients_twice _ _ _ st
  exact congrArg (fun stages => { updateChannel sampleRate c ch with stages := stages }) hstages

end Sys2Proof.Machine
end

section
/-! PROOFS. Rounding to binary64 is to nearest, ties to even, and the arithmetic of finite numbers rounds the exact result
once (00_scope.md rules R13 to R15, R17). -/

namespace Sys2Proof

/-! ### The rounded quotient -/

/-- The rounded quotient is within one half of the exact one, and even where it is exactly one half away. -/
theorem roundNearestEven_nearest (num : Nat) {den : Nat} (hd : 0 < den) :
    2 * num ≤ 2 * (roundNearestEven num den * den) + den ∧ 2 * (roundNearestEven num den * den) ≤ 2 * num + den ∧
    (2 * num = 2 * (roundNearestEven num den * den) + den ∨ 2 * (roundNearestEven num den * den) = 2 * num + den →
      roundNearestEven num den % 2 = 0) := by
  have hdm : num / den * den + num % den = num := Nat.div_add_mod' num den
  have hr : num % den < den := Nat.mod_lt _ hd
  simp only [roundNearestEven]
  generalize num / den = quo at *
  have hsucc : (quo + 1) * den = quo * den + den := Nat.succ_mul quo den
  split_ifs with hlow hhigh
  · omega
  · omega
  · rcases Nat.mod_two_eq_zero_or_one quo with heven | hodd
    · rw [heven, Nat.add_zero]
      omega
    · rw [hodd]
      omega

/-- What is at least a whole number rounds to at least that number. -/
theorem le_roundNearestEven {num den q : Nat} (hd : 0 < den) (h : q * den ≤ num) : q ≤ roundNearestEven num den := by
  obtain ⟨hnear, -, -⟩ := roundNearestEven_nearest num hd
  by_contra hlt
  have hle : (roundNearestEven num den + 1) * den ≤ q * den := Nat.mul_le_mul_right _ (by omega)
  rw [Nat.succ_mul] at hle
  omega

/-! ### Values of a format -/

/-- A significand of at most `p + 1` bits, `k` binades up: a full one is the next binade's smallest. -/
theorem unitsOfMagnitude_binade {p k n : Nat} (hn : n ≤ 2 ^ (p + 1)) (hk : k = 0 ∨ 2 ^ p ≤ n) :
    unitsOfMagnitude p (k * 2 ^ p + n) = n * 2 ^ k := by
  have hpos : 0 < 2 ^ p := Nat.two_pow_pos p
  have hdouble : 2 ^ (p + 1) = 2 ^ p + 2 ^ p := by ring
  rcases Nat.lt_or_ge n (2 ^ p) with hlt | hge
  · obtain rfl : k = 0 := hk.resolve_right (Nat.not_le.2 hlt)
    rw [Nat.zero_mul, Nat.zero_add, unitsOfMagnitude_subnormal hlt, Nat.pow_zero, Nat.mul_one]
  · obtain ⟨f, rfl⟩ := Nat.exists_eq_add_of_le hge
    rcases Nat.lt_or_ge f (2 ^ p) with hf | hf
    · have hsplit : k * 2 ^ p + (2 ^ p + f) = (k + 1) * 2 ^ p + f := by ring
      rw [hsplit, unitsOfMagnitude_normal p k hf]
    · obtain rfl : f = 2 ^ p := by omega
      have hsplit : k * 2 ^ p + (2 ^ p + 2 ^ p) = (k + 1 + 1) * 2 ^ p + 0 := by ring
      rw [hsplit, unitsOfMagnitude_normal p (k + 1) hpos]
      ring

theorem unitsOfMagnitude_injective {p m m' : Nat} (h : unitsOfMagnitude p m = unitsOfMagnitude p m') : m = m' := by
  have h1 := roundMagnitude_units p m Nat.one_pos
  rwa [h, roundMagnitude_units p m' Nat.one_pos, eq_comm] at h1

theorem unitsOfMagnitude_lt_iff {p m m' : Nat} : unitsOfMagnitude p m < unitsOfMagnitude p m' ↔ m < m' := by
  constructor
  · exact fun h => Nat.lt_of_not_le fun hle => absurd (unitsOfMagnitude_mono hle) (Nat.not_le.2 h)
  · exact fun h => lt_of_le_of_ne (unitsOfMagnitude_mono h.le) fun he => absurd (unitsOfMagnitude_injective he) h.ne

/-- The next value above is at least one unit of the binade away. -/
theorem units_succ_le {p k n m : Nat} (hn : n ≤ 2 ^ (p + 1)) (hk : k = 0 ∨ 2 ^ p ≤ n) (hm : k * 2 ^ p + n < m) :
    (n + 1) * 2 ^ k ≤ unitsOfMagnitude p m := by
  have hdouble : 2 ^ (p + 1) = 2 ^ p + 2 ^ p := by ring
  have hpos : 0 < 2 ^ p := Nat.two_pow_pos p
  refine le_trans ?_ (unitsOfMagnitude_mono (Nat.succ_le_of_lt hm))
  rcases Nat.lt_or_ge n (2 ^ (p + 1)) with hlt | hge
  · have hnext : (k * 2 ^ p + n).succ = k * 2 ^ p + (n + 1) := rfl
    rw [hnext, unitsOfMagnitude_binade hlt (hk.imp_right Nat.le_succ_of_le)]
  · obtain rfl : n = 2 ^ (p + 1) := le_antisymm hn hge
    have hnext : (k * 2 ^ p + 2 ^ (p + 1)).succ = (k + 1) * 2 ^ p + (2 ^ p + 1) := by
      rw [hdouble, Nat.succ_eq_add_one]
      ring
    rw [hnext, unitsOfMagnitude_binade (by omega) (.inr (Nat.le_succ _)), hdouble, Nat.pow_succ 2 k, ← Nat.mul_assoc,
      Nat.mul_right_comm]
    exact Nat.mul_le_mul_right _ (by omega)

/-- The next value below is at least one unit of the binade away, unless the value is the binade's smallest. -/
theorem units_le_pred {p k n m : Nat} (hn : n ≤ 2 ^ (p + 1)) (hk : k = 0 ∨ 2 ^ p < n) (hm : m < k * 2 ^ p + n)
    (hpos : 0 < n) : unitsOfMagnitude p m ≤ (n - 1) * 2 ^ k := by
  have hle : m ≤ k * 2 ^ p + (n - 1) := by omega
  have hval : unitsOfMagnitude p (k * 2 ^ p + (n - 1)) = (n - 1) * 2 ^ k :=
    unitsOfMagnitude_binade (by omega) (hk.imp_right Nat.le_sub_one_of_lt)
  exact hval ▸ unitsOfMagnitude_mono hle

/-! ### The rounded magnitude is the nearest one -/

/-- The distance of `num / den` from a number of units, times `den`. -/
def unitsDistance (num den units : Nat) : Nat := ((num : Int) - (units * den : Nat)).natAbs

/-- What rounding to a format makes of `num / den`: a significand `n` in units of `2 ^ k`, the nearest one, and unless the
units are the smallest, `num / den` is not below the significand's smallest value. -/
theorem roundMagnitude_significand (p num : Nat) {den : Nat} (hd : 0 < den) :
    ∃ k n, roundMagnitude p num den = k * 2 ^ p + n ∧ n = roundNearestEven num (den * 2 ^ k) ∧
      n ≤ 2 ^ (p + 1) ∧ (k = 0 ∨ 2 ^ p ≤ n ∧ 2 ^ p * (den * 2 ^ k) ≤ num) := by
  refine ⟨Nat.log2 (num / den) - p, _, rfl, rfl, ?_, ?_⟩
  all_goals
    generalize hL : Nat.log2 (num / den) = L
  · refine roundNearestEven_le (by positivity) ?_
    have hquo : num / den + 1 ≤ 2 ^ (L + 1) := hL ▸ Nat.lt_log2_self
    have hbits : 2 ^ (L + 1) ≤ 2 ^ (p + 1 + (L - p)) := Nat.pow_le_pow_right Nat.two_pos (by omega)
    calc num ≤ (num / den + 1) * den := by
          have := Nat.div_add_mod' num den
          have := Nat.mod_lt num hd
          rw [Nat.succ_mul]
          omega
      _ ≤ 2 ^ (p + 1 + (L - p)) * den := Nat.mul_le_mul_right _ (hquo.trans hbits)
      _ = 2 ^ (p + 1) * (den * 2 ^ (L - p)) := by rw [Nat.pow_add]; ring
  · rcases Nat.eq_zero_or_pos (L - p) with hk | hk
    · exact .inl hk
    · have hquo : 2 ^ L ≤ num / den := by
        have hne : num / den ≠ 0 := fun h0 => by simp [h0] at hL; omega
        exact (Nat.le_log2 hne).1 hL.ge
      have hnum : 2 ^ p * (den * 2 ^ (L - p)) ≤ num := by
        calc 2 ^ p * (den * 2 ^ (L - p)) = 2 ^ (p + (L - p)) * den := by rw [Nat.pow_add]; ring
          _ = 2 ^ L * den := by rw [Nat.add_sub_cancel' (by omega)]
          _ ≤ num / den * den := Nat.mul_le_mul_right _ hquo
          _ ≤ num := Nat.div_mul_le_self num den
      exact .inr ⟨le_roundNearestEven (by positivity) hnum, hnum⟩

/-- No other value of the format is nearer to `num / den` than the rounded one, and where another is as near the rounded
magnitude is even. -/
theorem roundMagnitude_nearest {p num den m : Nat} (hp : 0 < p) (hd : 0 < den) (hne : m ≠ roundMagnitude p num den) :
    unitsDistance num den (unitsOfMagnitude p (roundMagnitude p num den)) ≤
        unitsDistance num den (unitsOfMagnitude p m) ∧
      (unitsDistance num den (unitsOfMagnitude p (roundMagnitude p num den)) =
        unitsDistance num den (unitsOfMagnitude p m) → roundMagnitude p num den % 2 = 0) := by
  obtain ⟨k, n, hM, hn, hmax, hk⟩ := roundMagnitude_significand p num hd
  obtain ⟨hlow, hhigh, htie⟩ := roundNearestEven_nearest num (den := den * 2 ^ k) (by positivity)
  rw [← hn] at hlow hhigh htie
  rw [hM] at hne ⊢
  have hvalue : unitsOfMagnitude p (k * 2 ^ p + n) = n * 2 ^ k := unitsOfMagnitude_binade hmax (hk.imp_right And.left)
  have hunits : unitsOfMagnitude p (k * 2 ^ p + n) * den = n * (den * 2 ^ k) := by rw [hvalue]; ring
  have heven : n % 2 = 0 → (k * 2 ^ p + n) % 2 = 0 := fun h => by
    obtain ⟨q, rfl⟩ := Nat.exists_eq_succ_of_ne_zero hp.ne'
    rw [Nat.pow_succ, ← Nat.mul_assoc]
    omega
  simp only [unitsDistance, hunits]
  rcases Nat.lt_or_gt_of_ne hne with hbelow | habove
  · by_cases hspace : k = 0 ∨ 2 ^ p < n
    · have hpos : 0 < n := by
        rcases hspace with rfl | h
        · omega
        · exact Nat.zero_lt_of_lt h
      have hother : unitsOfMagnitude p m * den ≤ (n - 1) * (den * 2 ^ k) := by
        calc unitsOfMagnitude p m * den ≤ (n - 1) * 2 ^ k * den :=
              Nat.mul_le_mul_right _ (units_le_pred hmax hspace hbelow hpos)
          _ = (n - 1) * (den * 2 ^ k) := by ring
      have hstep : (n - 1) * (den * 2 ^ k) + den * 2 ^ k = n * (den * 2 ^ k) := by
        rw [← Nat.succ_mul, Nat.succ_eq_add_one, Nat.sub_add_cancel hpos]
      omega
    · obtain ⟨hge, hnum⟩ := hk.resolve_left fun h => hspace (.inl h)
      obtain rfl : n = 2 ^ p := by omega
      have hother : unitsOfMagnitude p m * den < 2 ^ p * (den * 2 ^ k) := by
        rw [← hunits]
        exact Nat.mul_lt_mul_of_pos_right (unitsOfMagnitude_lt_iff.2 hbelow) hd
      omega
  · have hother : n * (den * 2 ^ k) + den * 2 ^ k ≤ unitsOfMagnitude p m * den := by
      calc n * (den * 2 ^ k) + den * 2 ^ k = (n + 1) * 2 ^ k * den := by ring
        _ ≤ unitsOfMagnitude p m * den :=
          Nat.mul_le_mul_right _ (units_succ_le hmax (hk.imp_right And.left) habove)
    omega

/-- What is at least a value of the format rounds to at least that value. -/
theorem le_roundMagnitude {p num den m : Nat} (hp : 0 < p) (hd : 0 < den) (h : unitsOfMagnitude p m * den ≤ num) :
    m ≤ roundMagnitude p num den := by
  by_contra hlt
  have hlt := Nat.not_le.1 hlt
  obtain ⟨hnear, -⟩ := roundMagnitude_nearest hp hd hlt.ne'
  have hunits := Nat.mul_lt_mul_of_pos_right (unitsOfMagnitude_lt_iff (p := p).2 hlt) hd
  simp only [unitsDistance] at hnear
  omega

/-- Above an odd magnitude the format rounds up from the midpoint on, the midpoint included. -/
theorem succ_le_roundMagnitude_iff {p num den m : Nat} (hp : 0 < p) (hd : 0 < den) (hodd : m % 2 = 1) :
    m + 1 ≤ roundMagnitude p num den ↔
      (unitsOfMagnitude p m + unitsOfMagnitude p (m + 1)) * den ≤ 2 * num := by
  have hgap := Nat.mul_lt_mul_of_pos_right (unitsOfMagnitude_lt_iff (p := p).2 (Nat.lt_add_one m)) hd
  rw [Nat.add_mul]
  constructor
  · intro h
    obtain ⟨hnear, -⟩ := roundMagnitude_nearest (num := num) (m := m) hp hd (by omega)
    have hmono := Nat.mul_le_mul_right den (unitsOfMagnitude_mono (p := p) h)
    simp only [unitsDistance] at hnear
    omega
  · intro h
    by_contra hlt
    obtain ⟨hnear, htie⟩ := roundMagnitude_nearest (num := num) (m := m + 1) hp hd (by omega)
    have hle : roundMagnitude p num den ≤ m := by omega
    have hmono := Nat.mul_le_mul_right den (unitsOfMagnitude_mono (p := p) hle)
    simp only [unitsDistance] at hnear htie
    rcases hle.lt_or_eq with hless | heq
    · have hstrict := Nat.mul_lt_mul_of_pos_right (unitsOfMagnitude_lt_iff (p := p).2 hless) hd
      omega
    · rw [heq] at hnear htie
      have := htie (by omega)
      omega

/-! ### Packed numbers -/

theorem F64.magnitude_inf (neg : Bool) : (F64.inf neg).magnitude = infMagnitude := F64.magnitude_ofParts neg infMagnitude_lt

theorem F64.isFinite_round_iff (neg : Bool) (num den : Nat) :
    (F64.round neg num den).isFinite = true ↔ roundMagnitude 52 num den < infMagnitude := by
  simp only [F64.isFinite, F64.magnitude_round, decide_eq_true_eq, min_lt_iff, Nat.lt_irrefl, or_false]

theorem F64.round_eq_inf_iff (neg : Bool) (num den : Nat) :
    F64.round neg num den = F64.inf neg ↔ infMagnitude ≤ roundMagnitude 52 num den := by
  constructor
  · intro h
    have hmag := congrArg F64.magnitude h
    rw [F64.magnitude_round, F64.magnitude_inf] at hmag
    exact min_eq_right_iff.1 hmag
  · intro h
    rw [F64.round, Nat.min_eq_right h, F64.inf]

theorem F64.round_finite_or_inf (neg : Bool) (num den : Nat) :
    (F64.round neg num den).isFinite = true ∨ F64.round neg num den = F64.inf neg := by
  rw [F64.isFinite_round_iff, F64.round_eq_inf_iff]
  exact Nat.lt_or_ge _ _

theorem F64.magnitude_round_of_finite {neg : Bool} {num den : Nat} (h : (F64.round neg num den).isFinite = true) :
    (F64.round neg num den).magnitude = roundMagnitude 52 num den := by
  rw [F64.magnitude_round, Nat.min_eq_left ((F64.isFinite_round_iff ..).1 h).le]

theorem F64.unitsAbs_round_of_finite {neg : Bool} {num den : Nat} (h : (F64.round neg num den).isFinite = true) :
    (F64.round neg num den).unitsAbs = unitsOfMagnitude 52 (roundMagnitude 52 num den) := by
  rw [F64.unitsAbs, F64.magnitude_round_of_finite h]

/-- Twice the midpoint between the largest finite number and the infinity, in units. -/
theorem units_last_add_units_inf :
    unitsOfMagnitude 52 (infMagnitude - 1) + unitsOfMagnitude 52 (infMagnitude - 1 + 1) =
      2 * ((2 ^ 54 - 1) * 2 ^ 2044) := by decide +kernel

/-- A number rounds to the infinity from half a unit in the last place above the largest finite number on. -/
theorem F64.round_eq_inf_iff_ge (neg : Bool) (num : Nat) {den : Nat} (hd : 0 < den) :
    F64.round neg num den = F64.inf neg ↔ (2 ^ 54 - 1) * 2 ^ 2044 * den ≤ num := by
  have hodd : (infMagnitude - 1) % 2 = 1 := by decide
  have hsucc : infMagnitude - 1 + 1 = infMagnitude := by decide
  have h := succ_le_roundMagnitude_iff (p := 52) (num := num) (by decide) hd hodd
  rw [units_last_add_units_inf, hsucc] at h
  rw [F64.round_eq_inf_iff, h]
  generalize (2 ^ 54 - 1) * 2 ^ 2044 = half
  rw [Nat.mul_assoc]
  omega

/-- No finite number is nearer to the exact value than the rounded one, and where one of another magnitude is as near the
rounded one's fraction is even. -/
theorem F64.round_nearest {neg : Bool} {num den : Nat} (hd : 0 < den) (h : (F64.round neg num den).isFinite = true)
    {y : F64} (hne : y.unitsAbs ≠ (F64.round neg num den).unitsAbs) :
    unitsDistance num den (F64.round neg num den).unitsAbs ≤ unitsDistance num den y.unitsAbs ∧
      (unitsDistance num den (F64.round neg num den).unitsAbs = unitsDistance num den y.unitsAbs →
        (F64.round neg num den).magnitude % 2 = 0) := by
  rw [F64.unitsAbs_round_of_finite h] at hne ⊢
  rw [F64.magnitude_round_of_finite h]
  exact roundMagnitude_nearest (by decide) hd fun hm => hne (by rw [F64.unitsAbs, hm])

/-! ### What a number stands for (rule R13) -/

theorem unitsPerOne_eq : unitsPerOne = 2 ^ 1074 := by decide +kernel

/-- The exponent field is what is left of the magnitude above the 52 bits of the fraction field. -/
theorem F64.magnitude_fields (x : F64) :
    x.magnitude / 2 ^ 52 = (x.bits.extractLsb' 52 11).toNat ∧ x.magnitude % 2 ^ 52 = (x.bits.extractLsb' 0 52).toNat := by
  have hb := x.bits.isLt
  simp only [F64.magnitude, BitVec.extractLsb'_toNat, Nat.shiftRight_eq_div_pow]
  omega

theorem F64.unitsAbs_eq_fields (x : F64) :
    x.unitsAbs =
      let expo := (x.bits.extractLsb' 52 11).toNat
      let frac := (x.bits.extractLsb' 0 52).toNat
      if expo = 0 then frac else (2 ^ 52 + frac) * 2 ^ (expo - 1) := by
  obtain ⟨hexpo, hfrac⟩ := F64.magnitude_fields x
  rw [← hexpo, ← hfrac]
  rfl

/-! ### The operations on finite numbers -/

/-- The signed sum is the sum of the values. -/
theorem F64.add_of_finite_units {a b : F64} (ha : a.isFinite = true) (hb : b.isFinite = true) :
    a.add b = if a.units + b.units = 0 then F64.zero (a.sign && b.sign)
      else F64.round (a.units + b.units < 0) (a.units + b.units).natAbs 1 := F64.add_of_finite ha hb

theorem F64.sub_of_finite_units {a b : F64} (ha : a.isFinite = true) (hb : b.isFinite = true) :
    a.sub b = if a.units - b.units = 0 then F64.zero (a.sign && !b.sign)
      else F64.round (a.units - b.units < 0) (a.units - b.units).natAbs 1 := by
  have hneg : (if (!b.sign) = true then -(b.unitsAbs : Int) else b.unitsAbs) = -b.units := by
    cases hs : b.sign <;> simp [F64.units, hs]
  rw [F64.sub_of_finite ha hb, F64.addUnits, hneg]
  rfl

theorem F64.div_of_finite {a b : F64} (ha : a.isFinite = true) (hb : b.isFinite = true) (h0 : b.unitsAbs ≠ 0) :
    a.div b = F64.round (a.sign ^^ b.sign) (a.unitsAbs * unitsPerOne) b.unitsAbs := by
  simp only [F64.div, F64.view_of_finite ha, F64.view_of_finite hb, if_neg h0]

/-- Settles O52: the fields of a number, the rounded quotient, the rounding to binary64 and the four operations, each by
its own law. -/
theorem roundingIsToNearestEven : Obligations.RoundingIsToNearestEven := by
  refine ⟨⟨unitsPerOne_eq, F64.unitsAbs_eq_fields⟩, fun num _ hd => roundNearestEven_nearest num hd, ?rounding, ?operations⟩
  case rounding =>
    intro neg num den hd r distance
    refine ⟨F64.sign_round .., F64.round_eq_inf_iff_ge neg num hd, F64.round_finite_or_inf .., fun hfin y _ hne => ?_⟩
    exact F64.round_nearest hd hfin hne
  case operations =>
    exact fun a b ha hb => ⟨F64.add_of_finite_units ha hb, F64.sub_of_finite_units ha hb, F64.mul_of_finite ha hb,
      F64.div_of_finite ha hb⟩

/-! ### Values that are kept exactly -/

theorem mul_two_pow_lt {a p k q : Nat} (ha : a < 2 ^ p) (h : p + k ≤ q) : a * 2 ^ k < 2 ^ q := by
  calc a * 2 ^ k < 2 ^ p * 2 ^ k := Nat.mul_lt_mul_of_pos_right ha (Nat.two_pow_pos k)
    _ = 2 ^ (p + k) := by rw [Nat.pow_add]
    _ ≤ 2 ^ q := Nat.pow_le_pow_right Nat.two_pos h

theorem units_inf_eq : (F64.inf false).unitsAbs = 2 ^ 2098 := by decide +kernel

/-- The rounding of a significand of at most 53 bits, below the infinity's value, is exact. -/
theorem F64.round_exact (neg : Bool) {a k den : Nat} (ha : a < 2 ^ 53) (hmax : a * 2 ^ k < 2 ^ 2098) (hd : 0 < den) :
    (F64.round neg (a * 2 ^ k * den) den).isFinite = true ∧ (F64.round neg (a * 2 ^ k * den) den).sign = neg ∧
      (F64.round neg (a * 2 ^ k * den) den).unitsAbs = a * 2 ^ k := by
  obtain ⟨m, hm⟩ := representable 52 k ha
  have hlt : m < infMagnitude := by
    have hinf : (F64.inf false).unitsAbs = unitsOfMagnitude 52 infMagnitude := F64.unitsAbs_ofParts false infMagnitude_lt
    rw [← hm, ← units_inf_eq, hinf] at hmax
    exact unitsOfMagnitude_lt_iff.1 hmax
  have hround : roundMagnitude 52 (a * 2 ^ k * den) den = m := by rw [← hm, roundMagnitude_units 52 m hd]
  have hfin : (F64.round neg (a * 2 ^ k * den) den).isFinite = true := by rwa [F64.isFinite_round_iff, hround]
  exact ⟨hfin, F64.sign_round .., by rw [F64.unitsAbs_round_of_finite hfin, hround, hm]⟩

theorem F64.round_exact_one (neg : Bool) {a k : Nat} (ha : a < 2 ^ 53) (hmax : a * 2 ^ k < 2 ^ 2098) :
    (F64.round neg (a * 2 ^ k) 1).isFinite = true ∧ (F64.round neg (a * 2 ^ k) 1).sign = neg ∧
      (F64.round neg (a * 2 ^ k) 1).unitsAbs = a * 2 ^ k := by
  have h := F64.round_exact neg ha hmax Nat.one_pos
  rwa [Nat.mul_one] at h

/-- A number is a significand of at most 53 bits times a power of two. -/
theorem F64.unitsAbs_form (x : F64) : ∃ a k, a < 2 ^ 53 ∧ x.unitsAbs = a * 2 ^ k := by
  obtain ⟨a, k, ha, hx, -⟩ := unitsOfMagnitude_form 52 x.magnitude
  exact ⟨a, k, ha, hx⟩

theorem F64.unitsAbs_lt_of_finite {x : F64} (h : x.isFinite = true) : x.unitsAbs < 2 ^ 2098 := by
  rw [← units_inf_eq]
  exact F64.unitsAbs_lt_of_isFinite h

theorem F64.ofNat_eq (n : Nat) : F64.ofNat n = F64.round false (n * unitsPerOne) 1 := by
  unfold F64.ofNat
  rfl

/-- Settles O53: an integer below 2^53 is a significand, and one is a power of two of units. -/
theorem integerConversionIsExact : Obligations.IntegerConversionIsExact := by
  intro n hn
  have hmax : n * 2 ^ 1074 < 2 ^ 2098 := mul_two_pow_lt hn (by decide)
  rw [F64.ofNat_eq, unitsPerOne_eq]
  exact F64.round_exact_one false hn hmax

end Sys2Proof
end

section
/-! PROOFS. Widening, the remainder and the square root (00_scope.md rules R14, R17). -/

namespace Sys2Proof

/-! ### Widening (rule R14) -/

theorem F32.ofParts_sign_magnitude (x : F32) : F32.ofParts x.sign x.magnitude = x := by
  rcases x with ⟨b⟩
  have hb := b.isLt
  simp only [F32.ofParts, F32.sign, F32.magnitude, BitVec.msb_eq_decide, F32.mk.injEq]
  apply BitVec.eq_of_toNat_eq
  rw [BitVec.toNat_ofNat]
  split
  case isTrue h =>
    have := of_decide_eq_true h
    omega
  case isFalse h =>
    have : ¬ 2 ^ 31 ≤ b.toNat := fun hc => h (decide_eq_true hc)
    omega

theorem unitsPerUnit32_eq : unitsPerUnit32 = 2 ^ 925 := by decide +kernel

theorem units_inf32_eq : unitsOfMagnitude 23 infMagnitude32 = 2 ^ 277 := by decide +kernel

theorem F32.widen_of_finite {x : F32} (h : x.magnitude < infMagnitude32) :
    x.widen = F64.round x.sign (x.unitsAbs * unitsPerUnit32) 1 := by
  have hn : x.isNaN = false := decide_eq_false (Nat.not_lt.2 h.le)
  simp only [F32.widen, hn, Bool.false_eq_true, if_false, if_neg h.ne]

/-- A finite sample's value is a value of binary64. -/
theorem F32.widen_exact {x : F32} (h : x.magnitude < infMagnitude32) :
    x.widen.isFinite = true ∧ x.widen.sign = x.sign ∧ x.widen.unitsAbs = x.unitsAbs * unitsPerUnit32 := by
  obtain ⟨a, k, ha, hunits, -⟩ := unitsOfMagnitude_form 23 x.magnitude
  have hvalue : x.unitsAbs * unitsPerUnit32 = a * 2 ^ (k + 925) := by
    rw [F32.unitsAbs, hunits, unitsPerUnit32_eq, Nat.pow_add, Nat.mul_assoc]
  have hmax : a * 2 ^ (k + 925) < 2 ^ 2098 := by
    have hlt : x.unitsAbs < 2 ^ 277 := units_inf32_eq ▸ unitsOfMagnitude_lt_iff.2 h
    rw [← hvalue, unitsPerUnit32_eq]
    exact mul_two_pow_lt hlt (by decide)
  rw [F32.widen_of_finite h, hvalue]
  exact F64.round_exact_one x.sign (ha.trans_le (Nat.pow_le_pow_right Nat.two_pos (by decide))) hmax

/-- Narrowing a sample's value gives the sample back. -/
theorem F32.narrow_of_exact {x : F32} (h : x.magnitude < infMagnitude32) {y : F64} (hfin : y.isFinite = true)
    (hsign : y.sign = x.sign) (hunits : y.unitsAbs = x.unitsAbs * unitsPerUnit32) : y.narrow = x := by
  have hpos : 0 < unitsPerUnit32 := by decide +kernel
  simp only [F64.narrow, F64.view_of_finite hfin, hsign, hunits]
  rw [F32.unitsAbs, roundMagnitude_units 23 _ hpos, Nat.min_eq_left h.le, F32.ofParts_sign_magnitude]

/-- Settles O54: a sample's value is a significand of at most 24 bits, so the widening is exact, and the narrowing of an
exact value is exact. -/
theorem wideningIsExact : Obligations.WideningIsExact := by
  intro x h
  obtain ⟨hfin, hsign, hunits⟩ := F32.widen_exact h
  exact ⟨hfin, hsign, hunits, F32.narrow_of_exact h hfin hsign hunits⟩

/-! ### The remainder (rule R17) -/

theorem F64.fmod_of_finite {x y : F64} (hx : x.isFinite = true) (hy : y.isFinite = true) (h0 : y.unitsAbs ≠ 0) :
    x.fmod y = F64.round x.sign (x.unitsAbs % y.unitsAbs) 1 := by
  simp only [F64.fmod, F64.view_of_finite hx, F64.view_of_finite hy, if_neg h0]

/-- The remainder of two significands, each times a power of two, is a significand times the smaller power. -/
theorem mod_form {a i b j p : Nat} (ha : a < 2 ^ p) (hb : b < 2 ^ p) (h0 : b * 2 ^ j ≠ 0) :
    ∃ c k, c < 2 ^ p ∧ a * 2 ^ i % (b * 2 ^ j) = c * 2 ^ k := by
  rcases Nat.le_total i j with hij | hij
  · obtain ⟨d, rfl⟩ := Nat.exists_eq_add_of_le hij
    have hmod : a * 2 ^ i % (b * 2 ^ (i + d)) = a % (b * 2 ^ d) * 2 ^ i := by
      rw [Nat.pow_add, Nat.mul_comm (2 ^ i), ← Nat.mul_assoc, Nat.mul_mod_mul_right]
    exact ⟨_, i, (Nat.mod_le a _).trans_lt ha, hmod⟩
  · obtain ⟨d, rfl⟩ := Nat.exists_eq_add_of_le hij
    have hmod : a * 2 ^ (j + d) % (b * 2 ^ j) = a * 2 ^ d % b * 2 ^ j := by
      rw [Nat.pow_add, Nat.mul_comm (2 ^ j), ← Nat.mul_assoc, Nat.mul_mod_mul_right]
    exact ⟨_, j, (Nat.mod_lt _ (Nat.pos_of_ne_zero (left_ne_zero_of_mul h0))).trans hb, hmod⟩

theorem F64.fmod_exact {x y : F64} (hx : x.isFinite = true) (hy : y.isFinite = true) (h0 : y.unitsAbs ≠ 0) :
    (x.fmod y).isFinite = true ∧ (x.fmod y).sign = x.sign ∧ (x.fmod y).unitsAbs = x.unitsAbs % y.unitsAbs := by
  obtain ⟨a, i, ha, hax⟩ := x.unitsAbs_form
  obtain ⟨b, j, hb, hby⟩ := y.unitsAbs_form
  obtain ⟨c, k, hc, hmod⟩ := mod_form (i := i) ha hb (hby ▸ h0)
  rw [← hax, ← hby] at hmod
  have hmax : c * 2 ^ k < 2 ^ 2098 := hmod ▸ (Nat.mod_le _ _).trans_lt (F64.unitsAbs_lt_of_finite hx)
  rw [F64.fmod_of_finite hx hy h0, hmod]
  exact F64.round_exact_one x.sign hc hmax

/-- Settles O56: the remainder has no more bits than a significand, so its rounding is exact. -/
theorem remainderIsExact : Obligations.RemainderIsExact := fun _ _ => F64.fmod_exact

/-! ### The integer square root -/

/-- The bits found so far bound the root from below, and the `k` bits still to find from above. -/
theorem sqrtFrom_bounds (n k : Nat) {root : Nat} (hlow : root * root ≤ n)
    (hhigh : n < (root + 2 ^ k) * (root + 2 ^ k)) :
    sqrtFrom n k root * sqrtFrom n k root ≤ n ∧ n < (sqrtFrom n k root + 1) * (sqrtFrom n k root + 1) := by
  induction k generalizing root with
  | zero => exact ⟨hlow, hhigh⟩
  | succ k ih =>
    have hdouble : root + 2 ^ (k + 1) = root + 2 ^ k + 2 ^ k := by ring
    rw [sqrtFrom]
    split
    case isTrue h => exact ih h (hdouble ▸ hhigh)
    case isFalse h => exact ih hlow (Nat.lt_of_not_le h)

theorem natSqrt_bounds (n : Nat) : natSqrt n * natSqrt n ≤ n ∧ n < (natSqrt n + 1) * (natSqrt n + 1) := by
  refine sqrtFrom_bounds n _ (Nat.zero_le n) ?_
  have hbits : Nat.log2 n + 1 ≤ Nat.log2 n / 2 + 1 + (Nat.log2 n / 2 + 1) := by omega
  calc n < 2 ^ (Nat.log2 n + 1) := Nat.lt_log2_self
    _ ≤ 2 ^ (Nat.log2 n / 2 + 1 + (Nat.log2 n / 2 + 1)) := Nat.pow_le_pow_right Nat.two_pos hbits
    _ = _ := by rw [Nat.pow_add, Nat.zero_add]

/-! ### The square root (rule R17) -/

theorem F64.sqrt_zero (s : Bool) : (F64.zero s).sqrt = F64.zero s := by cases s <;> decide +kernel

theorem F64.isNaN_sqrt_of_negative {x : F64} (hx : x.isFinite = true) (h0 : x.unitsAbs ≠ 0) (hs : x.sign = true) :
    x.sqrt.isNaN = true := by
  simp only [F64.sqrt, F64.view_of_finite hx, if_neg h0, hs, if_true, F64.isNaN_nanOf]

/-- Twice the integer root of `n`, and one more when the exact root lies strictly above it: what `SQRT` rounds. -/
def stickyRoot (n : Nat) : Nat := 2 * natSqrt n + (if natSqrt n * natSqrt n = n then 0 else 1)

theorem F64.sqrt_of_positive {x : F64} (hx : x.isFinite = true) (h0 : x.unitsAbs ≠ 0) (hs : x.sign = false) :
    x.sqrt = F64.round false (stickyRoot (x.unitsAbs * unitsPerOne)) 2 := by
  simp only [F64.sqrt, F64.view_of_finite hx, if_neg h0, hs, Bool.false_eq_true, if_false]
  rfl

theorem stickyRoot_cases (n : Nat) :
    (n = natSqrt n * natSqrt n ∧ stickyRoot n = 2 * natSqrt n) ∨
    (natSqrt n * natSqrt n < n ∧ n < (natSqrt n + 1) * (natSqrt n + 1) ∧ stickyRoot n = 2 * natSqrt n + 1) := by
  obtain ⟨hlow, hhigh⟩ := natSqrt_bounds n
  by_cases h : natSqrt n * natSqrt n = n
  · exact .inl ⟨h.symm, by rw [stickyRoot, if_pos h, Nat.add_zero]⟩
  · exact .inr ⟨lt_of_le_of_ne hlow h, hhigh, by rw [stickyRoot, if_neg h]⟩

/-- A number other than the sticky root, or an even one, compares with twice the exact root as with the sticky root. -/
theorem le_square_of_stickyRoot_le {n s : Nat} (hs : s = stickyRoot n → s % 2 = 0) (h : stickyRoot n ≤ s) :
    4 * n ≤ s * s := by
  rcases stickyRoot_cases n with ⟨hn, ht⟩ | ⟨-, hhigh, ht⟩ <;> rw [ht] at hs h <;> generalize natSqrt n = r at *
  · calc 4 * n = 2 * r * (2 * r) := by rw [hn]; ring
      _ ≤ s * s := Nat.mul_self_le_mul_self h
  · have hstep : 2 * (r + 1) ≤ s := by omega
    calc 4 * n ≤ 4 * ((r + 1) * (r + 1)) := Nat.mul_le_mul_left 4 hhigh.le
      _ = 2 * (r + 1) * (2 * (r + 1)) := by ring
      _ ≤ s * s := Nat.mul_self_le_mul_self hstep

theorem square_le_of_le_stickyRoot {n s : Nat} (hs : s = stickyRoot n → s % 2 = 0) (h : s ≤ stickyRoot n) :
    s * s ≤ 4 * n := by
  have hstep : s ≤ 2 * natSqrt n := by
    rcases stickyRoot_cases n with ⟨-, ht⟩ | ⟨-, -, ht⟩ <;> omega
  calc s * s ≤ 2 * natSqrt n * (2 * natSqrt n) := Nat.mul_self_le_mul_self hstep
    _ = 4 * (natSqrt n * natSqrt n) := by ring
    _ ≤ 4 * n := Nat.mul_le_mul_left 4 (natSqrt_bounds n).1

/-- Twice the exact root is a whole number only where the sticky root is that number. -/
theorem eq_stickyRoot_of_square {n s : Nat} (h : 4 * n = s * s) : s = stickyRoot n := by
  rcases stickyRoot_cases n with ⟨hn, ht⟩ | ⟨hlow, hhigh, -⟩ <;> generalize natSqrt n = r at *
  · refine ht ▸ Nat.mul_self_inj.1 ?_
    rw [← h, hn]
    ring
  · have hgt : 2 * r < s := Nat.mul_self_lt_mul_self_iff.1 (by rw [← h]; linarith)
    have hlt : s < 2 * (r + 1) := Nat.mul_self_lt_mul_self_iff.1 (by rw [← h]; linarith)
    obtain rfl : s = 2 * r + 1 := by omega
    have hodd : (2 * r + 1) * (2 * r + 1) = 4 * (r * r + r) + 1 := by ring
    omega

/-- The nearest of two values is on the midpoint's near side. -/
theorem le_midpoint_of_nearest {t a b : Nat} (hab : a < b) (h : unitsDistance t 2 a ≤ unitsDistance t 2 b) : t ≤ a + b := by
  simp only [unitsDistance] at h
  omega

theorem midpoint_le_of_nearest {t a b : Nat} (hab : b < a) (h : unitsDistance t 2 a ≤ unitsDistance t 2 b) : a + b ≤ t := by
  simp only [unitsDistance] at h
  omega

theorem unitsDistance_eq_of_midpoint {t a b : Nat} (h : t = a + b) : unitsDistance t 2 a = unitsDistance t 2 b := by
  simp only [unitsDistance]
  omega

/-- Beyond 53 bits a value of the format is even. -/
theorem F64.unitsAbs_even {x : F64} (h : 2 ^ 53 ≤ x.unitsAbs) : x.unitsAbs % 2 = 0 := by
  obtain ⟨a, k, ha, hx⟩ := x.unitsAbs_form
  cases k with
  | zero => omega
  | succ k => rw [hx, Nat.pow_succ, ← Nat.mul_assoc, Nat.mul_mod_left]

theorem two_pow_mul_self {k q : Nat} (h : k + k = q) : 2 ^ k * 2 ^ k = 2 ^ q := by rw [← h, Nat.pow_add]

/-- The root of a number above 0 is at least `2 ^ 537` units, the root of the smallest. -/
theorem two_pow_le_natSqrt {m : Nat} (h0 : m ≠ 0) : 2 ^ 537 ≤ natSqrt (m * unitsPerOne) := by
  have hn : 2 ^ 537 * 2 ^ 537 ≤ m * unitsPerOne := by
    rw [two_pow_mul_self (by decide : 537 + 537 = 1074), unitsPerOne_eq]
    exact Nat.le_mul_of_pos_left _ (Nat.pos_of_ne_zero h0)
  have hlt := Nat.mul_self_lt_mul_self_iff.1 (hn.trans_lt (natSqrt_bounds _).2)
  exact Nat.le_of_lt_succ hlt

theorem natSqrt_lt_two_pow {m : Nat} (hm : m < 2 ^ 2098) : natSqrt (m * unitsPerOne) < 2 ^ 1586 := by
  refine Nat.mul_self_lt_mul_self_iff.1 ((natSqrt_bounds _).1.trans_lt ?_)
  rw [two_pow_mul_self (by decide : 1586 + 1586 = 3172), unitsPerOne_eq]
  exact mul_two_pow_lt hm (by decide)

/-- The root of a finite number rounds to a finite number. -/
theorem isFinite_round_stickyRoot {m : Nat} (hm : m < 2 ^ 2098) :
    (F64.round false (stickyRoot (m * unitsPerOne)) 2).isFinite = true := by
  refine (F64.round_finite_or_inf ..).resolve_right fun hinf => ?_
  rw [F64.round_eq_inf_iff_ge false _ Nat.two_pos] at hinf
  have hbound : 2 * 2 ^ 1586 ≤ (2 ^ 54 - 1) * 2 ^ 2044 * 2 := by decide +kernel
  have hroot := natSqrt_lt_two_pow hm
  have hsticky : stickyRoot (m * unitsPerOne) ≤ 2 * natSqrt (m * unitsPerOne) + 1 := by
    rcases stickyRoot_cases (m * unitsPerOne) with ⟨-, ht⟩ | ⟨-, -, ht⟩ <;> omega
  generalize (2 ^ 54 - 1) * 2 ^ 2044 * 2 = limit at *
  generalize 2 ^ 1586 = bound at *
  omega

theorem two_pow_le_stickyRoot {m : Nat} (h0 : m ≠ 0) : 2 * 2 ^ 537 ≤ stickyRoot (m * unitsPerOne) := by
  have hroot := two_pow_le_natSqrt h0
  rcases stickyRoot_cases (m * unitsPerOne) with ⟨-, ht⟩ | ⟨-, -, ht⟩ <;> omega

/-- A power of two of units, below the infinity's, is a number. -/
theorem exists_unitsAbs_two_pow {k : Nat} (hk : 1 + k ≤ 2098) : ∃ x : F64, x.unitsAbs = 2 ^ k := by
  obtain ⟨-, -, h⟩ := F64.round_exact_one false (a := 1) (k := k) (by decide) (mul_two_pow_lt (p := 1) (by decide) hk)
  rw [Nat.one_mul] at h
  exact ⟨_, h⟩

/-- Where the number rounded is the midpoint of its rounding and another value, both are at least as large as any value
`z` below it: `z` would be nearer than one below `z`. -/
theorem le_of_midpoint {t : Nat} {r y z : F64} (hr : r = F64.round false t 2) (hfin : r.isFinite = true)
    (hz : 2 * z.unitsAbs ≤ t) (hsum : r.unitsAbs + y.unitsAbs = t) :
    z.unitsAbs ≤ r.unitsAbs ∧ z.unitsAbs ≤ y.unitsAbs := by
  have hnear : z.unitsAbs ≠ r.unitsAbs → unitsDistance t 2 r.unitsAbs ≤ unitsDistance t 2 z.unitsAbs := fun hne => by
    subst hr
    exact (F64.round_nearest Nat.two_pos hfin hne).1
  constructor
  · by_contra hlt
    have := le_midpoint_of_nearest (Nat.lt_of_not_le hlt) (hnear (by omega))
    omega
  · by_contra hlt
    have := midpoint_le_of_nearest (t := t) (a := r.unitsAbs) (b := z.unitsAbs) (by omega) (hnear (by omega))
    omega

theorem two_pow_53_le_of_eq {m k : Nat} (hm : m = 2 ^ k) (hk : 53 ≤ k) : 2 ^ 53 ≤ m :=
  hm ▸ Nat.pow_le_pow_right Nat.two_pos hk

/-- Where the sticky root is the midpoint of the rounded root and another value, both are far beyond 53 bits, so their sum
is even. -/
theorem midpoint_even {m : Nat} (h0 : m ≠ 0) {r y : F64} (hr : r = F64.round false (stickyRoot (m * unitsPerOne)) 2)
    (hfin : r.isFinite = true) (hsum : r.unitsAbs + y.unitsAbs = stickyRoot (m * unitsPerOne)) :
    (r.unitsAbs + y.unitsAbs) % 2 = 0 := by
  obtain ⟨z, hz⟩ := exists_unitsAbs_two_pow (k := 537) (by decide)
  obtain ⟨hzr, hzy⟩ := le_of_midpoint hr hfin (hz ▸ two_pow_le_stickyRoot h0) hsum
  have h53 : 2 ^ 53 ≤ z.unitsAbs := two_pow_53_le_of_eq hz (by decide)
  rw [Nat.add_mod, F64.unitsAbs_even (h53.trans hzr), F64.unitsAbs_even (h53.trans hzy)]

/-- Settles O55: the integer root is found bit by bit, `SQRT` rounds the sticky root to the nearest number, and the sticky
root is on the same side of every midpoint as twice the exact root. -/
theorem squareRootIsCorrectlyRounded : Obligations.SquareRootIsCorrectlyRounded := by
  refine ⟨natSqrt_bounds, F64.sqrt_zero, fun x hx h0 => ⟨F64.isNaN_sqrt_of_negative hx h0, ?_⟩⟩
  intro hs r n
  have hr : r = F64.round false (stickyRoot n) 2 := F64.sqrt_of_positive hx h0 hs
  have hfin : r.isFinite = true := hr ▸ isFinite_round_stickyRoot (F64.unitsAbs_lt_of_finite hx)
  refine ⟨hfin, hr ▸ F64.sign_round .., ?_⟩
  intro y _ sum
  have hnear : y.unitsAbs ≠ r.unitsAbs →
      unitsDistance (stickyRoot n) 2 r.unitsAbs ≤ unitsDistance (stickyRoot n) 2 y.unitsAbs ∧
      (unitsDistance (stickyRoot n) 2 r.unitsAbs = unitsDistance (stickyRoot n) 2 y.unitsAbs → r.magnitude % 2 = 0) := by
    rw [hr] at hfin ⊢
    exact F64.round_nearest Nat.two_pos hfin
  have heven : sum = stickyRoot n → sum % 2 = 0 := midpoint_even h0 hr hfin
  have htie : y.unitsAbs ≠ r.unitsAbs → 4 * n = sum * sum → r.magnitude % 2 = 0 := fun hne hsq =>
    (hnear hne).2 (unitsDistance_eq_of_midpoint (eq_stickyRoot_of_square hsq).symm)
  constructor
  · intro hlt
    exact ⟨le_square_of_stickyRoot_le heven (le_midpoint_of_nearest hlt (hnear hlt.ne').1), htie hlt.ne'⟩
  · intro hlt
    exact ⟨square_le_of_le_stickyRoot heven (midpoint_le_of_nearest hlt (hnear hlt.ne).1),
      fun hsq => htie hlt.ne hsq.symm⟩

end Sys2Proof
end

section
/-! PROOFS. The analyzer: its tables and window, the loop nest of the butterflies, and the two smallest sizes
(42_spectrum.md). -/

namespace Sys2Proof.Machine

/-! ### One butterfly (rule R246) -/

/-- Two pairs of arrays hold the same number at an entry. -/
def Working.SameAt (w w' : Working) (i : Nat) : Prop := entry w'.re i = entry w.re i ∧ entry w'.im i = entry w.im i

theorem Working.SameAt.trans {w₁ w₂ w₃ : Working} {i : Nat} (h : w₁.SameAt w₂ i) (h' : w₂.SameAt w₃ i) :
    w₁.SameAt w₃ i := by
  obtain ⟨hre, him⟩ := h
  obtain ⟨hre', him'⟩ := h'
  exact ⟨hre'.trans hre, him'.trans him⟩

/-- A butterfly's two entries depend on those entries before it alone. -/
theorem Working.Twiddled.of_same_before {cosT sinT : List F64} {j l k : Nat} {w v w' : Working}
    (h : v.Twiddled cosT sinT j l k w') (hj : w.SameAt v j) (hl : w.SameAt v l) : w.Twiddled cosT sinT j l k w' := by
  obtain ⟨hjre, hjim⟩ := hj
  obtain ⟨hlre, hlim⟩ := hl
  simpa only [Working.Twiddled, hjre, hjim, hlre, hlim] using h

theorem Working.Twiddled.of_same_after {cosT sinT : List F64} {j l k : Nat} {w v w' : Working}
    (h : w.Twiddled cosT sinT j l k v) (hj : v.SameAt w' j) (hl : v.SameAt w' l) : w.Twiddled cosT sinT j l k w' := by
  obtain ⟨hjre, hjim⟩ := hj
  obtain ⟨hlre, hlim⟩ := hl
  simpa only [Working.Twiddled, hjre, hjim, hlre, hlim] using h

/-- A butterfly on two entries in range has its effect on both: the write of one does not cover that of the other. -/
theorem butterfly_twiddled {cosT sinT : List F64} {j l k : Nat} {w : Working} (hjl : j ≠ l) (hj : j < w.re.length)
    (hl : l < w.re.length) (hlen : w.im.length = w.re.length) :
    w.Twiddled cosT sinT j l k (butterfly cosT sinT j l k w) := by
  simp only [Working.Twiddled, butterfly]
  simp only [entry_set, List.length_set, hj, hl, hlen, if_true, if_neg hjl.symm, and_self]

theorem butterfly_sameAt {cosT sinT : List F64} {j l k i : Nat} {w : Working} (hj : j < w.re.length)
    (hl : l < w.re.length) (hlen : w.im.length = w.re.length) (hij : i ≠ j) (hil : i ≠ l) :
    w.SameAt (butterfly cosT sinT j l k w) i := by
  simp only [Working.SameAt, butterfly]
  simp only [entry_set, List.length_set, hj, hl, hlen, if_neg hij, if_neg hil, and_self]

/-! ### One group -/

/-- The first `m` butterflies of a group (rule R246's loop over `j`). -/
def butterflies (cosT sinT : List F64) (half step start m : Nat) (w : Working) : Working :=
  (List.range m).foldl (fun w d => butterfly cosT sinT (start + d) (start + d + half) (d * step) w) w

theorem butterflies_succ (cosT sinT : List F64) (half step start m : Nat) (w : Working) :
    butterflies cosT sinT half step start (m + 1) w =
      butterfly cosT sinT (start + m) (start + m + half) (m * step) (butterflies cosT sinT half step start m w) := by
  simp only [butterflies, List.range_succ, List.foldl_append, List.foldl_cons, List.foldl_nil]

theorem butterflyGroup_eq (cosT sinT : List F64) (half step start : Nat) (w : Working) :
    butterflyGroup cosT sinT half step start w = butterflies cosT sinT half step start half w := rfl

theorem length_butterflies (cosT sinT : List F64) (half step start m : Nat) (w : Working) :
    (butterflies cosT sinT half step start m w).re.length = w.re.length ∧
      (butterflies cosT sinT half step start m w).im.length = w.im.length := by
  induction m with
  | zero => exact ⟨rfl, rfl⟩
  | succ m ih => rwa [butterflies_succ, length_butterfly_re, length_butterfly_im]

/-- The first `m` butterflies of a group are on pairs of entries of their own, so that each has its effect and no entry of
another pair changes. -/
theorem butterflies_effect {cosT sinT : List F64} {half step start m : Nat} {w : Working} (hm : m ≤ half)
    (hroom : start + 2 * half ≤ w.re.length) (hlen : w.im.length = w.re.length) :
    (∀ d, d < m → w.Twiddled cosT sinT (start + d) (start + d + half) (d * step)
      (butterflies cosT sinT half step start m w)) ∧
    ∀ i, (∀ d, d < m → i ≠ start + d ∧ i ≠ start + d + half) →
      w.SameAt (butterflies cosT sinT half step start m w) i := by
  induction m with
  | zero => exact ⟨fun d hd => absurd hd (Nat.not_lt_zero d), fun i _ => ⟨rfl, rfl⟩⟩
  | succ m ih =>
    obtain ⟨hdone, hsame⟩ := ih (Nat.le_of_succ_le hm)
    obtain ⟨hre, him⟩ := length_butterflies cosT sinT half step start m w
    have hj : start + m < (butterflies cosT sinT half step start m w).re.length := by omega
    have hl : start + m + half < (butterflies cosT sinT half step start m w).re.length := by omega
    have hlen' := him.trans (hlen.trans hre.symm)
    rw [butterflies_succ]
    refine ⟨fun d hd => ?_, fun i hi => ?_⟩
    · rcases Nat.lt_succ_iff_lt_or_eq.1 hd with hlt | rfl
      · exact (hdone d hlt).of_same_after (butterfly_sameAt hj hl hlen' (by omega) (by omega))
          (butterfly_sameAt hj hl hlen' (by omega) (by omega))
      · exact (butterfly_twiddled (by omega) hj hl hlen').of_same_before (hsame _ fun e he => by omega)
          (hsame _ fun e he => by omega)
    · obtain ⟨hij, hil⟩ := hi m (Nat.lt_succ_self m)
      exact (hsame i fun d hd => hi d (Nat.lt_succ_of_lt hd)).trans (butterfly_sameAt hj hl hlen' hij hil)

/-- A whole group: every entry of its `2 * half` is in one butterfly, and no entry outside changes. -/
theorem butterflyGroup_effect {cosT sinT : List F64} {half step start : Nat} {w : Working}
    (hroom : start + 2 * half ≤ w.re.length) (hlen : w.im.length = w.re.length) :
    (∀ d, d < half → w.Twiddled cosT sinT (start + d) (start + d + half) (d * step)
      (butterflyGroup cosT sinT half step start w)) ∧
    ∀ i, i < start ∨ start + 2 * half ≤ i → w.SameAt (butterflyGroup cosT sinT half step start w) i := by
  obtain ⟨hdone, hsame⟩ := butterflies_effect (cosT := cosT) (sinT := sinT) (step := step) le_rfl hroom hlen
  exact ⟨hdone, fun i hi => hsame i fun d hd => by omega⟩

/-! ### One pass -/

/-- The first `m` groups of a pass (rule R246's loop over `i`). -/
def butterflyGroups (cosT sinT : List F64) (half step m : Nat) (w : Working) : Working :=
  (List.range m).foldl (fun w g => butterflyGroup cosT sinT half step (g * (2 * half)) w) w

theorem butterflyGroups_succ (cosT sinT : List F64) (half step m : Nat) (w : Working) :
    butterflyGroups cosT sinT half step (m + 1) w =
      butterflyGroup cosT sinT half step (m * (2 * half)) (butterflyGroups cosT sinT half step m w) := by
  simp only [butterflyGroups, List.range_succ, List.foldl_append, List.foldl_cons, List.foldl_nil]

/-- A pass over `groups` groups has the table stride `groups`, which is `N / size`. -/
theorem butterflyPass_eq {half : Nat} (hhalf : 0 < half) (cosT sinT : List F64) (groups : Nat) (w : Working) :
    butterflyPass (groups * (2 * half)) cosT sinT (2 * half) w = butterflyGroups cosT sinT half groups groups w := by
  rw [butterflyPass, Nat.mul_div_cancel _ (by omega), Nat.mul_div_cancel_left _ Nat.two_pos]
  rfl

theorem length_butterflyGroups (cosT sinT : List F64) (half step m : Nat) (w : Working) :
    (butterflyGroups cosT sinT half step m w).re.length = w.re.length ∧
      (butterflyGroups cosT sinT half step m w).im.length = w.im.length := by
  induction m with
  | zero => exact ⟨rfl, rfl⟩
  | succ m ih =>
    obtain ⟨hre, him⟩ := length_butterflies cosT sinT half step (m * (2 * half)) half
      (butterflyGroups cosT sinT half step m w)
    rw [butterflyGroups_succ, butterflyGroup_eq]
    exact ⟨hre.trans ih.1, him.trans ih.2⟩

/-- The first `m` groups are on entries of their own, and the entries above them are as before. -/
theorem butterflyGroups_effect {cosT sinT : List F64} {half step m : Nat} {w : Working}
    (hroom : m * (2 * half) ≤ w.re.length) (hlen : w.im.length = w.re.length) :
    (∀ g d, g < m → d < half → w.Twiddled cosT sinT (g * (2 * half) + d) (g * (2 * half) + d + half) (d * step)
      (butterflyGroups cosT sinT half step m w)) ∧
    ∀ i, m * (2 * half) ≤ i → w.SameAt (butterflyGroups cosT sinT half step m w) i := by
  induction m with
  | zero => exact ⟨fun g d hg => absurd hg (Nat.not_lt_zero g), fun i _ => ⟨rfl, rfl⟩⟩
  | succ m ih =>
    rw [Nat.succ_mul] at hroom
    obtain ⟨hdone, hsame⟩ := ih (by omega)
    obtain ⟨hre, him⟩ := length_butterflyGroups cosT sinT half step m w
    obtain ⟨hgroup, hother⟩ := butterflyGroup_effect (cosT := cosT) (sinT := sinT) (half := half) (step := step)
      (start := m * (2 * half)) (w := butterflyGroups cosT sinT half step m w) (by omega) (him.trans (hlen.trans hre.symm))
    rw [butterflyGroups_succ]
    refine ⟨fun g d hg hd => ?_, fun i hi => ?_⟩
    · rcases Nat.lt_succ_iff_lt_or_eq.1 hg with hlt | rfl
      · have hbelow : g * (2 * half) + 2 * half ≤ m * (2 * half) := by
          rw [← Nat.succ_mul]
          exact Nat.mul_le_mul_right _ hlt
        exact (hdone g d hlt hd).of_same_after (hother _ (.inl (by omega))) (hother _ (.inl (by omega)))
      · exact (hgroup d hd).of_same_before (hsame _ (by omega)) (hsame _ (by omega))
    · rw [Nat.succ_mul] at hi
      exact (hsame i (by omega)).trans (hother i (.inr hi))

/-! ### The passes in order -/

/-- The arrays before pass `p` of a transform of size `n`. -/
def beforePass (n : Nat) (cosT sinT : List F64) (w : Working) (p : Nat) : Working :=
  (List.range p).foldl (fun w p => butterflyPass n cosT sinT (2 ^ (p + 1)) w) w

theorem beforePass_succ (n : Nat) (cosT sinT : List F64) (w : Working) (p : Nat) :
    beforePass n cosT sinT w (p + 1) = butterflyPass n cosT sinT (2 ^ (p + 1)) (beforePass n cosT sinT w p) := by
  simp only [beforePass, List.range_succ, List.foldl_append, List.foldl_cons, List.foldl_nil]

theorem butterflyPasses_two_pow (bits : Nat) (cosT sinT : List F64) (w : Working) :
    butterflyPasses (2 ^ bits) cosT sinT w = beforePass (2 ^ bits) cosT sinT w bits := by
  rw [butterflyPasses, Nat.log2_two_pow]
  rfl

/-- Settles O50: a butterfly writes its two entries, the butterflies of a group and the groups of a pass are on entries of
their own, and the passes are folded in order. -/
theorem butterflyPassesFollowTheLoopNest : Obligations.ButterflyPassesFollowTheLoopNest := by
  refine ⟨?butterfly, ?group, ?pass, ?passes⟩
  case butterfly =>
    intro cosT sinT j l k w hjl hj hl hlen w'
    exact ⟨length_butterfly_re .., length_butterfly_im .., butterfly_twiddled hjl hj hl hlen,
      fun i hij hil => butterfly_sameAt hj hl hlen hij hil⟩
  case group =>
    intro cosT sinT half step start w hroom hlen w'
    obtain ⟨hre, him⟩ := length_butterflies cosT sinT half step start half w
    obtain ⟨hdone, hsame⟩ := butterflyGroup_effect (cosT := cosT) (sinT := sinT) (step := step) hroom hlen
    exact ⟨hre, him, hdone, hsame⟩
  case pass =>
    intro cosT sinT half groups w hhalf hre hlen w'
    have hw' : w' = butterflyGroups cosT sinT half groups groups w := butterflyPass_eq hhalf cosT sinT groups w
    obtain ⟨hre', him'⟩ := length_butterflyGroups cosT sinT half groups groups w
    obtain ⟨hdone, -⟩ := butterflyGroups_effect (cosT := cosT) (sinT := sinT) (step := groups) hre.ge hlen
    rw [hw']
    exact ⟨hre', him', hdone⟩
  case passes =>
    intro cosT sinT bits w
    exact ⟨beforePass (2 ^ bits) cosT sinT w, rfl, fun p _ => beforePass_succ .., butterflyPasses_two_pow ..⟩

/-! ### The tables, the window and the magnitudes (rules R242 to R247) -/

/-- The window is 0 at both ends for each of the 15 sizes from 2 up: `COS` is 1 at a zero, at `TWO_PI` and, for the size 16,
at the number below it (rule R243). -/
theorem hann_ends {n : Nat} (hn : isFftSize n = true) (h2 : 2 ≤ n) :
    hann n 0 = F64.posZero ∧ hann n (n - 1) = F64.posZero := by
  obtain ⟨k, hmax, rfl⟩ := (isFftSize_iff_two_pow n).1 hn
  have hk : k ≤ 15 := (Nat.pow_le_pow_iff_right Nat.one_lt_two).1 hmax
  have h0 : k ≠ 0 := fun h0 => by simp [h0] at h2
  have hall : ∀ k ∈ List.range 16, k ≠ 0 → hann (2 ^ k) 0 = F64.posZero ∧ hann (2 ^ k) (2 ^ k - 1) = F64.posZero := by
    decide +kernel
  exact hall k (List.mem_range.2 (by omega)) h0

theorem getElem?_map_range {α : Type} (f : Nat → α) {n k : Nat} (hk : k < n) :
    ((List.range n).map f)[k]? = some (f k) := by
  rw [List.getElem?_map, List.getElem?_range hk, Option.map_some]

theorem length_tables (n : Nat) : (cosTable n).length = n / 2 ∧ (sinTable n).length = n / 2 := by
  simp only [cosTable, sinTable, List.length_map, List.length_range, and_self]

theorem windowed_entries {n i : Nat} (buf : List F64) (hi : i < n) :
    (windowed n buf).re[i]? = some ((entry buf i).mul (hann n i)) ∧ (windowed n buf).im[i]? = some F64.posZero :=
  ⟨getElem?_map_range _ hi, by rw [windowed, List.getElem?_replicate, if_pos hi]⟩

theorem length_windowed (n : Nat) (buf : List F64) :
    (windowed n buf).re.length = n ∧ (windowed n buf).im.length = n := by
  simp only [windowed, List.length_map, List.length_range, List.length_replicate, and_self]

theorem length_permute (bitrev : List Nat) (w : Working) :
    (permute bitrev w).re.length = bitrev.length ∧ (permute bitrev w).im.length = bitrev.length := by
  simp only [permute, List.length_map, and_self]

theorem permute_entries {bitrev : List Nat} {i source : Nat} (w : Working) (hi : bitrev[i]? = some source) :
    (permute bitrev w).re[i]? = some (entry w.re source) ∧ (permute bitrev w).im[i]? = some (entry w.im source) := by
  simp only [permute, List.getElem?_map, hi, Option.map_some, and_self]

/-- Settles O49: the two ends of the window by evaluation, and each table and array entry by entry. -/
theorem analyzerFollowsItsFormulas : Obligations.AnalyzerFollowsItsFormulas := by
  refine ⟨fun n hn h2 => hann_ends hn h2, fun n => ?_⟩
  obtain ⟨hcos, hsin⟩ := length_tables n
  refine ⟨hcos, hsin, fun k hk => ⟨getElem?_map_range _ hk, getElem?_map_range _ hk⟩, fun i => rfl, fun buf => ?_,
    fun bitrev w => ?_, fun w => ⟨length_magnitudes n w, fun i hi => getElem?_map_range _ hi⟩,
    fun bitrev cosT sinT buf h => analyze_of_ne_two h bitrev cosT sinT buf⟩
  · obtain ⟨hre, him⟩ := length_windowed n buf
    exact ⟨hre, him, fun i hi => windowed_entries buf hi⟩
  · obtain ⟨hre, him⟩ := length_permute bitrev w
    exact ⟨hre, him, fun i source hi => permute_entries w hi⟩

/-! ### The two smallest sizes (rule R248) -/

/-- A finite number times +0 is a zero. -/
theorem mul_posZero_of_finite {x : F64} (h : x.isFinite = true) : x.mul F64.posZero = F64.zero x.sign := by
  have hsign : F64.posZero.sign = false := by decide
  have hunits : F64.posZero.unitsAbs = 0 := by decide +kernel
  rw [F64.mul_of_finite h (by decide), hsign, hunits, Nat.mul_zero, Bool.xor_false, F64.round_zero _ unitsPerOne_pos]

/-- The window of size 2 leaves two zeros. -/
theorem windowed_two {x y : F64} (hx : x.isFinite = true) (hy : y.isFinite = true) :
    windowed 2 [x, y] = ⟨[F64.zero x.sign, F64.zero y.sign], [F64.posZero, F64.posZero]⟩ := by
  obtain ⟨h0, h1⟩ := hann_ends (n := 2) (by decide) le_rfl
  have hre : (windowed 2 [x, y]).re = [x.mul (hann 2 0), y.mul (hann 2 (2 - 1))] := rfl
  rw [h0, h1, mul_posZero_of_finite hx, mul_posZero_of_finite hy] at hre
  rw [← hre]
  rfl

/-- The transform of two zeros, whatever their signs. -/
theorem transform_two_zeros (s t : Bool) :
    magnitudes 2 (butterflyPasses 2 (cosTable 2) (sinTable 2)
      (permute (bitrevTable 2) ⟨[F64.zero s, F64.zero t], [F64.posZero, F64.posZero]⟩)) = [F64.posZero] := by
  cases s <;> cases t <;> decide +kernel

/-- Settles O51: half of 1 is no magnitude, the size 2 is rule R248's, and by the other rules its window leaves two
zeros. -/
theorem smallTransformsGiveNothing : Obligations.SmallTransformsGiveNothing := by
  refine ⟨fun buf => List.eq_nil_of_length_eq_zero (length_analyze 1 _ _ _ buf), fun buf => analyze_two _ _ _ buf, ?_⟩
  intro x y hx hy
  rw [transform, windowed_two hx hy, transform_two_zeros]

end Sys2Proof.Machine
end

section
/-! PROOFS. The envelopes are never negative while every Config is valid (10_state.md rule R53; 41_channel_pipeline.md rules
R189 to R195, R200). -/

namespace Sys2Proof

open Sys2Proof.Machine

/-! ### Numbers that are not negative -/

theorem ge_posZero_iff (x : F64) : F64.ge x F64.posZero = true ↔ x.isNaN = false ∧ notNegative x = true := by
  simp only [F64.ge_iff, notNegative, Bool.not_eq_true', F64.isNaN_posZero, true_and]
  constructor
  · rintro ⟨hn, hu⟩
    exact ⟨hn, F64.lt_eq_false_of_ge ((F64.ge_iff _ _).2 ⟨hn, F64.isNaN_posZero, hu⟩)⟩
  · rintro ⟨hn, hlt⟩
    obtain ⟨-, -, hu⟩ := (F64.ge_iff _ _).1 (F64.ge_of_lt_eq_false hn F64.isNaN_posZero hlt)
    exact ⟨hn, hu⟩

theorem notNegative_of_ge_posZero {x : F64} (h : F64.ge x F64.posZero = true) : notNegative x = true :=
  ((ge_posZero_iff x).1 h).2

theorem notNegative_posZero : notNegative F64.posZero = true := by decide +kernel

theorem notNegative_of_gt_posZero {x : F64} (h : F64.gt x F64.posZero = true) : notNegative x = true :=
  notNegative_of_sign (F64.sign_of_gt_posZero h)

theorem isNonNegative_iff (x : F64) :
    isNonNegative x = true ↔ x.isFinite = true ∧ F64.ge x F64.posZero = true := by
  simp only [isNonNegative, Bool.and_eq_true]

theorem isPositive_iff (x : F64) : isPositive x = true ↔ x.isFinite = true ∧ F64.gt x F64.posZero = true := by
  simp only [isPositive, Bool.and_eq_true]

theorem notNegative_abs (x : F64) : notNegative x.abs = true := by
  refine notNegative_of_sign ?_
  rw [F64.sign, F64.abs, BitVec.msb_and]
  exact Bool.and_false _

/-- `MAX0` is a NaN, a number above +0 or +0. -/
theorem notNegative_max0 (x : F64) : notNegative x.max0 = true := by
  rw [F64.max0]
  split_ifs with hn hgt
  · exact notNegative_nanOf ..
  · exact notNegative_of_gt_posZero hgt
  · exact notNegative_posZero

/-! ### Numbers without a sign -/

/-- A NaN or a number with the sign +. -/
def plusOrNaN (x : F64) : Prop := x.isNaN = true ∨ x.sign = false

theorem plusOrNaN_mul {a b : F64} (ha : plusOrNaN a) (hb : plusOrNaN b) : plusOrNaN (a.mul b) := by
  rcases ha with ha | ha
  · exact .inl (F64.isNaN_mul_left b ha)
  rcases hb with hb | hb
  · exact .inl (F64.isNaN_mul_right a hb)
  · exact (F64.sign_mul a b).imp_right fun h => by rw [h, ha, hb]; rfl

theorem plusOrNaN_div {a b : F64} (ha : plusOrNaN a) (hb : plusOrNaN b) : plusOrNaN (a.div b) := by
  rcases ha with ha | ha
  · exact .inl (F64.isNaN_div_left b ha)
  rcases hb with hb | hb
  · exact .inl (F64.isNaN_div_right a hb)
  · exact (F64.sign_div a b).imp_right fun h => by rw [h, ha, hb]; rfl

theorem notNegative_of_plusOrNaN {x : F64} (h : plusOrNaN x) : notNegative x = true :=
  h.elim notNegative_of_isNaN notNegative_of_sign

end Sys2Proof

namespace Sys2Proof.Machine

/-! ### The coefficients (rule R200) -/

/-- What a one-pole update takes for a coefficient: a NaN or a number in [0, 1]. -/
def isCoefficient (c : F64) : Prop := c.isNaN = true ∨ (F64.ge c F64.posZero = true ∧ F64.ge F64.one c = true)

theorem isNaN_fnExp {x : F64} (h : x.isNaN = true) : (fnExp x).isNaN = true := by
  simp only [fnExp, F64.view_of_nan h, F64.isNaN_nanOf]

/-- `EXP(-1 / t)` for a `t` without sign. -/
theorem isCoefficient_fnExp {t : F64} (h : plusOrNaN t) : isCoefficient (fnExp (F64.negOne.div t)) := by
  rcases h with h | h
  · exact .inl (isNaN_fnExp (F64.isNaN_div_right _ h))
  · rcases F64.sign_div F64.negOne t with hn | hs
    · exact .inl (isNaN_fnExp hn)
    · refine fnExp_of_sign (hs.trans ?_)
      rw [h]
      decide

theorem plusOrNaN_sampleRate : plusOrNaN sampleRate := .inr (F64.sign_of_gt_posZero sampleRate_pos)

theorem plusOrNaN_clampFreq (fr : F64) : plusOrNaN (clampFreq fr) := by
  refine .inr (F64.sign_of_gt_posZero ((F64.lt_iff _ _).2 ?_))
  obtain ⟨hn, -, hu⟩ := (F64.ge_iff _ _).1 (clampFreq_ge_freqEps fr)
  have hpos : F64.posZero.units < Config.freqEps.units := by decide +kernel
  exact ⟨F64.isNaN_posZero, hn, hpos.trans_le hu⟩

/-- The factor of a detector time in rule R200. -/
theorem plusOrNaN_periodFactor (freqRatio : F64) :
    plusOrNaN (sampleRate.mul (F64.one.div (sampleRate.mul (clampFreq freqRatio)))) :=
  plusOrNaN_mul plusOrNaN_sampleRate
    (plusOrNaN_div (.inr (by decide)) (plusOrNaN_mul plusOrNaN_sampleRate (plusOrNaN_clampFreq freqRatio)))

theorem isCoefficient_envelopeCoefficient (freqRatio : F64) {time : F64} (h : time.sign = false) :
    isCoefficient (envelopeCoefficient sampleRate freqRatio time) :=
  isCoefficient_fnExp (plusOrNaN_mul (plusOrNaN_periodFactor freqRatio) (.inr h))

theorem isCoefficient_compressorCoefficient {time : F64} (h : time.sign = false) :
    isCoefficient (compressorCoefficient sampleRate time) :=
  isCoefficient_fnExp (plusOrNaN_mul plusOrNaN_sampleRate (.inr h))

theorem eq_zero_of_unitsAbs {x : F64} (h : x.unitsAbs = 0) : x = F64.zero x.sign := by
  have h0 : unitsOfMagnitude 52 0 = 0 := unitsOfMagnitude_subnormal (by decide)
  have hm : x.magnitude = 0 := unitsOfMagnitude_injective (h.trans h0.symm)
  rw [F64.zero, ← hm, F64.ofParts_sign_magnitude]

/-- A non-negative number has the sign + or is -0. -/
theorem sign_or_negZero_of_isNonNegative {x : F64} (h : isNonNegative x = true) : x.sign = false ∨ x = F64.zero true := by
  obtain ⟨-, hge⟩ := (isNonNegative_iff x).1 h
  obtain ⟨-, -, hu⟩ := (F64.ge_iff _ _).1 hge
  cases hs : x.sign with
  | false => exact .inl rfl
  | true =>
    rw [F64.units_posZero, F64.units, hs, if_pos rfl] at hu
    exact .inr (hs ▸ eq_zero_of_unitsAbs (by omega))

/-- `EXP(-1 / t)` for a time of -0: the quotient is +Inf, or a NaN where the factor of the time is no number (rule R200). -/
theorem fnExp_div_negZero {a : F64} (h : plusOrNaN a) :
    (fnExp (F64.negOne.div (a.mul (F64.zero true)))).isNaN = true ∨
      fnExp (F64.negOne.div (a.mul (F64.zero true))) = F64.inf false := by
  have hnan : (a.mul (F64.zero true)).isNaN = true →
      (fnExp (F64.negOne.div (a.mul (F64.zero true)))).isNaN = true := fun hx => isNaN_fnExp (F64.isNaN_div_right _ hx)
  have hzero : (F64.zero true).view = .fin true 0 := by decide +kernel
  rcases h with hn | hs
  · exact .inl (hnan (F64.isNaN_mul_left _ hn))
  rcases F64.view_cases a with ⟨hn, -⟩ | ha | ha
  · exact .inl (hnan (F64.isNaN_mul_left _ hn))
  · exact .inl (hnan (by simp only [F64.mul, ha, hzero, if_true, F64.isNaN_nanOf]))
  · have hprod : a.mul (F64.zero true) = F64.zero true := by
      simp only [F64.mul, ha, hzero, hs, Nat.mul_zero, Bool.false_xor, F64.round_zero _ unitsPerOne_pos]
    rw [hprod]
    exact .inr (by decide +kernel)

/-- What an envelope coefficient of a valid Config is: +Inf comes from a time of -0. -/
def isValidCoefficient (c : F64) : Prop := isCoefficient c ∨ c = F64.inf false

theorem isValidCoefficient_envelope (freqRatio : F64) {time : F64} (h : isNonNegative time = true) :
    isValidCoefficient (envelopeCoefficient sampleRate freqRatio time) := by
  rcases sign_or_negZero_of_isNonNegative h with hs | rfl
  · exact .inl (isCoefficient_envelopeCoefficient freqRatio hs)
  · exact (fnExp_div_negZero (plusOrNaN_periodFactor freqRatio)).imp_left .inl

theorem isValidCoefficient_compressor {time : F64} (h : isNonNegative time = true) :
    isValidCoefficient (compressorCoefficient sampleRate time) := by
  rcases sign_or_negZero_of_isNonNegative h with hs | rfl
  · exact .inl (isCoefficient_compressorCoefficient hs)
  · exact (fnExp_div_negZero plusOrNaN_sampleRate).imp_left .inl

/-! ### The one-pole form (rules R192, R195) -/

theorem view_inf (s : Bool) : (F64.inf s).view = .inf s := by cases s <;> decide +kernel

/-- An infinity times a number that is not negative. -/
theorem inf_mul_of_notNegative (s : Bool) {x : F64} (h : notNegative x = true) :
    ((F64.inf s).mul x).isNaN = true ∨ (F64.inf s).mul x = F64.inf s := by
  rcases view_of_notNegative h with hx | hx | ⟨t, n, hx, ht⟩ <;> simp only [F64.mul, view_inf, hx, Bool.xor_false]
  · exact .inl (F64.isNaN_nanOf ..)
  · exact .inr trivial
  · split_ifs with hn
    · exact .inl (F64.isNaN_nanOf ..)
    · rw [ht.resolve_right hn, Bool.xor_false]
      exact .inr rfl

/-- A coefficient of +Inf makes the two terms opposite infinities, so the sum is a NaN. -/
theorem isNaN_onePole_inf {old target : F64} (hold : notNegative old = true) (htarget : notNegative target = true) :
    (onePole (F64.inf false) old target).isNaN = true := by
  have hone : F64.one.sub (F64.inf false) = F64.inf true := by decide +kernel
  rw [onePole, hone]
  rcases inf_mul_of_notNegative false hold with h | h
  · exact F64.isNaN_add_left _ h
  rcases inf_mul_of_notNegative true htarget with h' | h'
  · exact F64.isNaN_add_right _ h'
  · simp only [h, h', F64.add, view_inf, Bool.false_eq_true, if_false, F64.isNaN_nanOf]

/-- With a coefficient in [0, 1] neither term is negative. -/
theorem notNegative_onePole_unit {c old target : F64} (h0 : F64.ge c F64.posZero = true) (h1 : F64.ge F64.one c = true)
    (hold : notNegative old = true) (htarget : notNegative target = true) :
    notNegative (onePole c old target) = true :=
  notNegative_add (notNegative_mul (notNegative_of_ge_posZero h0) hold) (notNegative_mul (notNegative_sub h1) htarget)

theorem notNegative_onePole {c old target : F64} (hc : isValidCoefficient c) (hold : notNegative old = true)
    (htarget : notNegative target = true) : notNegative (onePole c old target) = true := by
  rcases hc with (hn | ⟨h0, h1⟩) | rfl
  · exact notNegative_of_isNaN (F64.isNaN_add_left _ (F64.isNaN_mul_left _ hn))
  · exact notNegative_onePole_unit h0 h1 hold htarget
  · exact notNegative_of_isNaN (isNaN_onePole_inf hold htarget)

theorem inUnitRange_iff_unitsAbs (x : F64) : x.inUnitRange = true ↔ x.isNaN = false ∧ x.unitsAbs ≤ unitsPerOne := by
  rw [F64.inUnitRange_iff, F64.units]
  split_ifs <;> refine and_congr_right fun _ => ?_ <;> omega

theorem inUnitRange_of_ge {c : F64} (h0 : F64.ge c F64.posZero = true) (h1 : F64.ge F64.one c = true) :
    c.inUnitRange = true := by
  have hlow : F64.ge c F64.negOne = true := F64.ge_trans h0 (by decide +kernel)
  rw [F64.inUnitRange, hlow, h1]
  rfl

/-- What is at most a finite number rounds to a finite number at most that one. -/
theorem round_le_of_le (neg : Bool) {num den : Nat} {x : F64} (hd : 0 < den) (hx : x.isFinite = true)
    (h : num ≤ x.unitsAbs * den) :
    (F64.round neg num den).isFinite = true ∧ (F64.round neg num den).unitsAbs ≤ x.unitsAbs := by
  have hfin : (F64.round neg num den).isFinite = true :=
    F64.isFinite_round neg hd (m := x.magnitude) (by simpa [F64.isFinite] using hx) h
  exact ⟨hfin, by rw [F64.unitsAbs_round_of_finite hfin]; exact unitsOfMagnitude_mono (roundMagnitude_le hd h)⟩

theorem isFinite_mul_of_inUnitRange {a b : F64} (ha : a.inUnitRange = true) (hb : b.isFinite = true) :
    (a.mul b).isFinite = true := by
  rw [F64.mul_of_finite (isFinite_of_inUnitRange ha) hb]
  refine (round_le_of_le _ unitsPerOne_pos hb ?_).1
  rw [Nat.mul_comm]
  exact Nat.mul_le_mul_left _ (unitsAbs_le_of_inUnitRange ha)

theorem unitsAbs_one : F64.one.unitsAbs = unitsPerOne := by decide +kernel

/-- The complement of a number in [0, 1] is one. -/
theorem inUnitRange_one_sub {c : F64} (h0 : F64.ge c F64.posZero = true) (h1 : F64.ge F64.one c = true) :
    (F64.one.sub c).inUnitRange = true := by
  obtain ⟨-, -, hu0⟩ := (F64.ge_iff _ _).1 h0
  obtain ⟨-, -, hu1⟩ := (F64.ge_iff _ _).1 h1
  rw [F64.units_posZero] at hu0
  rw [F64.sub_of_finite_units (by decide) (isFinite_of_inUnitRange (inUnitRange_of_ge h0 h1)), inUnitRange_iff_unitsAbs]
  rw [units_one] at hu1 ⊢
  split_ifs with hz
  · generalize (F64.one.sign && !c.sign) = s
    cases s <;> decide +kernel
  · refine ⟨F64.isNaN_round .., unitsAbs_one ▸ (round_le_of_le _ Nat.one_pos (by decide) ?_).2⟩
    rw [unitsAbs_one]
    omega

/-- With finite operands no term is an infinity, so the result is a number. -/
theorem onePole_ge_posZero {c old target : F64} (h0 : F64.ge c F64.posZero = true) (h1 : F64.ge F64.one c = true)
    (hold : isNonNegative old = true) (htarget : isNonNegative target = true) :
    F64.ge (onePole c old target) F64.posZero = true := by
  obtain ⟨hfold, hgold⟩ := (isNonNegative_iff _).1 hold
  obtain ⟨hftarget, hgtarget⟩ := (isNonNegative_iff _).1 htarget
  refine (ge_posZero_iff _).2 ⟨?_, notNegative_onePole_unit h0 h1 (notNegative_of_ge_posZero hgold)
    (notNegative_of_ge_posZero hgtarget)⟩
  rw [onePole, F64.add_of_finite (isFinite_mul_of_inUnitRange (inUnitRange_of_ge h0 h1) hfold)
    (isFinite_mul_of_inUnitRange (inUnitRange_one_sub h0 h1) hftarget)]
  exact F64.isNaN_addUnits ..

/-! ### One sample -/

/-- The diode curve is not negative with a positive `vt` and a gain that is not negative (rule R190). -/
theorem notNegative_diodeOf (drop signal : F64) {vt gain : F64} (hvt : F64.gt vt F64.posZero = true)
    (hgain : notNegative gain = true) : notNegative (diodeOf drop vt gain signal) = true := by
  rw [diodeOf]
  split
  case isFalse => exact notNegative_posZero
  case isTrue ht =>
    have harg : plusOrNaN ((signal.sub drop).div vt) :=
      plusOrNaN_div (.inr (F64.sign_of_gt_posZero ht)) (.inr (F64.sign_of_gt_posZero hvt))
    refine notNegative_mul ?_ hgain
    rcases fnExp_of_notNegative (notNegative_of_plusOrNaN harg) with hn | hge
    · exact notNegative_of_isNaN (F64.isNaN_sub_left _ hn)
    · exact notNegative_sub hge

/-- The fields of a valid Config that the envelopes depend on (10_state.md rule R33). -/
theorem validConfig_envelope_fields {c : ConfigRecord} (h : validConfig c = true) :
    isNonNegative c.attackTime = true ∧ isNonNegative c.releaseTime = true ∧ isNonNegative c.compReleaseTime = true ∧
      isPositive c.vt = true ∧ isNonNegative c.diodeGain = true ∧ isNonNegative c.blend = true ∧
      F64.ge F64.one c.blend = true := by
  simp only [validConfig, Bool.and_eq_true] at h
  tauto

theorem notNegative_of_isNonNegative {x : F64} (h : isNonNegative x = true) : notNegative x = true :=
  notNegative_of_ge_posZero ((isNonNegative_iff x).1 h).2

/-- The rectified signal of a valid Config is not negative, whatever the signal (rules R189, R190). -/
theorem notNegative_rectifiedOf {cfg : ConfigRecord} (h : validConfig cfg = true) (signal : F64) :
    notNegative (rectifiedOf cfg signal) = true := by
  obtain ⟨-, -, -, hvt, hgain, hblend, hblend1⟩ := validConfig_envelope_fields h
  exact notNegative_add (notNegative_mul (notNegative_max0 signal) (notNegative_sub hblend1))
    (notNegative_mul (notNegative_diodeOf _ _ ((isPositive_iff _).1 hvt).2 (notNegative_of_isNonNegative hgain))
      (notNegative_of_isNonNegative hblend))

/-- Both envelopes of a channel are not negative (10_state.md rule R53). -/
def ChannelState.EnvelopesNotNegative (ch : ChannelState) : Prop :=
  notNegative ch.env = true ∧ notNegative ch.compEnv = true

theorem processSample_envelopes {cfg : ConfigRecord} {ch : ChannelState} (a : F64) (hcfg : validConfig cfg = true)
    (hinv : ch.Inv cfg) (h : ch.EnvelopesNotNegative) : (processSample cfg ch a).channel.EnvelopesNotNegative := by
  obtain ⟨hatk, hrel, hcomp, -⟩ := validConfig_envelope_fields hcfg
  obtain ⟨henv, hcompEnv⟩ := h
  constructor
  · have hcoef : ∀ b : Bool, isValidCoefficient (if b then ch.atkCoef else ch.relCoef) := fun b => by
      cases b with
      | true => exact hinv.atkCoef_eq ▸ isValidCoefficient_envelope _ hatk
      | false => exact hinv.relCoef_eq ▸ isValidCoefficient_envelope _ hrel
    rw [processSample_env, followEnvelope]
    exact notNegative_onePole (hcoef _) henv (notNegative_rectifiedOf hcfg _)
  · rw [processSample_compEnv, trackLevel]
    split
    · exact notNegative_abs _
    · exact notNegative_onePole (hinv.compRelCoef_eq ▸ isValidCoefficient_compressor hcomp) hcompEnv (notNegative_abs _)

theorem runChannel_envelopes {cfg : ConfigRecord} {ch : ChannelState} (xs : List F32) (hcfg : validConfig cfg = true)
    (hinv : ch.Inv cfg) (h : ch.EnvelopesNotNegative) : (runChannel cfg ch xs).channel.EnvelopesNotNegative := by
  have hboth : (runChannel cfg ch xs).channel.Inv cfg ∧ (runChannel cfg ch xs).channel.EnvelopesNotNegative :=
    runChannel_induct (P := fun ch => ch.Inv cfg ∧ ch.EnvelopesNotNegative) cfg
      (fun _ a h => ⟨processSample_inv a h.1, processSample_envelopes a hcfg h.1 h.2⟩) ch xs ⟨hinv, h⟩
  exact hboth.2

/-! ### One step -/

/-- The Config that a block runs with is the one held or the one that waited. -/
theorem validConfig_applyPending {s : State} (h : s.ConfigsValid) : validConfig (applyPending s).cfg = true := by
  obtain ⟨hheld, hwaiting⟩ := h
  rcases applyPending_cases s with ⟨-, e⟩ | ⟨c, hp, e⟩ | ⟨n, -, e⟩ | ⟨-, e⟩
  case inl => rwa [e]
  case inr.inl => rw [e]; exact hwaiting c hp
  case inr.inr.inl => rcases applyStart_cases n (s.withPending none) with ⟨-, e'⟩ | ⟨-, e'⟩ <;> rw [e, e'] <;> exact hheld
  case inr.inr.inr => rw [e]; exact hheld

theorem applyPending_envelopes {s : State} (h : s.EnvelopesNotNegative) : (applyPending s).EnvelopesNotNegative := by
  rcases applyPending_cases s with ⟨-, e⟩ | ⟨c, -, e⟩ | ⟨n, -, e⟩ | ⟨-, e⟩
  case inl => rwa [e]
  case inr.inl =>
    rw [e]
    intro ch hch
    obtain ⟨old, hold, rfl⟩ := List.mem_map.1 hch
    exact h old hold
  case inr.inr.inl => rcases applyStart_cases n (s.withPending none) with ⟨-, e'⟩ | ⟨-, e'⟩ <;> rw [e, e'] <;> exact h
  case inr.inr.inr => rw [e]; exact h

theorem checkChannels_envelopes {s : State} (c : Nat) (h : s.EnvelopesNotNegative) :
    (checkChannels c s).EnvelopesNotNegative := by
  rcases checkChannels_cases c s with ⟨-, e⟩ | ⟨-, e⟩ <;> rw [e]
  · exact h
  · intro ch hch
    rw [List.eq_of_mem_replicate hch]
    exact ⟨notNegative_posZero, notNegative_posZero⟩

theorem finishBlock_envelopes {c : Nat} {xs : List F32} {s t : State} (hfinish : finishBlock c xs s = some t)
    (hcfg : validConfig s.cfg = true) (hinv : s.Inv) (h : s.EnvelopesNotNegative) : t.EnvelopesNotNegative := by
  intro ch hch
  rw [finishBlock_ch hfinish] at hch
  obtain ⟨run, hrun, rfl⟩ := List.mem_map.1 hch
  obtain ⟨old, hold, ys, rfl⟩ := mem_runChannels hrun
  exact runChannel_envelopes ys hcfg (hinv.channels old hold) (h old hold)

theorem exec_envelopes {i : Instr} {s t : State} (hwf : i.wf = true) (hinv : s.Inv) (hcfg : s.ConfigsValid)
    (h : s.EnvelopesNotNegative) (hexec : exec i s = .next t) : t.EnvelopesNotNegative := by
  cases i with
  | updateConfig c => rw [exec_updateConfig] at hexec; cases hexec; exact h
  | startSpectrum n => rw [exec_startSpectrum] at hexec; cases hexec; exact h
  | stopSpectrum => rw [exec_stopSpectrum] at hexec; cases hexec; exact h
  | processBlock c xs =>
    have hbegin : validConfig (beginBlock c s).cfg = true := by
      rw [beginBlock, checkChannels_cfg]
      exact validConfig_applyPending hcfg
    exact finishBlock_envelopes (execProcessBlock_eq_next hexec) hbegin
      (beginBlock_inv ((isBlock_iff c xs).1 hwf).1 hinv) (checkChannels_envelopes c (applyPending_envelopes h))
  | blockOut c xs => rw [exec_blockOut] at hexec; cases hexec; exact h
  | spectrum ms => rw [exec_spectrum] at hexec; cases hexec; exact h

theorem step_envelopes {s t : State} (hinv : s.Inv) (hcfg : s.ConfigsValid) (h : s.EnvelopesNotNegative)
    (hstep : step s = .next t) : t.EnvelopesNotNegative := by
  rcases step_inv_cases hinv with e | ⟨rest, e, -⟩ | ⟨i, rest, e, hinv', hwf, -⟩ <;> rw [e] at hstep
  · cases hstep; exact h
  · cases hstep; exact h
  · exact exec_envelopes hwf hinv' hcfg h hstep

/-- Settles O35: the one-pole form keeps the sign with a coefficient in [0, 1], `EXP` of a number below 0 is one, and the
rectified signal and the level of a valid Config are not negative. -/
theorem envelopesAreNeverNegative : Obligations.EnvelopesAreNeverNegative := by
  refine ⟨fun c old target => onePole_ge_posZero, ?_, fun s t => step_envelopes⟩
  rintro freqRatio time - hs c (rfl | rfl)
  · exact isCoefficient_envelopeCoefficient freqRatio hs
  · exact isCoefficient_compressorCoefficient hs

end Sys2Proof.Machine
end

section
/-! PROOFS. The range of the carrier phase (41_channel_pipeline.md rules R182, R185, R186). -/

namespace Sys2Proof.Machine

/-! ### Numbers in the phase's range -/

theorem inPhaseRange_iff (x : F64) :
    x.inPhaseRange = true ↔ F64.ge x F64.posZero = true ∧ F64.lt x F64.twoPi = true := by
  rw [F64.inPhaseRange, Bool.and_eq_true]

theorem isFinite_twoPi : F64.twoPi.isFinite = true := by decide

theorem units_twoPi : F64.twoPi.units = F64.twoPi.unitsAbs := by decide +kernel

theorem unitsAbs_twoPi_pos : 0 < F64.twoPi.unitsAbs := by decide +kernel

/-- A number in a range whose end is finite is finite. -/
theorem isFinite_of_unitsAbs_le {x y : F64} (hn : x.isNaN = false) (hy : y.isFinite = true)
    (h : x.unitsAbs ≤ y.unitsAbs) : x.isFinite = true := by
  cases hf : x.isFinite with
  | true => rfl
  | false =>
    have hinf := F64.unitsAbs_of_infinite hn hf
    have hlt := F64.unitsAbs_lt_of_isFinite hy
    omega

/-- The units of a number that is not negative are its magnitude. -/
theorem units_of_isNonNegative {x : F64} (h : isNonNegative x = true) : x.units = x.unitsAbs := by
  rcases sign_or_negZero_of_isNonNegative h with hs | rfl
  · simp only [F64.units, hs, Bool.false_eq_true, if_false]
  · decide +kernel

theorem isNonNegative_of_inPhaseRange {x : F64} (h : x.inPhaseRange = true) : isNonNegative x = true := by
  obtain ⟨hge, hlt⟩ := (inPhaseRange_iff x).1 h
  obtain ⟨hn, -, hu⟩ := (F64.ge_iff _ _).1 hge
  obtain ⟨-, -, hlt⟩ := (F64.lt_iff _ _).1 hlt
  rw [F64.units_posZero] at hu
  rw [units_twoPi] at hlt
  refine (isNonNegative_iff x).2 ⟨isFinite_of_unitsAbs_le hn isFinite_twoPi ?_, hge⟩
  unfold F64.units at hu hlt
  split_ifs at hu hlt <;> omega

/-- A finite number that is not negative. -/
theorem isNonNegative_of_notNegative {x : F64} (hf : x.isFinite = true) (h : notNegative x = true) :
    isNonNegative x = true := by
  have hn : x.isNaN = false := Bool.eq_false_iff.2 fun hn => by
    rw [F64.isFinite_of_isNaN hn] at hf
    cases hf
  exact (isNonNegative_iff x).2 ⟨hf, (ge_posZero_iff x).2 ⟨hn, h⟩⟩

/-! ### The three steps of rule R185 -/

/-- The largest finite number and a phase are below the midpoint to the infinity. -/
theorem units_last_add_twoPi :
    unitsOfMagnitude 52 (infMagnitude - 1) + F64.twoPi.unitsAbs < (2 ^ 54 - 1) * 2 ^ 2044 * 1 := by decide +kernel

/-- A phase and a finite step that is not negative do not overflow. -/
theorem isNonNegative_phase_add {phase step : F64} (hphase : phase.inPhaseRange = true)
    (hstep : isNonNegative step = true) : isNonNegative (phase.add step) = true := by
  have hphase' := isNonNegative_of_inPhaseRange hphase
  obtain ⟨hfp, hgp⟩ := (isNonNegative_iff _).1 hphase'
  obtain ⟨hfs, hgs⟩ := (isNonNegative_iff _).1 hstep
  refine isNonNegative_of_notNegative ?_ (notNegative_add (notNegative_of_ge_posZero hgp) (notNegative_of_ge_posZero hgs))
  rw [F64.add_of_finite_units hfp hfs]
  split_ifs
  · cases phase.sign && step.sign <;> decide
  · refine (F64.round_finite_or_inf ..).resolve_right fun hinf => ?_
    rw [F64.round_eq_inf_iff_ge _ _ Nat.one_pos] at hinf
    have hlast : step.unitsAbs ≤ unitsOfMagnitude 52 (infMagnitude - 1) :=
      unitsOfMagnitude_mono (Nat.le_sub_one_of_lt (by simpa [F64.isFinite] using hfs))
    obtain ⟨-, hlt⟩ := (inPhaseRange_iff _).1 hphase
    obtain ⟨-, -, hlt⟩ := (F64.lt_iff _ _).1 hlt
    rw [units_twoPi, units_of_isNonNegative hphase'] at hlt
    rw [units_of_isNonNegative hphase', units_of_isNonNegative hstep] at hinf
    have hbound := units_last_add_twoPi
    generalize (2 ^ 54 - 1) * 2 ^ 2044 * 1 = half at hinf hbound
    omega

/-- The first reduction keeps a finite number that is not negative one. -/
theorem isNonNegative_sub_twoPi {p : F64} (hp : isNonNegative p = true) (hge : F64.ge p F64.twoPi = true) :
    isNonNegative (p.sub F64.twoPi) = true := by
  obtain ⟨hf, -⟩ := (isNonNegative_iff p).1 hp
  obtain ⟨-, -, hu⟩ := (F64.ge_iff _ _).1 hge
  refine isNonNegative_of_notNegative ?_ (notNegative_sub hge)
  rw [units_of_isNonNegative hp, units_twoPi] at hu
  rw [F64.sub_of_finite_units hf isFinite_twoPi, units_of_isNonNegative hp, units_twoPi]
  split_ifs
  · cases p.sign && !F64.twoPi.sign <;> decide
  · exact (round_le_of_le _ Nat.one_pos hf (by omega)).1

/-- The second reduction leaves a phase: the remainder is exact and below `TWO_PI`. -/
theorem inPhaseRange_fmod {p : F64} (hp : isNonNegative p = true) (hge : F64.ge p F64.twoPi = true) :
    (p.fmod F64.twoPi).inPhaseRange = true := by
  obtain ⟨hf, -⟩ := (isNonNegative_iff p).1 hp
  obtain ⟨-, -, hu⟩ := (F64.ge_iff _ _).1 hge
  have hpos := unitsAbs_twoPi_pos
  have hsign : p.sign = false := by
    rcases sign_or_negZero_of_isNonNegative hp with hs | rfl
    · exact hs
    · exact absurd hge (by decide +kernel)
  obtain ⟨hfin, hs, hunits⟩ := F64.fmod_exact hf isFinite_twoPi hpos.ne'
  have hnonneg : isNonNegative (p.fmod F64.twoPi) = true :=
    isNonNegative_of_notNegative hfin (notNegative_of_sign (hs.trans hsign))
  obtain ⟨-, hge0⟩ := (isNonNegative_iff _).1 hnonneg
  obtain ⟨hn, -, -⟩ := (F64.ge_iff _ _).1 hge0
  refine (inPhaseRange_iff _).2 ⟨hge0, (F64.lt_iff _ _).2 ⟨hn, by decide, ?_⟩⟩
  rw [units_of_isNonNegative hnonneg, units_twoPi, hunits]
  exact_mod_cast Nat.mod_lt _ hpos

/-- A finite number that is not negative and not reduced is a phase. -/
theorem inPhaseRange_of_not_ge {p : F64} (hp : isNonNegative p = true) (hge : ¬ F64.ge p F64.twoPi = true) :
    p.inPhaseRange = true := by
  obtain ⟨-, hge0⟩ := (isNonNegative_iff p).1 hp
  obtain ⟨hn, -, -⟩ := (F64.ge_iff _ _).1 hge0
  refine (inPhaseRange_iff p).2 ⟨hge0, (F64.lt_iff _ _).2 ⟨hn, by decide, lt_of_not_ge fun hu => hge ?_⟩⟩
  exact (F64.ge_iff _ _).2 ⟨hn, by decide, hu⟩

/-- The first of rule R185's two reductions. -/
def reduceOnce (p : F64) : F64 := if F64.ge p F64.twoPi then p.sub F64.twoPi else p

theorem advancePhase_eq (phase step : F64) :
    advancePhase phase step =
      if F64.ge (reduceOnce (phase.add step)) F64.twoPi then (reduceOnce (phase.add step)).fmod F64.twoPi
      else reduceOnce (phase.add step) := rfl

theorem isNonNegative_reduceOnce {p : F64} (hp : isNonNegative p = true) : isNonNegative (reduceOnce p) = true := by
  rw [reduceOnce]
  split
  case isTrue hge => exact isNonNegative_sub_twoPi hp hge
  case isFalse => exact hp

theorem advancePhase_inPhaseRange {phase step : F64} (hphase : phase.inPhaseRange = true)
    (hstep : isNonNegative step = true) : (advancePhase phase step).inPhaseRange = true := by
  have hreduced := isNonNegative_reduceOnce (isNonNegative_phase_add hphase hstep)
  rw [advancePhase_eq]
  split
  case isTrue hge => exact inPhaseRange_fmod hreduced hge
  case isFalse hge => exact inPhaseRange_of_not_ge hreduced hge

/-! ### The phase step (rule R182) -/

/-- A finite phase step of a legal sample rate is not negative. -/
theorem isNonNegative_phaseStepOf {fs freqRatio : F64} (hfs : isPositive fs = true)
    (hfin : (phaseStepOf fs freqRatio).isFinite = true) : isNonNegative (phaseStepOf fs freqRatio) = true := by
  have hplus : plusOrNaN fs := .inr (F64.sign_of_gt_posZero ((isPositive_iff fs).1 hfs).2)
  exact isNonNegative_of_notNegative hfin (notNegative_of_plusOrNaN (plusOrNaN_div
    (plusOrNaN_mul (.inr (by decide)) (plusOrNaN_mul hplus (plusOrNaN_clampFreq freqRatio))) hplus))

/-- Settles O33: no sample writes the phase step, and each advance by a finite step that is not negative ends in the
range. -/
theorem phaseStaysInRange : Obligations.PhaseStaysInRange := by
  intro fs cfg ch xs hfs hstep hfin hphase
  have hnonneg : isNonNegative ch.phaseStep = true := by
    rw [hstep] at hfin ⊢
    exact isNonNegative_phaseStepOf hfs hfin
  have hboth := runChannel_induct
    (P := fun ch => isNonNegative ch.phaseStep = true ∧ ch.phase.inPhaseRange = true) cfg
    (fun ch a h => ⟨h.1, advancePhase_inPhaseRange h.2 h.1⟩) ch xs ⟨hnonneg, hphase⟩
  exact hboth.2

end Sys2Proof.Machine
end

section
/-! PROOFS. The compressor's corner cases (41_channel_pipeline.md rules R196, R200). -/

namespace Sys2Proof.Machine

/-! ### The release coefficient (rule R200) -/

theorem sign_sampleRate : sampleRate.sign = false := F64.sign_of_gt_posZero sampleRate_pos

/-- A number above +0 has units. -/
theorem unitsAbs_pos_of_gt_posZero {x : F64} (h : F64.gt x F64.posZero = true) : 0 < x.unitsAbs := by
  obtain ⟨-, -, hu⟩ := (F64.lt_iff _ _).1 h
  rw [F64.units_posZero] at hu
  simp only [F64.units, F64.sign_of_gt_posZero h, Bool.false_eq_true, if_false] at hu
  omega

/-- A finite number above +0 times an infinity is that infinity. -/
theorem mul_inf_of_isPositive {x : F64} (h : isPositive x = true) (s : Bool) : x.mul (F64.inf s) = F64.inf s := by
  obtain ⟨hf, hgt⟩ := (isPositive_iff x).1 h
  simp only [F64.mul, F64.view_of_finite hf, view_inf, F64.sign_of_gt_posZero hgt, Bool.false_xor,
    if_neg (unitsAbs_pos_of_gt_posZero hgt).ne']

theorem inf_mul_of_isPositive (s : Bool) {x : F64} (h : isPositive x = true) : (F64.inf s).mul x = F64.inf s := by
  obtain ⟨hf, hgt⟩ := (isPositive_iff x).1 h
  simp only [F64.mul, F64.view_of_finite hf, view_inf, F64.sign_of_gt_posZero hgt, Bool.xor_false,
    if_neg (unitsAbs_pos_of_gt_posZero hgt).ne']

theorem isPositive_sampleRate : isPositive sampleRate = true :=
  (isPositive_iff _).2 ⟨sampleRate_finite, sampleRate_pos⟩

theorem compressorCoefficient_posZero : compressorCoefficient sampleRate F64.posZero = F64.posZero := by
  rw [compressorCoefficient_eq, mul_posZero_of_finite sampleRate_finite, sign_sampleRate]
  decide +kernel

theorem compressorCoefficient_inf : compressorCoefficient sampleRate (F64.inf false) = F64.one := by
  rw [compressorCoefficient_eq, mul_inf_of_isPositive isPositive_sampleRate]
  decide +kernel

theorem isNaN_compressorCoefficient (fs : F64) {time : F64} (h : time.isNaN = true) :
    (compressorCoefficient fs time).isNaN = true :=
  isNaN_fnExp (F64.isNaN_div_right _ (F64.isNaN_mul_right fs h))

/-! ### A level equal to the threshold, and one that is not above it (rule R196) -/

theorem compressorGain_of_not_gt {threshold level : F64} (ratio : F64) (h : F64.gt level threshold = false) :
    compressorGain threshold ratio level = F64.one := by
  rw [compressorGain, if_neg (Bool.eq_false_iff.1 h)]

theorem compressorGain_of_gt {threshold level : F64} (ratio : F64) (h : F64.gt level threshold = true) :
    compressorGain threshold ratio level = reducedGain threshold ratio level := if_pos h

theorem compressorGain_self (threshold ratio : F64) : compressorGain threshold ratio threshold = F64.one := by
  refine compressorGain_of_not_gt ratio (Bool.eq_false_iff.2 fun h => ?_)
  obtain ⟨-, -, hu⟩ := (F64.lt_iff _ _).1 h
  omega

/-! ### Levels in dB -/

theorem unitsAbs_twenty : F64.twenty.unitsAbs = 20 * unitsPerOne := by decide +kernel

/-- The bound of a level in dB: 20 times the bound of the logarithm. -/
theorem unitsAbs_6480 : (F64.ofNat 6480).isFinite = true ∧ (F64.ofNat 6480).unitsAbs = 6480 * unitsPerOne := by
  decide +kernel

theorem unitsAbs_12960 : (F64.ofNat 12960).isFinite = true ∧ (F64.ofNat 12960).unitsAbs = 12960 * unitsPerOne := by
  decide +kernel

/-- `LOG10` of a finite number above 0 is at most 324 away from 0. -/
theorem unitsAbs_fnLog10 {x : F64} (h : isPositive x = true) :
    (fnLog10 x).isFinite = true ∧ (fnLog10 x).unitsAbs ≤ 324 * unitsPerOne := by
  obtain ⟨hf, hgt⟩ := (isPositive_iff x).1 h
  obtain ⟨hlow, hhigh⟩ := fnLog10_range hf hgt
  obtain ⟨hn, -, hlow⟩ := (F64.ge_iff _ _).1 hlow
  obtain ⟨-, -, hhigh⟩ := (F64.ge_iff _ _).1 hhigh
  have hlowest : log10Lowest.units = -(324 * unitsPerOne : Nat) ∧ log10Lowest.unitsAbs = 324 * unitsPerOne := by
    decide +kernel
  have hhighest : log10Highest.units = (309 * unitsPerOne : Nat) := by decide +kernel
  obtain ⟨hlowest, hlowestAbs⟩ := hlowest
  have hbound : (fnLog10 x).unitsAbs ≤ 324 * unitsPerOne := by
    rw [hlowest] at hlow
    rw [hhighest] at hhigh
    unfold F64.units at hlow hhigh
    split_ifs at hlow hhigh <;> omega
  exact ⟨isFinite_of_unitsAbs_le hn (y := log10Lowest) (by decide) (hbound.trans hlowestAbs.ge), hbound⟩

/-- A level in dB is a number. -/
theorem unitsAbs_levelDb {x : F64} (h : isPositive x = true) :
    (F64.twenty.mul (fnLog10 x)).isFinite = true ∧ (F64.twenty.mul (fnLog10 x)).unitsAbs ≤ 6480 * unitsPerOne := by
  obtain ⟨hf, hbound⟩ := unitsAbs_fnLog10 h
  obtain ⟨hfin, hunits⟩ := unitsAbs_6480
  rw [F64.mul_of_finite (by decide) hf, ← hunits]
  refine round_le_of_le _ unitsPerOne_pos hfin ?_
  rw [unitsAbs_twenty, hunits]
  calc 20 * unitsPerOne * (fnLog10 x).unitsAbs ≤ 20 * unitsPerOne * (324 * unitsPerOne) := Nat.mul_le_mul_left _ hbound
    _ = 6480 * unitsPerOne * unitsPerOne := by ring

/-- The difference of two levels in dB is a number. -/
theorem isFinite_sub_levelDb {x y : F64} (hx : isPositive x = true) (hy : isPositive y = true) :
    ((F64.twenty.mul (fnLog10 x)).sub (F64.twenty.mul (fnLog10 y))).isFinite = true := by
  obtain ⟨hfx, hbx⟩ := unitsAbs_levelDb hx
  obtain ⟨hfy, hby⟩ := unitsAbs_levelDb hy
  obtain ⟨hfin, hunits⟩ := unitsAbs_12960
  rw [F64.sub_of_finite_units hfx hfy]
  split_ifs
  · generalize (F64.sign _ && _) = s
    cases s <;> decide
  · refine (round_le_of_le _ Nat.one_pos hfin ?_).1
    rw [hunits]
    unfold F64.units
    split_ifs <;> omega

/-! ### The ratio 1 -/

/-- The ratio 1 reduces every finite difference of levels to a zero. -/
theorem compressorGain_ratio_one {threshold level : F64} (ht : isPositive threshold = true)
    (hl : isPositive level = true) : compressorGain threshold F64.one level = F64.one := by
  cases hgt : F64.gt level threshold with
  | false => exact compressorGain_of_not_gt F64.one hgt
  | true =>
    have hratio : F64.one.sub (F64.one.div F64.one) = F64.posZero := by decide +kernel
    rw [compressorGain_of_gt F64.one hgt]
    simp only [reducedGain, hratio]
    rw [mul_posZero_of_finite (isFinite_sub_levelDb hl ht)]
    generalize F64.sign _ = s
    cases s <;> decide +kernel

/-! ### The threshold 0 -/

/-- The largest number below 1 times the smallest above it is at least 1. -/
theorem one_le_neighbours : unitsPerOne * unitsPerOne ≤
    unitsOfMagnitude 52 0x3FEFFFFFFFFFFFFF * unitsOfMagnitude 52 (F64.one.magnitude + 1) := by decide +kernel

/-- A number above 1 has the sign + and more units than 1, so its magnitude is at least the next one. -/
theorem above_one {x : F64} (h : F64.gt x F64.one = true) :
    x.isNaN = false ∧ x.sign = false ∧ unitsOfMagnitude 52 (F64.one.magnitude + 1) ≤ x.unitsAbs := by
  obtain ⟨-, hn, hu⟩ := (F64.lt_iff _ _).1 h
  have hsign : x.sign = false :=
    F64.sign_of_gt_posZero ((F64.lt_iff _ _).2 ⟨F64.isNaN_posZero, hn, lt_trans (by decide +kernel) hu⟩)
  have hone : F64.one.units = F64.one.unitsAbs := by decide +kernel
  have hunits : F64.one.unitsAbs < x.unitsAbs := by
    rw [hone] at hu
    simp only [F64.units, hsign, Bool.false_eq_true, if_false] at hu
    omega
  exact ⟨hn, hsign, unitsOfMagnitude_mono (unitsOfMagnitude_lt_iff.1 hunits)⟩

/-- The inverse of a number above 1 is not negative and below 1. -/
theorem one_div_lt_one {ratio : F64} (h : F64.gt ratio F64.one = true) :
    isNonNegative (F64.one.div ratio) = true ∧ (F64.one.div ratio).unitsAbs < unitsPerOne := by
  obtain ⟨hn, hsign, hunits⟩ := above_one h
  cases hf : ratio.isFinite with
  | false =>
    have hview : ratio.view = .inf false :=
      hsign ▸ (F64.nan_or_inf_of_not_finite hf).resolve_left (Bool.eq_false_iff.1 hn)
    have hzero : F64.one.div ratio = F64.zero false := by
      have hone : F64.one.view = .fin false unitsPerOne := by decide +kernel
      simp only [F64.div, hone, hview, Bool.xor_false]
    rw [hzero]
    decide +kernel
  | true =>
    have hpos : 0 < ratio.unitsAbs := lt_of_lt_of_le (by decide +kernel) hunits
    have hlast : (⟨0x3FEFFFFFFFFFFFFF⟩ : F64).isFinite = true := by decide
    have hbelow : (⟨0x3FEFFFFFFFFFFFFF⟩ : F64).unitsAbs < unitsPerOne := by decide +kernel
    rw [F64.div_of_finite (by decide) hf hpos.ne', unitsAbs_one, hsign]
    obtain ⟨hfin, hle⟩ := round_le_of_le (F64.one.sign ^^ false) hpos hlast
      (one_le_neighbours.trans (Nat.mul_le_mul_left _ hunits))
    exact ⟨isNonNegative_of_notNegative hfin (notNegative_of_sign (F64.sign_round ..)), hle.trans_lt hbelow⟩

/-- The smallest number above 0 is one unit. -/
theorem unitsOfMagnitude_one : unitsOfMagnitude 52 1 = 1 := unitsOfMagnitude_subnormal (by decide)

/-- A whole number of units from 1 to those of a finite number rounds to a number above 0. -/
theorem isPositive_round {n : Nat} {x : F64} (hx : x.isFinite = true) (h0 : 0 < n) (hn : n ≤ x.unitsAbs) :
    isPositive (F64.round false n 1) = true := by
  obtain ⟨hfin, -⟩ := round_le_of_le false Nat.one_pos hx (hn.trans_eq (Nat.mul_one _).symm)
  have hunits : 0 < (F64.round false n 1).unitsAbs := by
    rw [F64.unitsAbs_round_of_finite hfin]
    have hone : 1 ≤ roundMagnitude 52 n 1 := le_roundMagnitude (by decide) Nat.one_pos (by rwa [unitsOfMagnitude_one])
    exact lt_of_lt_of_le (by rw [unitsOfMagnitude_one]; exact Nat.one_pos) (unitsOfMagnitude_mono hone)
  refine (isPositive_iff _).2 ⟨hfin, (F64.lt_iff _ _).2 ⟨F64.isNaN_posZero, F64.isNaN_round .., ?_⟩⟩
  rw [F64.units_posZero, F64.units, F64.sign_round, if_neg Bool.false_ne_true]
  exact_mod_cast hunits

/-- With a ratio above 1 the slope `1 - 1 / ratio` is a number above 0. -/
theorem isPositive_slope {ratio : F64} (h : F64.gt ratio F64.one = true) :
    isPositive (F64.one.sub (F64.one.div ratio)) = true := by
  obtain ⟨hnonneg, hlt⟩ := one_div_lt_one h
  obtain ⟨hfin, -⟩ := (isNonNegative_iff _).1 hnonneg
  rw [F64.sub_of_finite_units (by decide) hfin, units_one, units_of_isNonNegative hnonneg, if_neg (by omega),
    decide_eq_false (by omega)]
  exact isPositive_round (x := F64.one) (by decide) (by omega) (by rw [unitsAbs_one]; omega)

/-- A threshold of 0 is at -Inf dB, which is infinitely far below every finite level. -/
theorem compressorGain_threshold_zero {ratio level : F64} (hr : F64.gt ratio F64.one = true)
    (hl : isPositive level = true) : compressorGain F64.posZero ratio level = F64.posZero := by
  obtain ⟨-, hgt⟩ := (isPositive_iff _).1 hl
  obtain ⟨hfin, -⟩ := unitsAbs_levelDb hl
  have hthresh : F64.twenty.mul (fnLog10 F64.posZero) = F64.inf true := by decide +kernel
  have hdiff : (F64.twenty.mul (fnLog10 level)).sub (F64.inf true) = F64.inf false := by
    simp only [F64.sub, F64.view_of_finite hfin, view_inf, Bool.not_true]
  have hslope : (F64.inf false).mul (F64.one.sub (F64.one.div ratio)) = F64.inf false :=
    inf_mul_of_isPositive false (isPositive_slope hr)
  rw [compressorGain_of_gt ratio hgt]
  simp only [reducedGain, hthresh, hdiff, hslope]
  decide +kernel

/-! ### A threshold below 0 -/

/-- The unary minus writes the sign bit alone. -/
theorem magnitude_neg (x : F64) : x.neg.magnitude = x.magnitude := by
  have hsign : (0x8000000000000000 : BitVec 64).toNat % 2 ^ 63 = 0 := by decide
  rw [F64.magnitude, F64.neg, BitVec.toNat_xor, Nat.xor_mod_two_pow, hsign, Nat.xor_zero]
  rfl

theorem isNaN_neg {x : F64} (h : x.isNaN = true) : x.neg.isNaN = true := by
  rwa [F64.isNaN, magnitude_neg]

/-- `LOG10` of a number below 0 is a NaN (00_scope.md rule R22). -/
theorem isNaN_fnLog10_of_negative {x : F64} (h : F64.lt x F64.posZero = true) : (fnLog10 x).isNaN = true := by
  obtain ⟨-, -, hu⟩ := (F64.lt_iff _ _).1 h
  rw [F64.units_posZero, F64.units] at hu
  have hsign : x.sign = true := by
    by_contra hs
    rw [if_neg hs] at hu
    omega
  have h0 : x.unitsAbs ≠ 0 := fun h0 => by simp [h0] at hu
  rcases F64.view_cases x with ⟨-, hx⟩ | hx | hx <;>
    simp only [fnLog10, hx, hsign, if_true, if_neg h0, F64.isNaN_nanOf]

theorem isNaN_fnPow10 {x : F64} (h : x.isNaN = true) : (fnPow10 x).isNaN = true := by
  simp only [fnPow10, F64.view_of_nan h, F64.isNaN_nanOf]

theorem isNaN_compressorGain_of_negative {threshold level : F64} (ratio : F64) (ht : F64.lt threshold F64.posZero = true)
    (hgt : F64.gt level threshold = true) : (compressorGain threshold ratio level).isNaN = true := by
  rw [compressorGain_of_gt ratio hgt]
  exact isNaN_fnPow10 (F64.isNaN_div_left _ (isNaN_neg (F64.isNaN_mul_left _ (F64.isNaN_sub_right _
    (F64.isNaN_mul_right _ (isNaN_fnLog10_of_negative ht))))))

/-- Settles O46: one lemma per corner case of rules R196 and R200. -/
theorem compressorCorners : Obligations.CompressorCorners :=
  ⟨compressorCoefficient_posZero, compressorCoefficient_inf, fun _ => isNaN_compressorCoefficient sampleRate,
    compressorGain_self, fun _ _ => compressorGain_ratio_one, fun _ _ => compressorGain_threshold_zero,
    fun _ ratio _ => isNaN_compressorGain_of_negative ratio⟩

end Sys2Proof.Machine
end
